-- ==== Sys2Proof/Word.lean ====
section
/-! DEFINITION. The two bit vectors of the block: a byte (also a field element) and a command word. -/

namespace Sys2Proof

/-- A byte, and so a field element: 0..255 (R6, R8). -/
abbrev Byte := BitVec 8

/-- A command word: 32 bits (R70). -/
abbrev Word := BitVec 32

end Sys2Proof
end

