-- ==== Sys2Proof/Config.lean ====
section
/-! DEFINITION. The parameters of rule R5: sizes, the legal reduction polynomials, the free bytes of the
random source, and the transport byte order that no rule uses. -/

namespace Sys2Proof

/-- `KEY_BYTES` of R5: bytes in a key. -/
def Config.keyBytes : Nat := 32

/-- `SHARE_BYTES` of R5: bytes in a keyshare. -/
def Config.shareBytes : Nat := 33

/-- `SLOTS` of R5: slots in a share bank. -/
def Config.slots : Nat := 255

/-- `COEF_LEN` of R5: bytes in `COEF`. -/
def Config.coefLen : Nat := 255

/-- `BASIS_LEN` of R5: bytes in `BASIS`. -/
def Config.basisLen : Nat := 255

/-- The 30 legal values of `POLY` (R9): 9 bits, bit 8 set, irreducible over GF(2). -/
def Config.legalPolys : List (BitVec 9) :=
  [0x11B, 0x11D, 0x12B, 0x12D, 0x139, 0x13F, 0x14D, 0x15F, 0x163, 0x165,
   0x169, 0x171, 0x177, 0x17B, 0x187, 0x18B, 0x18D, 0x19F, 0x1A3, 0x1A9,
   0x1B1, 0x1BD, 0x1C3, 0x1CF, 0x1D7, 0x1DD, 0x1E7, 0x1F3, 0x1F5, 0x1F9]

/-- The parameter `POLY` (R5, D2). "A model shall refuse a `POLY` outside the list" (R9): a value outside
`Config.legalPolys` cannot be written. -/
structure Poly where
  val : BitVec 9
  legal : Config.legalPolys.contains val = true
  deriving DecidableEq, Repr

/-- Choosing `POLY`: a value outside the list of R9 is refused. -/
def Poly.ofBits (v : BitVec 9) : Option Poly :=
  if h : Config.legalPolys.contains v = true then some ⟨v, h⟩ else none

/-- `default POLY = 0x11B` (R5, D2). -/
def Config.defaultPoly : Poly := ⟨0x11B, by decide⟩

/-- `POLY[7:0]`, the bits that the reduction step of R101 adds in. -/
def Poly.low (p : Poly) : Byte := p.val.setWidth 8

/-- FREE VALUE (log entry 3): the byte that an endless RNG port gives as its n-th byte, "a free input under no law"
(D6). It has no body, so no proof can see a value of it. -/
opaque Config.rngByte : Nat → Byte

/-- Order in which a byte-wide platform path may move the bytes of a command word (R52, D24). -/
inductive ByteOrder where
  | mostSignificantFirst
  | leastSignificantFirst
  deriving DecidableEq, Repr, Inhabited

/-- `CMD_BYTE_ORDER` of R5: open, the platform's, and used by no rule (D24, log entry 8). -/
opaque Config.cmdByteOrder : ByteOrder

end Sys2Proof
end

