-- ==== Sys2Proof/Syntax.lean ====
section
/-! DEFINITION. The 21 commands of rule R75, one constructor per row of spec/opcode_table.json. -/

namespace Sys2Proof

/-- The bank operand of `SPLIT` (R76): bit 16 of the word, 0 selects `S1`, 1 selects `S2`. -/
inductive Bank where
  | s1
  | s2
  deriving DecidableEq, Repr

/-- A command with its operands. Every operand is the unsigned value of its field (R74); a value that breaks the
command's precondition is still a legal encoding (R78), so operands are plain bytes. -/
inductive Instr where
  /-- R104 -/
  | gfadd (a b : Byte)
  /-- R105 -/
  | gfmul (a b : Byte)
  /-- R106 -/
  | gfinv (a : Byte)
  /-- R107 -/
  | gfdiv (a b : Byte)
  /-- R121: the number of coefficients and the evaluation point. -/
  | peval (k x : Byte)
  /-- R130: the bank written, the number of shares, the threshold. -/
  | split (bank : Bank) (n k : Byte)
  /-- R141: the number of shares presented. -/
  | lbasis (k : Byte)
  /-- R143: the number of shares presented. -/
  | interp (k : Byte)
  /-- R145: the number of shares presented. -/
  | combine (k : Byte)
  /-- R160: a slot of `S1` and a slot of `S2`. -/
  | sadd2 (p q : Byte)
  /-- R161: the number of pairs. -/
  | saddn (n : Byte)
  /-- R171 -/
  | wrs1 (slot offset value : Byte)
  /-- R172 -/
  | wrs2 (slot offset value : Byte)
  /-- R173 -/
  | wrkey (index value : Byte)
  /-- R174 -/
  | wrcoef (index value : Byte)
  /-- R175 -/
  | wrbas (index value : Byte)
  /-- R176 -/
  | rds1 (slot offset : Byte)
  /-- R177 -/
  | rds2 (slot offset : Byte)
  /-- R178 -/
  | rdkey (index : Byte)
  /-- R179 -/
  | rdcoef (index : Byte)
  /-- R180 -/
  | rdbas (index : Byte)
  deriving DecidableEq, Repr

/-- The mnemonic of R80. -/
def Instr.mnemonic : Instr → String
  | .gfadd _ _ => "GFADD"
  | .gfmul _ _ => "GFMUL"
  | .gfinv _ => "GFINV"
  | .gfdiv _ _ => "GFDIV"
  | .peval _ _ => "PEVAL"
  | .split _ _ _ => "SPLIT"
  | .lbasis _ => "LBASIS"
  | .interp _ => "INTERP"
  | .combine _ => "COMBINE"
  | .sadd2 _ _ => "SADD2"
  | .saddn _ => "SADDN"
  | .wrs1 _ _ _ => "WRS1"
  | .wrs2 _ _ _ => "WRS2"
  | .wrkey _ _ => "WRKEY"
  | .wrcoef _ _ => "WRCOEF"
  | .wrbas _ _ => "WRBAS"
  | .rds1 _ _ => "RDS1"
  | .rds2 _ _ => "RDS2"
  | .rdkey _ => "RDKEY"
  | .rdcoef _ => "RDCOEF"
  | .rdbas _ => "RDBAS"

end Sys2Proof
end

