-- ==== Sys2Proof/Decode.lean ====
section
/-! DEFINITION. The decoder and the encoder of rules R70 to R79, and the match and mask table of R75. -/

namespace Sys2Proof

/-- Why a word is an illegal command (R77). All of them raise `IllegalCommand` when executed. -/
inductive Illegal where
  /-- `OP` is none of the 21 opcodes. -/
  | unknownOpcode
  /-- A must-be-zero field `B` or `C` is not zero. -/
  | mustBeZero
  /-- `SPLIT` with `A >= 2`. -/
  | splitBank
  /-- Fewer than four bytes of a byte-wide transport: no command word yet (the model's own name; R70: a word is 32 bits). -/
  | truncated
  deriving DecidableEq, Repr

/-- `OP = w[31:24]` (R70). -/
def fieldOp (w : Word) : Byte := w.extractLsb' 24 8

/-- `A = w[23:16]` (R70). -/
def fieldA (w : Word) : Byte := w.extractLsb' 16 8

/-- `B = w[15:8]` (R70). -/
def fieldB (w : Word) : Byte := w.extractLsb' 8 8

/-- `C = w[7:0]` (R70). -/
def fieldC (w : Word) : Byte := w.extractLsb' 0 8

/-- A word from its four fields (R70). -/
def wordOf (op a b c : Byte) : Word := op ++ a ++ b ++ c

/-- Format F3 of `SPLIT` (R76): `A` is the bank, bits 23:17 must be zero. -/
def decodeSplit (a b c : Byte) : Except Illegal Instr :=
  if a = 0 then .ok (.split .s1 b c)
  else if a = 1 then .ok (.split .s2 b c)
  else .error .splitBank

/-- Format F2 (R72): `C` must be zero. -/
def formatF2 (c : Byte) (i : Instr) : Except Illegal Instr :=
  if c = 0 then .ok i else .error .mustBeZero

/-- Format F1 (R73): `B` and `C` must be zero. -/
def formatF1 (b c : Byte) (i : Instr) : Except Illegal Instr :=
  if b = 0 ∧ c = 0 then .ok i else .error .mustBeZero

/-- The opcode map of R75 over the four fields. -/
def decodeFields (op a b c : Byte) : Except Illegal Instr :=
  if op = 0x01 then formatF2 c (.gfadd a b)
  else if op = 0x02 then formatF2 c (.gfmul a b)
  else if op = 0x03 then formatF1 b c (.gfinv a)
  else if op = 0x04 then formatF2 c (.gfdiv a b)
  else if op = 0x08 then formatF2 c (.peval a b)
  else if op = 0x10 then decodeSplit a b c
  else if op = 0x18 then formatF1 b c (.lbasis a)
  else if op = 0x19 then formatF1 b c (.interp a)
  else if op = 0x1A then formatF1 b c (.combine a)
  else if op = 0x20 then formatF2 c (.sadd2 a b)
  else if op = 0x21 then formatF1 b c (.saddn a)
  else if op = 0x30 then .ok (.wrs1 a b c)
  else if op = 0x31 then .ok (.wrs2 a b c)
  else if op = 0x32 then formatF2 c (.wrkey a b)
  else if op = 0x33 then formatF2 c (.wrcoef a b)
  else if op = 0x34 then formatF2 c (.wrbas a b)
  else if op = 0x38 then formatF2 c (.rds1 a b)
  else if op = 0x39 then formatF2 c (.rds2 a b)
  else if op = 0x3A then formatF1 b c (.rdkey a)
  else if op = 0x3B then formatF1 b c (.rdcoef a)
  else if op = 0x3C then formatF1 b c (.rdbas a)
  else .error .unknownOpcode

/-- The decoder (R79): total on 32-bit words. -/
def decode (w : Word) : Except Illegal Instr :=
  decodeFields (fieldOp w) (fieldA w) (fieldB w) (fieldC w)

/-- The `A` field of a `SPLIT` word (R76). -/
def bankField : Bank → Byte
  | .s1 => 0
  | .s2 => 1

/-- The encoder (R79): `OP << 24 OR A << 16 OR B << 8 OR C` with unused fields 0. -/
def encode : Instr → Word
  | .gfadd a b => wordOf 0x01 a b 0
  | .gfmul a b => wordOf 0x02 a b 0
  | .gfinv a => wordOf 0x03 a 0 0
  | .gfdiv a b => wordOf 0x04 a b 0
  | .peval k x => wordOf 0x08 k x 0
  | .split bank n k => wordOf 0x10 (bankField bank) n k
  | .lbasis k => wordOf 0x18 k 0 0
  | .interp k => wordOf 0x19 k 0 0
  | .combine k => wordOf 0x1A k 0 0
  | .sadd2 p q => wordOf 0x20 p q 0
  | .saddn n => wordOf 0x21 n 0 0
  | .wrs1 slot offset value => wordOf 0x30 slot offset value
  | .wrs2 slot offset value => wordOf 0x31 slot offset value
  | .wrkey index value => wordOf 0x32 index value 0
  | .wrcoef index value => wordOf 0x33 index value 0
  | .wrbas index value => wordOf 0x34 index value 0
  | .rds1 slot offset => wordOf 0x38 slot offset 0
  | .rds2 slot offset => wordOf 0x39 slot offset 0
  | .rdkey index => wordOf 0x3A index 0 0
  | .rdcoef index => wordOf 0x3B index 0 0
  | .rdbas index => wordOf 0x3C index 0 0

/-- One row of the table of R75: a word `w` is the command exactly when `w AND mask = pattern`. -/
structure Row where
  mnemonic : String
  pattern : Word
  mask : Word
  deriving DecidableEq, Repr

/-- The table of R75. The decoder does not read it; statements hold the decoder against it. -/
def opcodeTable : List Row :=
  [⟨"GFADD", 0x01000000, 0xFF0000FF⟩, ⟨"GFMUL", 0x02000000, 0xFF0000FF⟩,
   ⟨"GFINV", 0x03000000, 0xFF00FFFF⟩, ⟨"GFDIV", 0x04000000, 0xFF0000FF⟩,
   ⟨"PEVAL", 0x08000000, 0xFF0000FF⟩, ⟨"SPLIT", 0x10000000, 0xFFFE0000⟩,
   ⟨"LBASIS", 0x18000000, 0xFF00FFFF⟩, ⟨"INTERP", 0x19000000, 0xFF00FFFF⟩,
   ⟨"COMBINE", 0x1A000000, 0xFF00FFFF⟩, ⟨"SADD2", 0x20000000, 0xFF0000FF⟩,
   ⟨"SADDN", 0x21000000, 0xFF00FFFF⟩] ++
  [⟨"WRS1", 0x30000000, 0xFF000000⟩, ⟨"WRS2", 0x31000000, 0xFF000000⟩,
   ⟨"WRKEY", 0x32000000, 0xFF0000FF⟩, ⟨"WRCOEF", 0x33000000, 0xFF0000FF⟩,
   ⟨"WRBAS", 0x34000000, 0xFF0000FF⟩, ⟨"RDS1", 0x38000000, 0xFF0000FF⟩,
   ⟨"RDS2", 0x39000000, 0xFF0000FF⟩, ⟨"RDKEY", 0x3A000000, 0xFF00FFFF⟩,
   ⟨"RDCOEF", 0x3B000000, 0xFF00FFFF⟩, ⟨"RDBAS", 0x3C000000, 0xFF00FFFF⟩]

/-- A command word from the four bytes of a byte-wide transport (R52, D24; the order is the platform's). -/
def wordOfBytes (order : ByteOrder) (b0 b1 b2 b3 : Byte) : Word :=
  match order with
  | .mostSignificantFirst => wordOf b0 b1 b2 b3
  | .leastSignificantFirst => wordOf b3 b2 b1 b0

/-- Decoding from a byte-wide transport: total on any bytes, with the bytes left over. The step does not use it: the
command port carries whole words (D24). -/
def decodeBytes (order : ByteOrder) : List Byte → Except Illegal (Instr × List Byte)
  | b0 :: b1 :: b2 :: b3 :: rest =>
    match decode (wordOfBytes order b0 b1 b2 b3) with
    | .ok i => .ok (i, rest)
    | .error e => .error e
  | _ => .error .truncated

/-- The 32-bit word whose low `nbits` bits are `w` and whose other bits are 0. -/
def tableWord (nbits w : Nat) : Word := BitVec.ofNat 32 (w % 2 ^ nbits)

/-- The instruction the decoder reads from a word given as the opcode table numbers its bits. No command is longer
than 32 bits (R70). -/
def decodeTableWord (nbits w : Nat) : Option Instr :=
  if nbits ≤ 32 then
    match decode (tableWord nbits w) with
    | .ok i => some i
    | .error _ => none
  else none

end Sys2Proof
end

