-- ==== Sys2Proof/Machine/State.lean ====
section
/-! DEFINITION. The state of the block as plain data, the reasons a step can stop, and the state after reset. -/

namespace Sys2Proof.Machine

/-- The five address spaces of R50. -/
inductive Buf where
  | s1
  | s2
  | key
  | coef
  | basis
  deriving DecidableEq, Repr

/-- The written bytes of one buffer: (index, byte) pairs, indices strictly rising. An index that is not listed is
an unwritten byte and holds no value (R29). -/
abbrev Memory := List Host.Cell

/-- The RNG port of R131 (log entry 3): the bytes already supplied, whether the port goes on after them, and how many
bytes were taken so far. After the supplied bytes an endless port gives `Config.rngByte`; any other port fails. -/
structure RngPort where
  supplied : List Byte
  endless : Bool
  drawn : Nat
  deriving DecidableEq, Repr

/-- The precondition faults, the complete list of R222. Each is SAFE: the hardware's state after the command is
unspecified (R221), and the model keeps no state. -/
inductive Fault where
  /-- Raised by the step when the word matches no row of R75 (R77). Safe. -/
  | illegalCommand
  /-- Raised by `PEVAL`, `LBASIS`, `INTERP`, `COMBINE`, `SADDN` with count 0, and by `SPLIT` unless `1 <= k <= n`. Safe. -/
  | countOutOfRange
  /-- Raised by the ten access commands and by `SADD2` for an index at which no storage exists (R170, R160). Safe. -/
  | indexOutOfRange
  /-- Raised by `GFINV 0` and `GFDIV a, 0` (R106, R107). Safe. -/
  | inverseOfZero
  /-- Raised by `LBASIS` and `COMBINE` for a zero identifier or two equal ones (R140). Safe. -/
  | badIdentifiers
  /-- Raised by every command that reads a buffer, for a byte that nothing has written since reset (R29). Safe. -/
  | unwrittenRead
  /-- Raised by `SPLIT` when the RNG port cannot supply a byte (R131). Safe. -/
  | rngFailure
  deriving DecidableEq, Repr

/-- Refusals. -/
inductive Refusal where
  /-- Raised by `exec` for an instruction that has no meaning yet; no arm raises it. Safe. -/
  | notModelled (mnemonic : String)
  deriving DecidableEq, Repr

/-- The state. `r`, `rWritten`, `status` and the five buffers are the seven elements of R20 (`rWritten` is R's
written or unwritten condition of R29); `ci` is the index R21 lets a model keep; `poly`, `rng` and `cmds` are the model's
own: the configuration constant `POLY`, the RNG port and the words the host issues (log entries 1, 3, 4). -/
structure State where
  poly : Poly
  r : Byte
  rWritten : Bool
  status : Byte
  s1 : Memory
  s2 : Memory
  key : Memory
  coef : Memory
  basis : Memory
  rng : RngPort
  cmds : List Word
  ci : Nat
  deriving DecidableEq, Repr

/-- The state after reset (R32, R250): `STATUS` is 0, `R` and every buffer byte are unwritten, the block is idle, `ci` is
0, the RNG port has given nothing (D10). Named by the log: the byte `r` holds while unwritten (entry 2), the default `POLY` (entry 1),
the endless RNG port (entry 3), no command presented (entry 4). -/
def State.reset : State where
  poly := Config.defaultPoly
  r := 0
  rWritten := false
  status := 0
  s1 := []
  s2 := []
  key := []
  coef := []
  basis := []
  rng := ⟨[], true, 0⟩
  cmds := []
  ci := 0

end Sys2Proof.Machine
end

