-- ==== Sys2Proof/Machine/Flags.lean ====
section
/-! DEFINITION. The one status register and its two values (R23). -/

namespace Sys2Proof.Machine

/-- `STATUS` = 0: the last add succeeded (R23, R223). -/
def statusOk : Byte := 0

/-- `STATUS` = 1: the last add found differing identifiers (R23, R223). -/
def statusIdMismatch : Byte := 1

/-- What an add command writes to `STATUS`: ok if every pair it compared matched (R160, R161). -/
def statusOfMatch (matched : Bool) : Byte := if matched then statusOk else statusIdMismatch

/-- `STATUS <- v`. -/
def State.setStatus (s : State) (v : Byte) : State := { s with status := v }

end Sys2Proof.Machine
end

