-- ==== Sys2Proof/Machine/Operands.lean ====
section
/-! DEFINITION. The operand forms of rule R74 and their ranges: counts, slots, offsets, indices, the divisor; and
the place of a keyshare byte in a bank. -/

namespace Sys2Proof.Machine

/-- `1 <= k <= 255` (R121, R141, R143, R145, R161): only 0 fails. -/
def countOk (k : Byte) : Bool := decide (1 ≤ k.toNat)

/-- `1 <= k and k <= n` (R130). -/
def thresholdOk (n k : Byte) : Bool := decide (1 ≤ k.toNat) && decide (k.toNat ≤ n.toNat)

/-- Slot 0..254 of a share bank (R51, R170). -/
def slotOk (slot : Byte) : Bool := decide (slot.toNat < Config.slots)

/-- Offset 0..32 within a slot (R51, R170). -/
def offsetOk (offset : Byte) : Bool := decide (offset.toNat < Config.shareBytes)

/-- Index 0..31 of `KEY` (R51, R170). -/
def keyIndexOk (index : Byte) : Bool := decide (index.toNat < Config.keyBytes)

/-- Index 0..254 of `COEF` (R51, R170). -/
def coefIndexOk (index : Byte) : Bool := decide (index.toNat < Config.coefLen)

/-- Index 0..254 of `BASIS` (R51, R170). -/
def basisIndexOk (index : Byte) : Bool := decide (index.toNat < Config.basisLen)

/-- The operand of an inversion or the divisor of a division is not 0 (R106, R107). -/
def invertible (a : Byte) : Bool := decide (a ≠ 0)

/-- The number under which the model keeps byte `offset` of slot `slot` of a bank (log entry 5): slots lie one
after the other, each 33 bytes in offset order (R24). -/
def bankAddr (slot offset : Nat) : Nat := Config.shareBytes * slot + offset

/-- The identifier byte of a slot: offset 0 (R24). -/
def idAddr (slot : Nat) : Nat := bankAddr slot 0

/-- The y-value of a slot for key byte position `b`: offset `1 + b` (R24). -/
def yAddr (slot b : Nat) : Nat := bankAddr slot (1 + b)

end Sys2Proof.Machine
end

