-- ==== Sys2Proof/Machine/Ops.lean ====
section
/-! DEFINITION. The named operations over the state: buffer reads and writes, the result register, the RNG port, the
loops of the pseudocode, the response, the command port, and reset. Taking an exception and returning from one do not apply:
there is no trap entry and no trap return (R227, R228); a precondition fault has no state after it (R221). -/

namespace Sys2Proof.Machine

/-! ## One buffer -/

/-- The byte at index `a`, if it is written (R29). -/
def Memory.read : Memory → Nat → Option Byte
  | [], _ => none
  | (b, v) :: m, a => if a = b then some v else Memory.read m a

/-- Store `v` at index `a` and mark it written (R7, R29), indices kept strictly rising. -/
def Memory.write : Memory → Nat → Byte → Memory
  | [], a, v => [(a, v)]
  | (b, w) :: m, a, v =>
    if a < b then (a, v) :: (b, w) :: m
    else if a = b then (a, v) :: m
    else (b, w) :: Memory.write m a v

/-- The canonical form: indices strictly rising. An unlisted index has no value, so no entry can equal it. -/
def Memory.wf : Memory → Bool
  | [] => true
  | [_] => true
  | (a, _) :: (b, v) :: m => decide (a < b) && Memory.wf ((b, v) :: m)

/-- Every listed index is below `n`: storage exists there (R51). -/
def Memory.within (m : Memory) (n : Nat) : Bool := m.all fun c => decide (c.1 < n)

/-! ## The five buffers of a state -/

/-- Bytes in a buffer (R24, R26, R27, R28). -/
def bufSize : Buf → Nat
  | .s1 => Config.shareBytes * Config.slots
  | .s2 => Config.shareBytes * Config.slots
  | .key => Config.keyBytes
  | .coef => Config.coefLen
  | .basis => Config.basisLen

/-- The buffer that `SPLIT` writes (R130). -/
def bankBuf : Bank → Buf
  | .s1 => .s1
  | .s2 => .s2

def State.mem (s : State) : Buf → Memory
  | .s1 => s.s1
  | .s2 => s.s2
  | .key => s.key
  | .coef => s.coef
  | .basis => s.basis

def State.setMem (s : State) (b : Buf) (m : Memory) : State :=
  match b with
  | .s1 => { s with s1 := m }
  | .s2 => { s with s2 := m }
  | .key => { s with key := m }
  | .coef => { s with coef := m }
  | .basis => { s with basis := m }

/-- The byte of buffer `b` at index `a`, if it is written. -/
def State.read (s : State) (b : Buf) (a : Nat) : Option Byte := (s.mem b).read a

/-- `BufWrite` of R7. -/
def State.write (s : State) (b : Buf) (a : Nat) (v : Byte) : State :=
  s.setMem b ((s.mem b).write a v)

/-- `BufRead` of R7: an unwritten byte raises `UnwrittenRead`. -/
def State.bufRead (s : State) (b : Buf) (a : Nat) : Except Fault Byte :=
  match s.read b a with
  | some v => .ok v
  | none => .error .unwrittenRead

/-- `BufRead` at each of a list of indices, in order. -/
def State.readAll (s : State) (b : Buf) : List Nat → Except Fault (List Byte)
  | [] => .ok []
  | a :: as =>
    match s.bufRead b a with
    | .error f => .error f
    | .ok v =>
      match s.readAll b as with
      | .error f => .error f
      | .ok vs => .ok (v :: vs)

/-- `BufWrite` of a list of bytes at indices `a`, `a + 1`, ... -/
def State.writeFrom (s : State) (b : Buf) (a : Nat) : List Byte → State
  | [] => s
  | v :: vs => (s.write b a v).writeFrom b (a + 1) vs

/-! ## The result register -/

/-- `R <- v`, which marks `R` written (R7, R22). -/
def State.writeR (s : State) (v : Byte) : State := { s with r := v, rWritten := true }

/-- The response the host reads while the block is idle: the pair (`R`, `STATUS`) (R22, R23, D11). An unwritten `R` is
unspecified (R29), so it has no value here. -/
def State.response (s : State) : Option Byte × Byte :=
  (if s.rWritten then some s.r else none, s.status)

/-! ## The RNG port -/

/-- `RngNext()` of R131: the next byte and the port after it, or nothing when the port cannot supply a byte. -/
def RngPort.next (g : RngPort) : Option (Byte × RngPort) :=
  match g.supplied with
  | v :: vs => some (v, { g with supplied := vs, drawn := g.drawn + 1 })
  | [] => if g.endless then some (Config.rngByte g.drawn, { g with drawn := g.drawn + 1 }) else none

/-- `n` calls of `RngNext()`, in order; a call that fails raises `RngFailure`. -/
def RngPort.draw : Nat → RngPort → Except Fault (List Byte × RngPort)
  | 0, g => .ok ([], g)
  | n + 1, g =>
    match g.next with
    | none => .error .rngFailure
    | some (v, g') =>
      match RngPort.draw n g' with
      | .error f => .error f
      | .ok (vs, g'') => .ok (v :: vs, g'')

/-- The port can supply `n` more bytes (R253). -/
def RngPort.canSupply (g : RngPort) (n : Nat) : Bool := g.endless || decide (n ≤ g.supplied.length)

/-- The port after `n` bytes were taken from it, as far as it could supply them. -/
def RngPort.skip : Nat → RngPort → RngPort
  | 0, g => g
  | n + 1, g =>
    match g.next with
    | none => g
    | some (_, g') => RngPort.skip n g'

def State.setRng (s : State) (g : RngPort) : State := { s with rng := g }

/-! ## The pseudocode's loops and endings -/

/-- `for i in l: f i`, ended by the first fault. -/
def forEach (f : Nat → State → Except Fault State) : List Nat → State → Except Fault State
  | [], s => .ok s
  | i :: is, s =>
    match f i s with
    | .error e => .error e
    | .ok s' => forEach f is s'

/-- `require c else raise f` (R7). -/
def require (c : Bool) (f : Fault) (rest : Host.Outcome State Fault Refusal) : Host.Outcome State Fault Refusal :=
  match c with
  | true => rest
  | false => .fault f

/-- The command ends: completed, or as a precondition fault with no state (R221). -/
def finish : Except Fault State → Host.Outcome State Fault Refusal
  | .ok s => .next s
  | .error f => .fault f

/-! ## The command port -/

/-- The word the host presents next, if it presents one (R21). -/
def State.fetch (s : State) : Option Word := s.cmds[s.ci]?

/-- "every completed command sets `ci <- ci + 1`" (R21). -/
def State.advance (s : State) : State := { s with ci := s.ci + 1 }

/-- Completion advances the index; "a faulting command does not advance `ci`" (R21). -/
def complete : Host.Outcome State Fault Refusal → Host.Outcome State Fault Refusal
  | .next s => .next s.advance
  | .fault f => .fault f
  | .refused r => .refused r

/-- No command is presented: the block stays idle and nothing changes, since only commands and reset change the state
(R250, log entry 4). -/
def idle (s : State) : Host.Outcome State Fault Refusal := .next s

/-- Put `w` where the host's next command stands, every other word of the list kept. -/
def State.presentNext (s : State) (w : Word) : State :=
  { s with cmds := s.cmds.take s.ci ++ List.replicate (s.ci - s.cmds.length) 0 ++ w :: s.cmds.drop (s.ci + 1) }

/-! ## Reset as an event -/

/-- Reset (R250, R251), `taken` being the number of RNG bytes that a command in progress had consumed (0 when the block is
idle): the command is abandoned, the state is that after reset, the constant `POLY` stays, and consumed bytes stay
consumed. The host issues a new list. -/
def State.applyReset (s : State) (taken : Nat) : State :=
  { State.reset with poly := s.poly, rng := s.rng.skip taken }

end Sys2Proof.Machine
end

