-- ==== Sys2Proof/Machine/Access.lean ====
section
/-! DEFINITION. The ten buffer access commands (R170 to R180): one byte each, absolute indices. -/

namespace Sys2Proof.Machine

/-- Store one byte where storage exists, else `IndexOutOfRange` (R170). -/
def storeByte (inRange : Bool) (b : Buf) (a : Nat) (v : Byte) (s : State) : Host.Outcome State Fault Refusal :=
  require inRange .indexOutOfRange (.next (s.write b a v))

/-- Load one byte into `R` where storage exists, else `IndexOutOfRange` (R170). -/
def loadByte (inRange : Bool) (b : Buf) (a : Nat) (s : State) : Host.Outcome State Fault Refusal :=
  require inRange .indexOutOfRange <|
    match s.bufRead b a with
    | .error f => .fault f
    | .ok v => .next (s.writeR v)

/-- R171. -/
def execWrs1 (slot offset value : Byte) (s : State) : Host.Outcome State Fault Refusal :=
  storeByte (slotOk slot && offsetOk offset) .s1 (bankAddr slot.toNat offset.toNat) value s

/-- R172. -/
def execWrs2 (slot offset value : Byte) (s : State) : Host.Outcome State Fault Refusal :=
  storeByte (slotOk slot && offsetOk offset) .s2 (bankAddr slot.toNat offset.toNat) value s

/-- R173. -/
def execWrkey (index value : Byte) (s : State) : Host.Outcome State Fault Refusal :=
  storeByte (keyIndexOk index) .key index.toNat value s

/-- R174. -/
def execWrcoef (index value : Byte) (s : State) : Host.Outcome State Fault Refusal :=
  storeByte (coefIndexOk index) .coef index.toNat value s

/-- R175. -/
def execWrbas (index value : Byte) (s : State) : Host.Outcome State Fault Refusal :=
  storeByte (basisIndexOk index) .basis index.toNat value s

/-- R176. -/
def execRds1 (slot offset : Byte) (s : State) : Host.Outcome State Fault Refusal :=
  loadByte (slotOk slot && offsetOk offset) .s1 (bankAddr slot.toNat offset.toNat) s

/-- R177. -/
def execRds2 (slot offset : Byte) (s : State) : Host.Outcome State Fault Refusal :=
  loadByte (slotOk slot && offsetOk offset) .s2 (bankAddr slot.toNat offset.toNat) s

/-- R178. -/
def execRdkey (index : Byte) (s : State) : Host.Outcome State Fault Refusal :=
  loadByte (keyIndexOk index) .key index.toNat s

/-- R179. -/
def execRdcoef (index : Byte) (s : State) : Host.Outcome State Fault Refusal :=
  loadByte (coefIndexOk index) .coef index.toNat s

/-- R180. -/
def execRdbas (index : Byte) (s : State) : Host.Outcome State Fault Refusal :=
  loadByte (basisIndexOk index) .basis index.toNat s

end Sys2Proof.Machine
end

