-- ==== Sys2Proof/Machine/Field.lean ====
section
/-! DEFINITION. The Field Engine: the functions of R100 to R103 and the commands `GFADD`, `GFMUL`, `GFINV`, `GFDIV`. -/

namespace Sys2Proof.Machine

/-- `gf_add` (R100). -/
def gfAdd (a b : Byte) : Byte := a ^^^ b

/-- `mask8` of R101. -/
def mask8 (b : Bool) : Byte := if b then 0xFF else 0x00

/-- `aa <- (aa << 1)[7:0] XOR (POLY[7:0] AND mask8(hi))` with `hi = aa[7]` (R101). -/
def gfDouble (p : Poly) (aa : Byte) : Byte := (aa <<< 1) ^^^ (p.low &&& mask8 (aa.getLsbD 7))

/-- Step `i` of the loop of R101 on the pair `(p, aa)`. -/
def gfMulStep (p : Poly) (b : Byte) (st : Byte × Byte) (i : Nat) : Byte × Byte :=
  (st.1 ^^^ (st.2 &&& mask8 (b.getLsbD i)), gfDouble p st.2)

/-- `gf_mul` (R101): eight steps whatever the operands are. -/
def gfMul (p : Poly) (a b : Byte) : Byte :=
  ((List.range 8).foldl (gfMulStep p b) (0, a)).1

/-- The chain of R102, `a^254`. Its value at 0 has no standing; only `gfInv` uses it, for `a ≠ 0`. -/
def gfPow254 (p : Poly) (a : Byte) : Byte :=
  let a2 := gfMul p a a
  let a4 := gfMul p a2 a2
  let a8 := gfMul p a4 a4
  let a16 := gfMul p a8 a8
  let a32 := gfMul p a16 a16
  let a64 := gfMul p a32 a32
  let a128 := gfMul p a64 a64
  gfMul p a128 (gfMul p a64 (gfMul p a32 (gfMul p a16 (gfMul p a8 (gfMul p a4 a2)))))

/-- `gf_inv` (R102): not defined at 0. -/
def gfInv (p : Poly) (a : Byte) : Option Byte :=
  if a = 0 then none else some (gfPow254 p a)

/-- `gf_div(a, b) = gf_mul(a, gf_inv(b))` (R103): not defined for divisor 0. -/
def gfDiv (p : Poly) (a b : Byte) : Option Byte :=
  match gfInv p b with
  | some c => some (gfMul p a c)
  | none => none

/-- R104. -/
def execGfadd (a b : Byte) (s : State) : Host.Outcome State Fault Refusal :=
  .next (s.writeR (gfAdd a b))

/-- R105. -/
def execGfmul (a b : Byte) (s : State) : Host.Outcome State Fault Refusal :=
  .next (s.writeR (gfMul s.poly a b))

/-- R106. -/
def execGfinv (a : Byte) (s : State) : Host.Outcome State Fault Refusal :=
  match gfInv s.poly a with
  | some c => .next (s.writeR c)
  | none => .fault .inverseOfZero

/-- R107. -/
def execGfdiv (a b : Byte) (s : State) : Host.Outcome State Fault Refusal :=
  match gfDiv s.poly a b with
  | some c => .next (s.writeR c)
  | none => .fault .inverseOfZero

end Sys2Proof.Machine
end

