-- ==== Sys2Proof/Machine/Combine.lean ====
section
/-! DEFINITION. The Share Combiner: the basis synthesizer (R142), the interpolator (R144) and the commands `LBASIS`,
`INTERP`, `COMBINE`. It does not use the Polynomial Evaluator (R149). -/

namespace Sys2Proof.Machine

/-- The inner loop of R142 for share `i` with identifier `xi`: multiply `l` by `x[j] / (x[j] + xi)` for every listed
`(x[j], j)` with `j ≠ i`. Nothing when a divisor is 0. -/
def basisProduct (p : Poly) (i : Nat) (xi l : Byte) : List (Byte × Nat) → Option Byte
  | [] => some l
  | (xj, j) :: rest =>
    if j = i then basisProduct p i xi l rest
    else
      match gfDiv p xj (gfAdd xj xi) with
      | some q => basisProduct p i xi (gfMul p l q) rest
      | none => none

/-- The outer loop of R142 over the shares in `todo`, all shares being `xs`. -/
def basisList (p : Poly) (xs : List (Byte × Nat)) : List (Byte × Nat) → Option (List Byte)
  | [] => some []
  | (xi, i) :: todo =>
    match basisProduct p i xi 1 xs with
    | none => none
    | some l =>
      match basisList p xs todo with
      | none => none
      | some ls => some (l :: ls)

/-- `basis0` (R142): the Lagrange basis values at 0, defined when no divisor is 0. -/
def basis0 (p : Poly) (xs : List Byte) : Option (List Byte) := basisList p xs.zipIdx xs.zipIdx

/-- `interp0` (R144): the sum of `y[i] * L[i]`. -/
def interp0 (p : Poly) (ys ls : List Byte) : Byte :=
  (ys.zip ls).foldl (fun acc yl => gfAdd acc (gfMul p yl.1 yl.2)) 0

/-- Pairwise distinct. -/
def distinct : List Byte → Bool
  | [] => true
  | x :: xs => !xs.contains x && distinct xs

/-- The precondition of R140: every identifier non-zero, and pairwise distinct. -/
def idsOk (xs : List Byte) : Bool := xs.all (fun x => decide (x ≠ 0)) && distinct xs

/-- The identifiers of slots 0..k-1 of `S1`, checked (R140), and their basis values (R141). -/
def synthesize (k : Nat) (s : State) : Except Fault (List Byte) :=
  match s.readAll .s1 ((List.range k).map idAddr) with
  | .error f => .error f
  | .ok xs =>
    match idsOk xs, basis0 s.poly xs with
    | true, some ls => .ok ls
    | _, _ => .error .badIdentifiers

/-- Lane `b` of R143 and R145: `KEY[b] <- interp0([S1[0][1+b], ..., S1[k-1][1+b]], L)`. -/
def interpLane (k : Nat) (ls : List Byte) (b : Nat) (s : State) : Except Fault State :=
  match s.readAll .s1 ((List.range k).map fun slot => yAddr slot b) with
  | .error f => .error f
  | .ok ys => .ok (s.write .key b (interp0 s.poly ys ls))

/-- The 32 lanes of R143 and R145. -/
def interpolate (k : Nat) (ls : List Byte) (s : State) : Except Fault State :=
  forEach (interpLane k ls) (List.range Config.keyBytes) s

/-- R141. -/
def execLbasis (k : Byte) (s : State) : Host.Outcome State Fault Refusal :=
  require (countOk k) .countOutOfRange <|
    match synthesize k.toNat s with
    | .error f => .fault f
    | .ok ls => .next (s.writeFrom .basis 0 ls)

/-- R143. -/
def execInterp (k : Byte) (s : State) : Host.Outcome State Fault Refusal :=
  require (countOk k) .countOutOfRange <|
    match s.readAll .basis (List.range k.toNat) with
    | .error f => .fault f
    | .ok ls => finish (interpolate k.toNat ls s)

/-- R145. -/
def execCombine (k : Byte) (s : State) : Host.Outcome State Fault Refusal :=
  require (countOk k) .countOutOfRange <|
    match synthesize k.toNat s with
    | .error f => .fault f
    | .ok ls => finish (interpolate k.toNat ls (s.writeFrom .basis 0 ls))

end Sys2Proof.Machine
end

