-- ==== Sys2Proof/Machine/Poly.lean ====
section
/-! DEFINITION. The Polynomial Evaluator: Horner's method (R120) and the command `PEVAL`. -/

namespace Sys2Proof.Machine

/-- `horner` (R120) on `c[0], ..., c[k-1]`: from the last coefficient down, multiply by `x` and add the next. R120 asks for
`k >= 1`; no command calls it on the empty list. -/
def horner (p : Poly) (x : Byte) : List Byte → Byte
  | [] => 0
  | [c] => c
  | c :: d :: ds => gfAdd (gfMul p (horner p x (d :: ds)) x) c

/-- R121. -/
def execPeval (k x : Byte) (s : State) : Host.Outcome State Fault Refusal :=
  require (countOk k) .countOutOfRange <|
    match s.readAll .coef (List.range k.toNat) with
    | .error f => .fault f
    | .ok cs => .next (s.writeR (horner s.poly x cs))

end Sys2Proof.Machine
end

