-- ==== Sys2Proof/Machine/Generate.lean ====
section
/-! DEFINITION. The Share Generator: the command `SPLIT` (R130), its draws in the order of R133. -/

namespace Sys2Proof.Machine

/-- `D[s][1+b] <- horner(c, s+1)`: the y-value of slot `slot`, whose x-coordinate is `slot + 1` (R130). -/
def splitShare (d : Buf) (c : List Byte) (b slot : Nat) (s : State) : Except Fault State :=
  .ok (s.write d (yAddr slot b) (horner s.poly (BitVec.ofNat 8 (slot + 1)) c))

/-- Byte position `b` of R130: read `KEY[b]`, draw `k - 1` coefficients, evaluate at the `n` x-coordinates. -/
def splitLane (d : Buf) (n k b : Nat) (s : State) : Except Fault State :=
  match s.bufRead .key b with
  | .error f => .error f
  | .ok c0 =>
    match RngPort.draw (k - 1) s.rng with
    | .error f => .error f
    | .ok (cs, g) => forEach (splitShare d (c0 :: cs) b) (List.range n) (s.setRng g)

/-- `D[s][0] <- s+1` (R130). -/
def splitId (d : Buf) (slot : Nat) (s : State) : Except Fault State :=
  .ok (s.write d (idAddr slot) (BitVec.ofNat 8 (slot + 1)))

/-- The loops of R130 over the 32 byte positions and then over the identifiers. -/
def splitInto (d : Buf) (n k : Nat) (s : State) : Except Fault State :=
  match forEach (splitLane d n k) (List.range Config.keyBytes) s with
  | .error f => .error f
  | .ok s' => forEach (splitId d) (List.range n) s'

/-- R130. -/
def execSplit (bank : Bank) (n k : Byte) (s : State) : Host.Outcome State Fault Refusal :=
  require (thresholdOk n k) .countOutOfRange <|
    finish (splitInto (bankBuf bank) n.toNat k.toNat s)

end Sys2Proof.Machine
end

