-- ==== Sys2Proof/Machine/Hadd.lean ====
section
/-! DEFINITION. The Homomorphic Adder: one pair (R160), an array of pairs fail-fast (R161), the commands `SADD2` and `SADDN`. -/

namespace Sys2Proof.Machine

/-- `S1[p][o] <- gf_add(S1[p][o], S2[q][o])` (R160). -/
def addByte (p q o : Nat) (s : State) : Except Fault State :=
  match s.bufRead .s1 (bankAddr p o) with
  | .error f => .error f
  | .ok v =>
    match s.bufRead .s2 (bankAddr q o) with
    | .error f => .error f
    | .ok w => .ok (s.write .s1 (bankAddr p o) (gfAdd v w))

/-- The 32 y-byte offsets 1..32 (R160). -/
def yOffsets : List Nat := (List.range Config.keyBytes).map (1 + ·)

/-- One pair (R160): compare the identifiers of `S1[p]` and `S2[q]`; on a match add the 32 y-bytes in place. The answer
says whether they matched. -/
def addPair (p q : Nat) (s : State) : Except Fault (Bool × State) :=
  match s.bufRead .s1 (idAddr p) with
  | .error f => .error f
  | .ok v =>
    match s.bufRead .s2 (idAddr q) with
    | .error f => .error f
    | .ok w =>
      if v = w then
        match forEach (addByte p q) yOffsets s with
        | .error f => .error f
        | .ok s' => .ok (true, s')
      else .ok (false, s)

/-- The pairs of R161 in the given order: stop at the first mismatch, that pair and all later ones untouched. -/
def addPairs : List Nat → State → Except Fault (Bool × State)
  | [], s => .ok (true, s)
  | slot :: rest, s =>
    match addPair slot slot s with
    | .error f => .error f
    | .ok (true, s') => addPairs rest s'
    | .ok (false, s') => .ok (false, s')

/-- The end of an add command: `STATUS` is written on every execution (R160, R161). -/
def finishAdd : Except Fault (Bool × State) → Host.Outcome State Fault Refusal
  | .error f => .fault f
  | .ok (matched, s) => .next (s.setStatus (statusOfMatch matched))

/-- R160. -/
def execSadd2 (p q : Byte) (s : State) : Host.Outcome State Fault Refusal :=
  require (slotOk p && slotOk q) .indexOutOfRange <|
    finishAdd (addPair p.toNat q.toNat s)

/-- R161. -/
def execSaddn (n : Byte) (s : State) : Host.Outcome State Fault Refusal :=
  require (countOk n) .countOutOfRange <|
    finishAdd (addPairs (List.range n.toNat) s)

end Sys2Proof.Machine
end

