-- ==== Sys2Proof/Machine/Dispatch.lean ====
section
/-! DEFINITION. One arm per command: each calls its meaning. -/

namespace Sys2Proof.Machine

def exec (i : Instr) (s : State) : Host.Outcome State Fault Refusal :=
  match i with
  | .gfadd a b => Sys2Proof.Machine.execGfadd a b s
  | .gfmul a b => Sys2Proof.Machine.execGfmul a b s
  | .gfinv a => Sys2Proof.Machine.execGfinv a s
  | .gfdiv a b => Sys2Proof.Machine.execGfdiv a b s
  | .peval k x => Sys2Proof.Machine.execPeval k x s
  | .split bank n k => Sys2Proof.Machine.execSplit bank n k s
  | .lbasis k => Sys2Proof.Machine.execLbasis k s
  | .interp k => Sys2Proof.Machine.execInterp k s
  | .combine k => Sys2Proof.Machine.execCombine k s
  | .sadd2 p q => Sys2Proof.Machine.execSadd2 p q s
  | .saddn n => Sys2Proof.Machine.execSaddn n s
  | .wrs1 slot offset value => Sys2Proof.Machine.execWrs1 slot offset value s
  | .wrs2 slot offset value => Sys2Proof.Machine.execWrs2 slot offset value s
  | .wrkey index value => Sys2Proof.Machine.execWrkey index value s
  | .wrcoef index value => Sys2Proof.Machine.execWrcoef index value s
  | .wrbas index value => Sys2Proof.Machine.execWrbas index value s
  | .rds1 slot offset => Sys2Proof.Machine.execRds1 slot offset s
  | .rds2 slot offset => Sys2Proof.Machine.execRds2 slot offset s
  | .rdkey index => Sys2Proof.Machine.execRdkey index s
  | .rdcoef index => Sys2Proof.Machine.execRdcoef index s
  | .rdbas index => Sys2Proof.Machine.execRdbas index s

end Sys2Proof.Machine
end

