-- ==== Sys2Proof/Machine/Step.lean ====
section
/-! DEFINITION. One step: the next command the host presents is decoded and executed (R10, R21). -/

namespace Sys2Proof.Machine

/-- The step. With no command presented the block is idle; an illegal word raises `IllegalCommand` before any state is
touched (R77, R222); a command runs whole, and its completion advances the index (R21). -/
def step (s : State) : Host.Outcome State Fault Refusal :=
  match s.fetch with
  | none => idle s
  | some w =>
    match decode w with
    | .error _ => .fault .illegalCommand
    | .ok i => complete (exec i s)

/-- `s` with the given word as the command the host presents next (log entry 4). -/
def State.withFetchWord (s : State) (nbits w : Nat) : State := s.presentNext (tableWord nbits w)

end Sys2Proof.Machine
end

