-- ==== Sys2Proof/WellFormed.lean ====
section
/-! DEFINITION. Well-formed commands: the operands meet the preconditions that depend on the command word alone
(the `require` lines of the pseudocode, R226). An ill-formed command still decodes (R78) and faults in every state. -/

namespace Sys2Proof

open Machine

/-- The operands meet the ranges that the command's rule requires of them. -/
def Instr.wf : Instr → Bool
  | .gfadd _ _ => true
  | .gfmul _ _ => true
  | .gfinv a => invertible a
  | .gfdiv _ b => invertible b
  | .peval k _ => countOk k
  | .split _ n k => thresholdOk n k
  | .lbasis k => countOk k
  | .interp k => countOk k
  | .combine k => countOk k
  | .sadd2 p q => slotOk p && slotOk q
  | .saddn n => countOk n
  | .wrs1 slot offset _ => slotOk slot && offsetOk offset
  | .wrs2 slot offset _ => slotOk slot && offsetOk offset
  | .wrkey index _ => keyIndexOk index
  | .wrcoef index _ => coefIndexOk index
  | .wrbas index _ => basisIndexOk index
  | .rds1 slot offset => slotOk slot && offsetOk offset
  | .rds2 slot offset => slotOk slot && offsetOk offset
  | .rdkey index => keyIndexOk index
  | .rdcoef index => coefIndexOk index
  | .rdbas index => basisIndexOk index

end Sys2Proof
end

