-- ==== Sys2Proof/Safety.lean ====
section
/-! DEFINITION. What counts as a safe run: a step that does not fault (R221), exactly when a command completes (R253),
and the invariant of the states that runs reach. -/

namespace Sys2Proof

open Machine

/-- A claim about a list of commands carries the premise that no command in it faults (R221). -/
def Safe (s : State) : Prop := ∃ t, step s = .next t

/-- The first `n` steps from `s` end in `t`, none of them faulting (R221). -/
def RunsTo (n : Nat) (s t : State) : Prop := core.run n s = .next t

/-- Every one of the listed bytes of a buffer is written (R29). -/
def written (s : State) (b : Buf) (as : List Nat) : Bool := as.all fun a => (s.read b a).isSome

/-- Slots 0..k-1, at one place of each slot. -/
def slotsAt (k : Nat) (place : Nat → Nat) : List Nat := (List.range k).map place

/-- The 32 y-bytes of a slot. -/
def yAddrs (slot : Nat) : List Nat := (List.range Config.keyBytes).map (yAddr slot)

/-- What must be written before the pair `S1[p]`, `S2[q]` is added: both identifiers, and on a match all y-bytes of
both shares (R160, R253). -/
def pairReady (s : State) (p q : Nat) : Bool :=
  written s .s1 [idAddr p] && written s .s2 [idAddr q] &&
    (decide (s.read .s1 (idAddr p) ≠ s.read .s2 (idAddr q)) ||
      (written s .s1 (yAddrs p) && written s .s2 (yAddrs q)))

/-- What must be written before `SADDN`: the pairs up to the first mismatch (R161, R253). -/
def pairsReady (s : State) : List Nat → Bool
  | [] => true
  | slot :: rest =>
    pairReady s slot slot &&
      (decide (s.read .s1 (idAddr slot) ≠ s.read .s2 (idAddr slot)) || pairsReady s rest)

/-- The identifiers of slots 0..k-1 of `S1` are written, non-zero and pairwise distinct (R140, R253). -/
def idsReady (s : State) (k : Nat) : Bool :=
  match s.readAll .s1 (slotsAt k idAddr) with
  | .ok xs => idsOk xs
  | .error _ => false

/-- The y-bytes of slots 0..k-1 of `S1` are written (R253). -/
def sharesReady (s : State) (k : Nat) : Bool :=
  (List.range k).all fun slot => written s .s1 (yAddrs slot)

/-- What a command needs to complete: operands in range (R226) and what the host must have written or the RNG must be
able to give before it (R253). -/
def Ready (i : Instr) (s : State) : Bool :=
  i.wf &&
    match i with
    | .gfadd _ _ => true
    | .gfmul _ _ => true
    | .gfinv _ => true
    | .gfdiv _ _ => true
    | .peval k _ => written s .coef (List.range k.toNat)
    | .split _ _ k => written s .key (List.range Config.keyBytes) && s.rng.canSupply (Config.keyBytes * (k.toNat - 1))
    | .lbasis k => idsReady s k.toNat
    | .interp k => sharesReady s k.toNat && written s .basis (List.range k.toNat)
    | .combine k => idsReady s k.toNat && sharesReady s k.toNat
    | .sadd2 p q => pairReady s p.toNat q.toNat
    | .saddn n => pairsReady s (List.range n.toNat)
    | .wrs1 _ _ _ => true
    | .wrs2 _ _ _ => true
    | .wrkey _ _ => true
    | .wrcoef _ _ => true
    | .wrbas _ _ => true
    | .rds1 slot offset => written s .s1 [bankAddr slot.toNat offset.toNat]
    | .rds2 slot offset => written s .s2 [bankAddr slot.toNat offset.toNat]
    | .rdkey index => written s .key [index.toNat]
    | .rdcoef index => written s .coef [index.toNat]
    | .rdbas index => written s .basis [index.toNat]

/-- A buffer is in canonical form and lists only bytes for which storage exists (R51). -/
def bufOk (s : State) (b : Buf) : Bool := (s.mem b).wf && (s.mem b).within (bufSize b)

/-- The invariant: `STATUS` is 0 or 1 (R23), every buffer is well formed and within its size (R51), and the index has
not passed the end of the host's list (R21). `POLY` is legal by its type (R9). -/
def Machine.State.Inv (s : State) : Bool :=
  (decide (s.status = statusOk) || decide (s.status = statusIdMismatch)) &&
    bufOk s .s1 && bufOk s .s2 && bufOk s .key && bufOk s .coef && bufOk s .basis &&
    decide (s.ci ≤ s.cmds.length)

end Sys2Proof
end

