-- ==== Sys2Proof/Certificates/Slice0/Obligations.lean ====
section
/-! DEFINITION. The statements for the provers, and the notions they are stated with (namespace Sys2Proof.Claims). Each
docstring names the rule of spec/ that the statement formalises. -/

namespace Sys2Proof.Claims

open Machine

/-! ## Encoding -/

/-- The `A`, `B`, `C` columns of the table of R75. -/
def operands : Instr → Byte × Byte × Byte
  | .gfadd a b => (a, b, 0)
  | .gfmul a b => (a, b, 0)
  | .gfinv a => (a, 0, 0)
  | .gfdiv a b => (a, b, 0)
  | .peval k x => (k, x, 0)
  | .split .s1 n k => (0, n, k)
  | .split .s2 n k => (1, n, k)
  | .lbasis k => (k, 0, 0)
  | .interp k => (k, 0, 0)
  | .combine k => (k, 0, 0)
  | .sadd2 p q => (p, q, 0)
  | .saddn n => (n, 0, 0)
  | .wrs1 slot offset value => (slot, offset, value)
  | .wrs2 slot offset value => (slot, offset, value)
  | .wrkey index value => (index, value, 0)
  | .wrcoef index value => (index, value, 0)
  | .wrbas index value => (index, value, 0)
  | .rds1 slot offset => (slot, offset, 0)
  | .rds2 slot offset => (slot, offset, 0)
  | .rdkey index => (index, 0, 0)
  | .rdcoef index => (index, 0, 0)
  | .rdbas index => (index, 0, 0)

/-- The opcodes of format F1 (R73, R75). -/
def opcodesF1 : List Byte := [0x03, 0x18, 0x19, 0x1A, 0x21, 0x3A, 0x3B, 0x3C]

/-- The opcodes of format F2 (R72, R75). -/
def opcodesF2 : List Byte := [0x01, 0x02, 0x04, 0x08, 0x20, 0x32, 0x33, 0x34, 0x38, 0x39]

/-- The opcodes of format F3 (R71, R75). -/
def opcodesF3 : List Byte := [0x10, 0x30, 0x31]

/-! ## Who writes and who reads what (the table of R20) -/

/-- The commands that write `R`. -/
def writesR : Instr → Bool
  | .gfadd _ _ | .gfmul _ _ | .gfinv _ | .gfdiv _ _ | .peval _ _ => true
  | .rds1 _ _ | .rds2 _ _ | .rdkey _ | .rdcoef _ | .rdbas _ => true
  | _ => false

/-- The commands that write `STATUS`. -/
def isAdd : Instr → Bool
  | .sadd2 _ _ | .saddn _ => true
  | _ => false

/-- The command that draws from the RNG port (R131). -/
def isSplit : Instr → Bool
  | .split _ _ _ => true
  | _ => false

/-- The "written by" column. -/
def writesBuf : Buf → Instr → Bool
  | .s1, .wrs1 _ _ _ | .s1, .split .s1 _ _ | .s1, .sadd2 _ _ | .s1, .saddn _ => true
  | .s2, .wrs2 _ _ _ | .s2, .split .s2 _ _ => true
  | .key, .wrkey _ _ | .key, .interp _ | .key, .combine _ => true
  | .coef, .wrcoef _ _ => true
  | .basis, .wrbas _ _ | .basis, .lbasis _ | .basis, .combine _ => true
  | _, _ => false

/-- The "read by" column. -/
def readsBuf : Buf → Instr → Bool
  | .s1, .rds1 _ _ | .s1, .lbasis _ | .s1, .interp _ | .s1, .combine _ | .s1, .sadd2 _ _ | .s1, .saddn _ => true
  | .s2, .rds2 _ _ | .s2, .sadd2 _ _ | .s2, .saddn _ => true
  | .key, .rdkey _ | .key, .split _ _ _ => true
  | .coef, .rdcoef _ | .coef, .peval _ _ => true
  | .basis, .rdbas _ | .basis, .interp _ => true
  | _, _ => false

/-- The fault that the operands alone decide (R222, R226), in the words of R222 and R78. -/
def operandFault : Instr → Option Fault
  | .gfinv a => if a = 0 then some .inverseOfZero else none
  | .gfdiv _ b => if b = 0 then some .inverseOfZero else none
  | .peval k _ => if k = 0 then some .countOutOfRange else none
  | .split _ n k => if n = 0 ∨ k = 0 ∨ n.toNat < k.toNat then some .countOutOfRange else none
  | .lbasis k => if k = 0 then some .countOutOfRange else none
  | .interp k => if k = 0 then some .countOutOfRange else none
  | .combine k => if k = 0 then some .countOutOfRange else none
  | .saddn n => if n = 0 then some .countOutOfRange else none
  | .sadd2 p q => if p = 255 ∨ q = 255 then some .indexOutOfRange else none
  | .wrs1 slot offset _ => if slot = 255 ∨ 33 ≤ offset.toNat then some .indexOutOfRange else none
  | .wrs2 slot offset _ => if slot = 255 ∨ 33 ≤ offset.toNat then some .indexOutOfRange else none
  | .rds1 slot offset => if slot = 255 ∨ 33 ≤ offset.toNat then some .indexOutOfRange else none
  | .rds2 slot offset => if slot = 255 ∨ 33 ≤ offset.toNat then some .indexOutOfRange else none
  | .wrkey index _ => if 32 ≤ index.toNat then some .indexOutOfRange else none
  | .rdkey index => if 32 ≤ index.toNat then some .indexOutOfRange else none
  | .wrcoef index _ => if index = 255 then some .indexOutOfRange else none
  | .rdcoef index => if index = 255 then some .indexOutOfRange else none
  | .wrbas index _ => if index = 255 then some .indexOutOfRange else none
  | .rdbas index => if index = 255 then some .indexOutOfRange else none
  | .gfadd _ _ => none
  | .gfmul _ _ => none

/-- The reasons a command may fault with: the "raised by" column of R222. -/
def mayRaise : Instr → List Fault
  | .gfadd _ _ => []
  | .gfmul _ _ => []
  | .gfinv _ => [.inverseOfZero]
  | .gfdiv _ _ => [.inverseOfZero]
  | .peval _ _ => [.countOutOfRange, .unwrittenRead]
  | .split _ _ _ => [.countOutOfRange, .unwrittenRead, .rngFailure]
  | .lbasis _ => [.countOutOfRange, .unwrittenRead, .badIdentifiers]
  | .interp _ => [.countOutOfRange, .unwrittenRead]
  | .combine _ => [.countOutOfRange, .unwrittenRead, .badIdentifiers]
  | .sadd2 _ _ => [.indexOutOfRange, .unwrittenRead]
  | .saddn _ => [.countOutOfRange, .unwrittenRead]
  | .wrs1 _ _ _ => [.indexOutOfRange]
  | .wrs2 _ _ _ => [.indexOutOfRange]
  | .wrkey _ _ => [.indexOutOfRange]
  | .wrcoef _ _ => [.indexOutOfRange]
  | .wrbas _ _ => [.indexOutOfRange]
  | .rds1 _ _ => [.indexOutOfRange, .unwrittenRead]
  | .rds2 _ _ => [.indexOutOfRange, .unwrittenRead]
  | .rdkey _ => [.indexOutOfRange, .unwrittenRead]
  | .rdcoef _ => [.indexOutOfRange, .unwrittenRead]
  | .rdbas _ => [.indexOutOfRange, .unwrittenRead]

/-! ## Comparing outcomes -/

/-- The outcome with `f` applied to the next state. -/
def mapNext (f : State → State) : Host.Outcome State Fault Refusal → Host.Outcome State Fault Refusal
  | .next t => .next (f t)
  | .fault e => .fault e
  | .refused r => .refused r

/-- The same outcome but for what `blank` hides of the next state. -/
def agree (blank : State → State) : Host.Outcome State Fault Refusal → Host.Outcome State Fault Refusal → Prop
  | .next t, .next u => blank t = blank u
  | .fault e, .fault f => e = f
  | .refused r, .refused q => r = q
  | _, _ => False

/-! ## Arithmetic, without the model's algorithms -/

/-- The product of two polynomials over GF(2), not reduced: bit `i` of `b` adds `a` shifted by `i`. -/
def clmul (a b : Byte) : BitVec 16 :=
  (List.range 8).foldl (fun acc i => if b.getLsbD i then acc ^^^ (a.setWidth 16 <<< i) else acc) 0

/-- Reduction modulo `POLY`: from bit 14 down to bit 8, a set bit `i` is cleared by adding `POLY` shifted by `i - 8`. -/
def polyRem (p : Poly) (v : BitVec 16) : Byte :=
  ([14, 13, 12, 11, 10, 9, 8].foldl
    (fun w i => if w.getLsbD i then w ^^^ (p.val.setWidth 16 <<< (i - 8)) else w) v).setWidth 8

/-- `a^n` under `gf_mul`. -/
def gfPow (p : Poly) (a : Byte) : Nat → Byte
  | 0 => 1
  | n + 1 => gfMul p (gfPow p a n) a

/-- The sum of a list of field elements under `gf_add`. -/
def xorSum (l : List Byte) : Byte := l.foldr (fun x acc => x ^^^ acc) 0

/-- The sum of `c[i] * x^i` (R120). -/
def polySum (p : Poly) (c : List Byte) (x : Byte) : Byte :=
  xorSum ((List.range c.length).map fun i => gfMul p (c.getD i 0) (gfPow p x i))

/-- The product of `f j` over `j` in 0..k-1, `j ≠ i`. -/
def prodExcept (p : Poly) (k i : Nat) (f : Nat → Byte) : Byte :=
  ((List.range k).filter (fun j => j ≠ i)).foldr (fun j acc => gfMul p (f j) acc) 1

/-- `l` is the Lagrange basis value at 0 of share `i` among identifiers `x 0 .. x (k-1)`, in the one-inversion form of
R142: `gf_div` of the product of the `x j` by the product of the `x j + x i`. -/
def IsBasisValue (p : Poly) (k : Nat) (x : Nat → Byte) (i : Nat) (l : Byte) : Prop :=
  gfDiv p (prodExcept p k i x) (prodExcept p k i fun j => x j ^^^ x i) = some l

/-- Non-zero and pairwise distinct identifiers (R140). -/
def LegalIds (k : Nat) (x : Nat → Byte) : Prop :=
  (∀ i < k, x i ≠ 0) ∧ ∀ i < k, ∀ j < k, i ≠ j → x i ≠ x j

/-! ## Shares in a state -/

/-- Identifier bytes of slots 0..k-1 of `S1`. -/
def IdsAre (s : State) (k : Nat) (x : Nat → Byte) : Prop := ∀ i < k, s.read .s1 (bankAddr i 0) = some (x i)

/-- The y-bytes of slots 0..k-1 of `S1`: `y i b` for slot `i` and byte position `b`. -/
def YsAre (s : State) (k : Nat) (y : Nat → Nat → Byte) : Prop :=
  ∀ i < k, ∀ b < 32, s.read .s1 (bankAddr i (1 + b)) = some (y i b)

/-- Some y-byte of slots 0..k-1 of `S1` is unwritten. -/
def YMissing (s : State) (k : Nat) : Prop := ∃ i < k, ∃ b < 32, s.read .s1 (bankAddr i (1 + b)) = none

/-- The key bytes. -/
def KeyIs (s : State) (key : Nat → Byte) : Prop := ∀ b < 32, s.read .key b = some (key b)

/-- Slots 0, 1, ... of `S1` of `u` hold the shares that `t` has in the slots of the list `T` of bank `d`. -/
def Presents (u t : State) (d : Buf) (T : List Nat) : Prop :=
  ∀ j (h : j < T.length), ∀ o < 33, u.read .s1 (bankAddr j o) = t.read d (bankAddr T[j] o)

/-- Both shares of the pair are written whole and have the same identifier (R160). -/
def PairMatches (s : State) (p q : Nat) : Prop :=
  (∃ x, s.read .s1 (bankAddr p 0) = some x ∧ s.read .s2 (bankAddr q 0) = some x) ∧
    ∀ o, 1 ≤ o → o ≤ 32 → (∃ x, s.read .s1 (bankAddr p o) = some x) ∧ ∃ x, s.read .s2 (bankAddr q o) = some x

/-- Both identifiers of the pair are written and they differ (R223). -/
def PairDiffers (s : State) (p q : Nat) : Prop :=
  ∃ x y, s.read .s1 (bankAddr p 0) = some x ∧ s.read .s2 (bankAddr q 0) = some y ∧ x ≠ y

/-- What the add of the pair reads is not all written: an identifier, or on equal identifiers a y-byte (R160). -/
def PairUnwritten (s : State) (p q : Nat) : Prop :=
  s.read .s1 (bankAddr p 0) = none ∨ s.read .s2 (bankAddr q 0) = none ∨
    (s.read .s1 (bankAddr p 0) = s.read .s2 (bankAddr q 0) ∧
      ∃ o, 1 ≤ o ∧ o ≤ 32 ∧ (s.read .s1 (bankAddr p o) = none ∨ s.read .s2 (bankAddr q o) = none))

/-- `t` has, in slot `p` of `S1`, the sum of `s`'s share in slot `p` of `S1` and `s`'s share in slot `q` of `S2`. -/
def PairAdded (s t : State) (p q : Nat) : Prop :=
  ∀ o, 1 ≤ o → o ≤ 32 → ∀ x y, s.read .s1 (bankAddr p o) = some x → s.read .s2 (bankAddr q o) = some y →
    t.read .s1 (bankAddr p o) = some (x ^^^ y)

/-- `a` is one of the 32 y-bytes of slot `p`. -/
def IsYByte (p a : Nat) : Prop := ∃ o, 1 ≤ o ∧ o ≤ 32 ∧ a = bankAddr p o

/-- Commands executed one after the other, each from the state the one before left (R58). -/
def execAll : List Instr → State → Host.Outcome State Fault Refusal
  | [], s => .next s
  | i :: is, s =>
    match exec i s with
    | .next t => execAll is t
    | .fault f => .fault f
    | .refused r => .refused r

end Sys2Proof.Claims

open Sys2Proof Sys2Proof.Machine Sys2Proof.Claims

/-! ## Encoding and decoding -/

/-- A word of each family, written out from the table of R75, decodes to its command (95_test_vectors.md section 7). -/
def Obligations.SpecWordsDecode : Prop :=
  decode 0x02578300 = .ok (.gfmul 0x57 0x83) ∧ decode 0x03530000 = .ok (.gfinv 0x53) ∧
  decode 0x08030300 = .ok (.peval 3 0x03) ∧ decode 0x10010302 = .ok (.split .s2 3 2) ∧
  decode 0x1A020000 = .ok (.combine 2) ∧ decode 0x20000100 = .ok (.sadd2 0 1) ∧
  decode 0x21030000 = .ok (.saddn 3) ∧ decode 0x30010002 = .ok (.wrs1 1 0 0x02) ∧
  decode 0x321F1F00 = .ok (.wrkey 31 0x1F) ∧ decode 0x39002000 = .ok (.rds2 0 32) ∧
  decode 0x3C000000 = .ok (.rdbas 0)

/-- R79: a word decodes exactly when it matches a row of the table of R75, to that row's command with the fields as operands; the
encoder is `OP << 24 OR A << 16 OR B << 8 OR C`; decode after encode is the identity on commands and encode after decode is the
identity on legal words. -/
def Obligations.DecodeEncodeInverse : Prop :=
  (∀ i, decode (encode i) = .ok i) ∧
  (∀ w i, decode w = .ok i → encode i = w) ∧
  (∀ w, (∃ i, decode w = .ok i) ↔ ∃ r ∈ opcodeTable, w &&& r.mask = r.pattern) ∧
  (∀ w i, decode w = .ok i → operands i = (fieldA w, fieldB w, fieldC w)) ∧
  (∀ i, ∃ r ∈ opcodeTable, r.mnemonic = i.mnemonic ∧
    encode i = r.pattern ||| ((operands i).1.setWidth 32 <<< 16) ||| ((operands i).2.1.setWidth 32 <<< 8) |||
      (operands i).2.2.setWidth 32)

/-- R75: a word is the command of a row exactly when `w AND mask = match`, and its operands are the fields the row names. -/
def Obligations.DecodeFollowsTable : Prop :=
  (∀ w, ∀ r ∈ opcodeTable, (w &&& r.mask = r.pattern) ↔ ∃ i, decode w = .ok i ∧ i.mnemonic = r.mnemonic) ∧
  (∀ w i, decode w = .ok i → operands i = (fieldA w, fieldB w, fieldC w))

/-- No two rows of the table of R75 can match the same word: their opcodes differ under both masks. -/
def Obligations.TableRowsDisjoint : Prop :=
  opcodeTable.length = 21 ∧ opcodeTable.Pairwise fun r q => r.pattern &&& q.mask ≠ q.pattern &&& r.mask

/-- R77: which words are illegal, and that presenting one raises `IllegalCommand`. -/
def Obligations.IllegalWordsFault : Prop :=
  (∀ w, (∃ e, decode w = .error e) ↔
    fieldOp w ∉ opcodesF1 ++ opcodesF2 ++ opcodesF3 ∨
    (fieldOp w ∈ opcodesF1 ∧ (fieldB w ≠ 0 ∨ fieldC w ≠ 0)) ∨
    (fieldOp w ∈ opcodesF2 ∧ fieldC w ≠ 0) ∨
    (fieldOp w = 0x10 ∧ 2 ≤ (fieldA w).toNat)) ∧
  (∀ w, (∃ e, decode w = .error e) ↔ ∀ r ∈ opcodeTable, w &&& r.mask ≠ r.pattern) ∧
  (∀ s w, s.fetch = some w → (step s = .fault .illegalCommand ↔ ∃ e, decode w = .error e)) ∧
  (opcodesF1 ++ opcodesF2 ++ opcodesF3).Nodup ∧ 256 - (opcodesF1 ++ opcodesF2 ++ opcodesF3).length = 235

/-! ## The step -/

/-- A step runs the decoded instruction: when the word presented decodes to `i`, the step is `exec i`, with the index advanced on
completion and not on a fault (R21). -/
def Obligations.StepRunsDecodedInstruction : Prop :=
  ∀ s w i, s.fetch = some w → decode w = .ok i →
    step s = match exec i s with
      | .next t => .next { t with ci := t.ci + 1 }
      | .fault f => .fault f
      | .refused r => .refused r

/-- R21: the index starts at 0, a completed command advances it by one, no command reads or changes it or the list in any other
way, and past the end of the list no command is presented; that the block then stays as it is, is log entry 4. -/
def Obligations.IndexCountsCompletedCommands : Prop :=
  State.reset.ci = 0 ∧
  (∀ s t w, s.fetch = some w → step s = .next t → t.ci = s.ci + 1 ∧ t.cmds = s.cmds) ∧
  (∀ s, s.cmds.length ≤ s.ci → step s = .next s) ∧
  (∀ i s n ws, exec i { s with ci := n, cmds := ws } = mapNext (fun t => { t with ci := n, cmds := ws }) (exec i s))

/-- `POLY` is a constant of the configuration: no step changes it (R30, log entry 1). -/
def Obligations.PolyNeverChanges : Prop :=
  (∀ i s t, exec i s = .next t → t.poly = s.poly) ∧ ∀ s t, step s = .next t → t.poly = s.poly

/-- The invariant holds after reset (R23, R32, R51). -/
def Obligations.ResetMeetsInvariant : Prop := State.reset.Inv = true

/-- Every step keeps the invariant: `STATUS` is 0 or 1 (R23), every buffer is in canonical form and holds bytes only where storage
exists (R51), the index stays within the list (R21). -/
def Obligations.StepKeepsInvariant : Prop :=
  ∀ s t, s.Inv = true → step s = .next t → t.Inv = true

/-- R32: `STATUS` = 0, `R` unwritten, every byte of every buffer unwritten, the block idle, the index 0. -/
def Obligations.ResetState : Prop :=
  State.reset.status = 0 ∧ State.reset.rWritten = false ∧ State.reset.response = (none, 0) ∧
  (∀ b a, State.reset.read b a = none) ∧ State.reset.fetch = none ∧ State.reset.ci = 0

/-- R251 (and R250): a reset, also one that abandons a command, leaves the state of R250, and the RNG bytes the command had taken
stay taken. -/
def Obligations.ResetAbandonsCommand : Prop :=
  ∀ (s : State) (n : Nat),
    ((s.applyReset n).status = 0 ∧ (s.applyReset n).rWritten = false ∧ (∀ b a, (s.applyReset n).read b a = none) ∧
      (s.applyReset n).fetch = none ∧ (s.applyReset n).ci = 0 ∧ (s.applyReset n).poly = s.poly) ∧
    (n ≤ s.rng.supplied.length →
      (s.applyReset n).rng = { s.rng with supplied := s.rng.supplied.drop n, drawn := s.rng.drawn + n })

/-! ## Rules about the whole machine -/

/-- R224: only the two add commands write `STATUS`; they write 0 or 1 (R23). -/
def Obligations.StatusWrittenOnlyByAdds : Prop :=
  ∀ i s t, exec i s = .next t →
    (isAdd i = false → t.status = s.status) ∧ (isAdd i = true → t.status = 0 ∨ t.status = 1)

/-- The "written by" column of R20, as the frame of every command: `R`, each buffer and the RNG port change only by the commands
listed for them; `R` is written after a command listed for it. -/
def Obligations.OnlyListedCommandsWrite : Prop :=
  ∀ i s t, exec i s = .next t →
    (writesR i = false → t.r = s.r ∧ t.rWritten = s.rWritten) ∧ (writesR i = true → t.rWritten = true) ∧
    (∀ b, writesBuf b i = false → t.mem b = s.mem b ∧ ∀ a, t.read b a = s.read b a) ∧
    (isSplit i = false → t.rng = s.rng)

/-- The "read by" column of R20: a command gives the same outcome, but for the contents of buffer `b` itself, whatever `b` holds,
unless it is listed as reading `b`. -/
def Obligations.OnlyListedCommandsRead : Prop :=
  ∀ b i s m, readsBuf b i = false → agree (fun t => t.setMem b []) (exec i s) (exec i (s.setMem b m))

/-- R22 and R23: no command takes `R` or `STATUS` as a source. -/
def Obligations.NoCommandReadsResultOrStatus : Prop :=
  ∀ i s v w st,
    agree (fun t => { t with r := 0, rWritten := false, status := 0 })
      (exec i s) (exec i { s with r := v, rWritten := w, status := st }) ∧
    (writesR i = true → agree (fun t => { t with status := 0 })
      (exec i s) (exec i { s with r := v, rWritten := w, status := st })) ∧
    (isAdd i = true → agree (fun t => { t with r := 0, rWritten := false })
      (exec i s) (exec i { s with r := v, rWritten := w, status := st }))

/-- R209, R131, R147: without `SPLIT` no stream is needed; a command other than `SPLIT` does the same whatever the RNG port holds. -/
def Obligations.OnlySplitUsesTheRng : Prop :=
  ∀ i s g, isSplit i = false → exec i (s.setRng g) = mapNext (fun t => t.setRng g) (exec i s)

/-- R29: a byte that is written stays written, and so does `R`. -/
def Obligations.WrittenStaysWritten : Prop :=
  ∀ s t, step s = .next t →
    (∀ b a, s.read b a ≠ none → t.read b a ≠ none) ∧ (s.rWritten = true → t.rWritten = true)

/-- R78: a command whose operands break its precondition is a legal encoding, decodes, and faults when executed, in every state,
with the reason its own rule names. -/
def Obligations.BadOperandsFault : Prop :=
  ∀ i f, operandFault i = some f → decode (encode i) = .ok i ∧ i.wf = false ∧ ∀ s, exec i s = .fault f

/-- Commands are checked in the order of R226: operands that meet the `require` lines never give a fault of those lines. -/
def Obligations.OperandFaultsDependOnTheWordAlone : Prop :=
  ∀ i s, operandFault i = none →
    i.wf = true ∧ exec i s ≠ .fault .countOutOfRange ∧ exec i s ≠ .fault .indexOutOfRange ∧
      exec i s ≠ .fault .inverseOfZero

/-- R222: the reasons a command faults with are those listed for it, and nothing is refused. -/
def Obligations.OnlyListedFaults : Prop :=
  (∀ i s f, exec i s = .fault f → f ∈ mayRaise i) ∧ (∀ i s r, exec i s ≠ .refused r) ∧ ∀ s r, step s ≠ .refused r

/-- R253 with R226: a command completes exactly when its operands are in range and what R253 lists is written (and the RNG can give
its bytes). -/
def Obligations.CompletesExactlyWhenReady : Prop :=
  ∀ i s, (∃ t, exec i s = .next t) ↔ Ready i s = true

/-! ## Field arithmetic -/

/-- R190: the laws of `gf_add`, which is XOR (R100). -/
def Obligations.FieldAdditionLaws : Prop :=
  ∀ a b c : Byte, gfAdd a b = a ^^^ b ∧ gfAdd a b = gfAdd b a ∧ gfAdd (gfAdd a b) c = gfAdd a (gfAdd b c) ∧
    gfAdd a 0 = a ∧ gfAdd a a = 0

/-- R9: the legal `POLY` values are the 30 values of degree 8 that are no product of two polynomials of lower degree, and no other
value can be chosen. -/
def Obligations.LegalPolysAreTheIrreducibles : Prop :=
  Config.legalPolys.length = 30 ∧ Config.legalPolys.Nodup ∧
  (∀ v : BitVec 9, v ∈ Config.legalPolys ↔
    v.getLsbD 8 = true ∧ ∀ a b : Byte, 2 ≤ a.toNat → 2 ≤ b.toNat → clmul a b ≠ v.setWidth 16) ∧
  (∀ v : BitVec 9, v ∉ Config.legalPolys → Poly.ofBits v = none) ∧
  Config.defaultPoly.val = 0x11B

/-- R101: `gf_mul` is the product of the two polynomials reduced modulo `POLY`; zero and one as factors. -/
def Obligations.FieldProductIsReducedPolynomialProduct : Prop :=
  ∀ (p : Poly) (a b : Byte), gfMul p a b = polyRem p (clmul a b) ∧
    gfMul p a 0 = 0 ∧ gfMul p 0 a = 0 ∧ gfMul p a 1 = a ∧ gfMul p 1 a = a

/-- R191: multiplication is commutative and associative, 1 is neutral, 0 absorbs. -/
def Obligations.FieldMultiplicationLaws : Prop :=
  ∀ (p : Poly) (a b c : Byte), gfMul p a b = gfMul p b a ∧
    gfMul p (gfMul p a b) c = gfMul p a (gfMul p b c) ∧ gfMul p a 1 = a ∧ gfMul p a 0 = 0

/-- R192: multiplication distributes over addition. -/
def Obligations.FieldDistributes : Prop :=
  ∀ (p : Poly) (a b c : Byte), gfMul p a (gfAdd b c) = gfAdd (gfMul p a b) (gfMul p a c)

/-- R193: no zero divisors; every non-zero element has exactly one inverse, namely `gf_inv`; the group order. -/
def Obligations.FieldInverses : Prop :=
  ∀ p : Poly,
    (∀ a b, gfMul p a b = 0 → a = 0 ∨ b = 0) ∧
    (∀ a, a ≠ 0 → ∃ c, gfInv p a = some c ∧ gfMul p a c = 1 ∧ (∀ d, gfMul p a d = 1 → d = c) ∧
      gfInv p c = some a ∧ c = gfPow p a 254 ∧ gfPow p a 255 = 1) ∧
    gfInv p 1 = some 1 ∧ gfInv p 0 = none

/-- R103: division is multiplication by the inverse; not defined for divisor 0; its corner cases. -/
def Obligations.FieldDivision : Prop :=
  ∀ (p : Poly) (a b : Byte), gfDiv p a 0 = none ∧
    (b ≠ 0 → ∃ c, gfInv p b = some c ∧ gfDiv p a b = some (gfMul p a c)) ∧
    (b ≠ 0 → gfDiv p 0 b = some 0) ∧ gfDiv p a 1 = some a ∧ (a ≠ 0 → gfDiv p a a = some 1)

/-- R104: `GFADD` writes the sum to `R`, nothing else, and always succeeds. -/
def Obligations.GfaddResult : Prop :=
  ∀ (a b : Byte) (s : State), decode (wordOf 0x01 a b 0) = .ok (.gfadd a b) ∧
    exec (.gfadd a b) s = .next { s with r := a ^^^ b, rWritten := true }

/-- R105: `GFMUL` writes the product to `R`, nothing else, and always succeeds; a zero operand gives 0, operand 1 gives the other. -/
def Obligations.GfmulResult : Prop :=
  ∀ (a b : Byte) (s : State), decode (wordOf 0x02 a b 0) = .ok (.gfmul a b) ∧
    exec (.gfmul a b) s = .next { s with r := polyRem s.poly (clmul a b), rWritten := true } ∧
    exec (.gfmul a b) s = exec (.gfmul b a) s ∧
    exec (.gfmul a 0) s = .next { s with r := 0, rWritten := true } ∧
    exec (.gfmul a 1) s = .next { s with r := a, rWritten := true }

/-- R106: `GFINV` writes the inverse to `R`, nothing else; 0 raises `InverseOfZero`. -/
def Obligations.GfinvResult : Prop :=
  ∀ (a : Byte) (s : State), decode (wordOf 0x03 a 0 0) = .ok (.gfinv a) ∧
    (a = 0 → exec (.gfinv a) s = .fault .inverseOfZero) ∧
    (a ≠ 0 → ∃ c, gfMul s.poly a c = 1 ∧ exec (.gfinv a) s = .next { s with r := c, rWritten := true } ∧
      exec (.gfinv c) s = .next { s with r := a, rWritten := true }) ∧
    exec (.gfinv 1) s = .next { s with r := 1, rWritten := true }

/-- R107: `GFDIV` writes the quotient to `R`, nothing else; divisor 0 raises `InverseOfZero`, whatever the dividend. -/
def Obligations.GfdivResult : Prop :=
  ∀ (a b : Byte) (s : State), decode (wordOf 0x04 a b 0) = .ok (.gfdiv a b) ∧
    (b = 0 → exec (.gfdiv a b) s = .fault .inverseOfZero) ∧
    (b ≠ 0 → ∃ c, gfMul s.poly b c = 1 ∧
      exec (.gfdiv a b) s = .next { s with r := gfMul s.poly a c, rWritten := true } ∧
      exec (.gfdiv 0 b) s = .next { s with r := 0, rWritten := true } ∧
      exec (.gfdiv b b) s = .next { s with r := 1, rWritten := true }) ∧
    exec (.gfdiv a 1) s = .next { s with r := a, rWritten := true }

/-! ## The Polynomial Evaluator -/

/-- R120, R195: Horner's loop gives the sum of `c[i] * x^i`; at `x` = 0 the constant term, of one coefficient that coefficient, at
`x` = 1 the sum of all. -/
def Obligations.HornerIsTheSum : Prop :=
  ∀ (p : Poly) (x c0 : Byte) (cs : List Byte),
    horner p x (c0 :: cs) = polySum p (c0 :: cs) x ∧ horner p 0 (c0 :: cs) = c0 ∧ horner p x [c0] = c0 ∧
    horner p 1 (c0 :: cs) = xorSum (c0 :: cs)

/-- R196: evaluation is linear in the coefficients; zero coefficients at the top change nothing. -/
def Obligations.EvaluationIsLinear : Prop :=
  (∀ (p : Poly) (x : Byte) (c d : List Byte), c.length = d.length →
    horner p x (List.zipWith gfAdd c d) = gfAdd (horner p x c) (horner p x d)) ∧
  (∀ (p : Poly) (x : Byte) (c : List Byte) (n : Nat), horner p x (c ++ List.replicate n 0) = horner p x c)

/-- R121: `PEVAL` writes the value of the polynomial `COEF[0..k-1]` at `x` to `R`, nothing else; its faults. -/
def Obligations.PevalResult : Prop :=
  ∀ (k x : Byte) (s : State), decode (wordOf 0x08 k x 0) = .ok (.peval k x) ∧
    (k = 0 → exec (.peval k x) s = .fault .countOutOfRange) ∧
    (k ≠ 0 → (∃ j < k.toNat, s.read .coef j = none) → exec (.peval k x) s = .fault .unwrittenRead) ∧
    (∀ c : Nat → Byte, k ≠ 0 → (∀ j < k.toNat, s.read .coef j = some (c j)) →
      exec (.peval k x) s =
        .next { s with r := polySum s.poly ((List.range k.toNat).map c) x, rWritten := true })

/-! ## The Share Generator -/

/-- R131: the port gives its bytes in order, each once; when it cannot supply one, `RngNext()` fails. -/
def Obligations.RngPortGivesEachByteOnce : Prop :=
  ∀ (n : Nat) (g : RngPort),
    (n ≤ g.supplied.length → RngPort.draw n g =
      .ok (g.supplied.take n, { g with supplied := g.supplied.drop n, drawn := g.drawn + n })) ∧
    (g.endless = false → g.supplied.length < n → RngPort.draw n g = .error .rngFailure) ∧
    (g.endless = true → ∃ vs, vs.length = n ∧ RngPort.draw n g =
      .ok (vs, { g with supplied := g.supplied.drop n, drawn := g.drawn + n }))

/-- R130, R133: `SPLIT` writes all 33 bytes of slots 0..n-1 of the chosen bank, takes `32 * (k - 1)` bytes from the port in the order
byte position outer, coefficient inner, and changes nothing else; its faults. -/
def Obligations.SplitResult : Prop :=
  ∀ (bank : Bank) (n k : Byte) (s : State),
    decode (wordOf 0x10 (bankField bank) n k) = .ok (.split bank n k) ∧
    (n = 0 ∨ k = 0 ∨ n.toNat < k.toNat → exec (.split bank n k) s = .fault .countOutOfRange) ∧
    (1 ≤ k.toNat → k.toNat ≤ n.toNat →
      ((∃ b < 32, s.read .key b = none) → s.rng.canSupply (32 * (k.toNat - 1)) = true →
        exec (.split bank n k) s = .fault .unwrittenRead) ∧
      ((∀ b < 32, s.read .key b ≠ none) → s.rng.canSupply (32 * (k.toNat - 1)) = false →
        exec (.split bank n k) s = .fault .rngFailure) ∧
      ((∃ b < 32, s.read .key b = none) → s.rng.canSupply (32 * (k.toNat - 1)) = false →
        exec (.split bank n k) s = .fault .unwrittenRead ∨ exec (.split bank n k) s = .fault .rngFailure)) ∧
    (∀ (key : Nat → Byte) (ds : List Byte) (g : RngPort), 1 ≤ k.toNat → k.toNat ≤ n.toNat → KeyIs s key →
      RngPort.draw (32 * (k.toNat - 1)) s.rng = .ok (ds, g) →
      ∃ t, exec (.split bank n k) s = .next t ∧
        t = ({ s with rng := g } : State).setMem (bankBuf bank) (t.mem (bankBuf bank)) ∧
        (∀ slot < n.toNat, t.read (bankBuf bank) (bankAddr slot 0) = some (BitVec.ofNat 8 (slot + 1))) ∧
        (∀ slot < n.toNat, ∀ b < 32, t.read (bankBuf bank) (bankAddr slot (1 + b)) =
          some (polySum s.poly (key b :: (ds.drop ((k.toNat - 1) * b)).take (k.toNat - 1))
            (BitVec.ofNat 8 (slot + 1)))) ∧
        (∀ a, (∀ slot < n.toNat, ∀ o < 33, a ≠ bankAddr slot o) →
          t.read (bankBuf bank) a = s.read (bankBuf bank) a))

/-- R132: the identifiers `SPLIT` writes are non-zero and pairwise distinct, and for each byte position there is one polynomial with
at most `k` coefficients and the key byte as constant term, whose values at the identifiers are the y-values. -/
def Obligations.SplitOutputIsASharing : Prop :=
  ∀ (bank : Bank) (n k : Byte) (s t : State), exec (.split bank n k) s = .next t →
    (∃ x : Nat → Byte, (∀ slot < n.toNat, t.read (bankBuf bank) (bankAddr slot 0) = some (x slot) ∧
        (x slot).toNat = slot + 1) ∧ LegalIds n.toNat x) ∧
    ∀ b < 32, ∃ c : List Byte, c.length = k.toNat ∧ c.head? = s.read .key b ∧
      ∀ slot < n.toNat, t.read (bankBuf bank) (bankAddr slot (1 + b)) =
        some (horner s.poly (BitVec.ofNat 8 (slot + 1)) c)

/-! ## The Share Combiner -/

/-- R142: for non-zero, pairwise distinct identifiers the basis values exist, one for each, and each is the one quotient of products. -/
def Obligations.BasisIsTheLagrangeQuotient : Prop :=
  ∀ (p : Poly) (k : Nat) (x : Nat → Byte), 1 ≤ k → LegalIds k x →
    ∃ ls, basis0 p ((List.range k).map x) = some ls ∧ ls.length = k ∧
      ∀ i (h : i < ls.length), IsBasisValue p k x i ls[i]

/-- R208: the basis values of legal identifiers XOR to one, and none of them is zero. -/
def Obligations.BasisXorsToOne : Prop :=
  ∀ (p : Poly) (xs : List Byte), xs ≠ [] → idsOk xs = true →
    ∃ ls, basis0 p xs = some ls ∧ xorSum ls = 1 ∧ ∀ l ∈ ls, l ≠ 0

/-- R200: interpolating at 0 the values of a polynomial with at most as many coefficients as there are points gives its constant
term. -/
def Obligations.InterpolationTheorem : Prop :=
  ∀ (p : Poly) (xs : List Byte) (c0 : Byte) (cs : List Byte), idsOk xs = true → (c0 :: cs).length ≤ xs.length →
    ∃ ls, basis0 p xs = some ls ∧ interp0 p (xs.map fun x => horner p x (c0 :: cs)) ls = c0

/-- R141, R140: `LBASIS` writes the basis values of the identifiers in slots 0..k-1 of `S1` to `BASIS[0..k-1]`, nothing else; its
faults. -/
def Obligations.LbasisResult : Prop :=
  ∀ (k : Byte) (s : State), decode (wordOf 0x18 k 0 0) = .ok (.lbasis k) ∧
    (k = 0 → exec (.lbasis k) s = .fault .countOutOfRange) ∧
    (k ≠ 0 → (∃ i < k.toNat, s.read .s1 (bankAddr i 0) = none) → exec (.lbasis k) s = .fault .unwrittenRead) ∧
    (∀ x : Nat → Byte, k ≠ 0 → IdsAre s k.toNat x →
      (¬ LegalIds k.toNat x → exec (.lbasis k) s = .fault .badIdentifiers) ∧
      (LegalIds k.toNat x → ∃ t, exec (.lbasis k) s = .next t ∧ t = { s with basis := t.basis } ∧
        (∀ i < k.toNat, ∃ l, t.read .basis i = some l ∧ IsBasisValue s.poly k.toNat x i l) ∧
        ∀ a, k.toNat ≤ a → t.read .basis a = s.read .basis a))

/-- R143, R144: `INTERP` writes to each `KEY[b]` the sum of the y-bytes weighted by `BASIS`, nothing else; it reads no identifier; its
faults. -/
def Obligations.InterpResult : Prop :=
  ∀ (k : Byte) (s : State), decode (wordOf 0x19 k 0 0) = .ok (.interp k) ∧
    (k = 0 → exec (.interp k) s = .fault .countOutOfRange) ∧
    (k ≠ 0 → (YMissing s k.toNat ∨ ∃ i < k.toNat, s.read .basis i = none) →
      exec (.interp k) s = .fault .unwrittenRead) ∧
    (∀ (y : Nat → Nat → Byte) (l : Nat → Byte), k ≠ 0 → YsAre s k.toNat y →
      (∀ i < k.toNat, s.read .basis i = some (l i)) →
      ∃ t, exec (.interp k) s = .next t ∧ t = { s with key := t.key } ∧
        (∀ b < 32, t.read .key b = some (xorSum ((List.range k.toNat).map fun i => gfMul s.poly (y i b) (l i)))) ∧
        ∀ a, 32 ≤ a → t.read .key a = s.read .key a)

/-- R145, R140: `COMBINE` writes the basis values to `BASIS[0..k-1]` and the interpolated bytes to `KEY`, nothing else; its faults. -/
def Obligations.CombineResult : Prop :=
  ∀ (k : Byte) (s : State), decode (wordOf 0x1A k 0 0) = .ok (.combine k) ∧
    (k = 0 → exec (.combine k) s = .fault .countOutOfRange) ∧
    (k ≠ 0 → (∃ i < k.toNat, s.read .s1 (bankAddr i 0) = none) → exec (.combine k) s = .fault .unwrittenRead) ∧
    (∀ x : Nat → Byte, k ≠ 0 → IdsAre s k.toNat x →
      (¬ LegalIds k.toNat x → exec (.combine k) s = .fault .badIdentifiers) ∧
      (LegalIds k.toNat x → YMissing s k.toNat → exec (.combine k) s = .fault .unwrittenRead) ∧
      (∀ y : Nat → Nat → Byte, LegalIds k.toNat x → YsAre s k.toNat y →
        ∃ (t : State) (l : Nat → Byte), exec (.combine k) s = .next t ∧
          t = { s with key := t.key, basis := t.basis } ∧
          (∀ i < k.toNat, t.read .basis i = some (l i) ∧ IsBasisValue s.poly k.toNat x i (l i)) ∧
          (∀ a, k.toNat ≤ a → t.read .basis a = s.read .basis a) ∧
          (∀ b < 32, t.read .key b =
            some (xorSum ((List.range k.toNat).map fun i => gfMul s.poly (y i b) (l i)))) ∧
          ∀ a, 32 ≤ a → t.read .key a = s.read .key a))

/-- R145, R81: the effect of `COMBINE k` equals `LBASIS k` followed by `INTERP k`, in every state, faults included. -/
def Obligations.CombineIsLbasisThenInterp : Prop :=
  ∀ (k : Byte) (s : State), exec (.combine k) s = execAll [.lbasis k, .interp k] s

/-- R201, R203: presenting `k` or more distinct shares of one sharing, any of them and in any order, `COMBINE` ends without fault with
the key; fewer shares complete as well and write 32 bytes. -/
def Obligations.SharesRecoverTheKey : Prop :=
  ∀ (bank : Bank) (n k m : Byte) (s t u : State) (T : List Nat), exec (.split bank n k) s = .next t →
    T ≠ [] → T.Nodup → (∀ slot ∈ T, slot < n.toNat) → m.toNat = T.length → u.poly = s.poly →
    Presents u t (bankBuf bank) T →
    ∃ v, exec (.combine m) u = .next v ∧ (∀ b < 32, v.read .key b ≠ none) ∧
      (k.toNat ≤ T.length → ∀ b < 32, v.read .key b = s.read .key b)

/-- R202: presenting the same shares in another order gives the same key and the basis values in that order. -/
def Obligations.CombineIgnoresTheOrder : Prop :=
  ∀ (k : Byte) (s t u : State) (f : Nat → Nat), exec (.combine k) s = .next t →
    (∀ i < k.toNat, f i < k.toNat) → (∀ i < k.toNat, ∀ j < k.toNat, f i = f j → i = j) → u.poly = s.poly →
    (∀ i < k.toNat, ∀ o < 33, u.read .s1 (bankAddr i o) = s.read .s1 (bankAddr (f i) o)) →
    ∃ v, exec (.combine k) u = .next v ∧ (∀ b < 32, v.read .key b = t.read .key b) ∧
      ∀ i < k.toNat, v.read .basis i = t.read .basis (f i)

/-- R206, first case: `SPLIT bank, 1, 1` draws nothing and writes identifier 1 and the key bytes; `COMBINE 1` on it writes
`BASIS[0] = 1` and the key. -/
def Obligations.OneShareIsTheKey : Prop :=
  ∀ (bank : Bank) (s : State) (key : Nat → Byte), KeyIs s key →
    ∃ t, exec (.split bank 1 1) s = .next t ∧ t.rng = s.rng ∧
      t.read (bankBuf bank) (bankAddr 0 0) = some 1 ∧
      (∀ b < 32, t.read (bankBuf bank) (bankAddr 0 (1 + b)) = some (key b)) ∧
      (bank = .s1 → ∃ u, exec (.combine 1) t = .next u ∧ u.read .basis 0 = some 1 ∧ KeyIs u key)

/-! ## The Homomorphic Adder -/

/-- R160: `SADD2` compares the identifiers; on a match it adds the 32 y-bytes in place and writes `STATUS` 0, on a mismatch it writes
`STATUS` 1 and leaves the share; nothing else changes; its faults. -/
def Obligations.Sadd2Result : Prop :=
  ∀ (p q : Byte) (s : State), decode (wordOf 0x20 p q 0) = .ok (.sadd2 p q) ∧
    (p = 255 ∨ q = 255 → exec (.sadd2 p q) s = .fault .indexOutOfRange) ∧
    (p ≠ 255 → q ≠ 255 →
      (PairUnwritten s p.toNat q.toNat → exec (.sadd2 p q) s = .fault .unwrittenRead) ∧
      (PairDiffers s p.toNat q.toNat → exec (.sadd2 p q) s = .next { s with status := 1 }) ∧
      (PairMatches s p.toNat q.toNat → ∃ t, exec (.sadd2 p q) s = .next t ∧ t = { s with s1 := t.s1, status := 0 } ∧
        PairAdded s t p.toNat q.toNat ∧ ∀ a, ¬ IsYByte p.toNat a → t.read .s1 a = s.read .s1 a))

/-- R205: on differing identifiers `SADD2` ends with `STATUS` 1 and every byte of every buffer, and `R`, as before. -/
def Obligations.MismatchIsRejected : Prop :=
  ∀ (p q x y : Byte) (s : State), p.toNat ≤ 254 → q.toNat ≤ 254 → s.read .s1 (bankAddr p.toNat 0) = some x →
    s.read .s2 (bankAddr q.toNat 0) = some y → x ≠ y →
    ∃ t, exec (.sadd2 p q) s = .next t ∧ t.status = 1 ∧ t.response = (s.response.1, 1) ∧
      (∀ b a, t.read b a = s.read b a) ∧ t.r = s.r ∧ t.rWritten = s.rWritten

/-- R160, corner case: adding the same `S2[q]` into `S1[p]` twice restores `S1[p]`. -/
def Obligations.AddingTwiceRestores : Prop :=
  ∀ (p q : Byte) (s : State), p.toNat ≤ 254 → q.toNat ≤ 254 → PairMatches s p.toNat q.toNat →
    ∃ t, execAll [.sadd2 p q, .sadd2 p q] s = .next t ∧ t.status = 0 ∧ ∀ b a, t.read b a = s.read b a

/-- R161: `SADDN` adds the pairs 0, 1, ... up to the first whose identifiers differ; that pair and all later ones are untouched;
`STATUS` says whether all matched; nothing else changes; its faults. -/
def Obligations.SaddnResult : Prop :=
  ∀ (n : Byte) (s : State), decode (wordOf 0x21 n 0 0) = .ok (.saddn n) ∧
    (n = 0 → exec (.saddn n) s = .fault .countOutOfRange) ∧
    (∀ m < n.toNat, (∀ i < m, PairMatches s i i) → PairUnwritten s m m → exec (.saddn n) s = .fault .unwrittenRead) ∧
    (∀ m ≤ n.toNat, n ≠ 0 → (∀ i < m, PairMatches s i i) → (m < n.toNat → PairDiffers s m m) →
      ∃ t, exec (.saddn n) s = .next t ∧
        t = { s with s1 := t.s1, status := if m = n.toNat then 0 else 1 } ∧
        (∀ i < m, PairAdded s t i i) ∧ ∀ a, (∀ i < m, ¬ IsYByte i a) → t.read .s1 a = s.read .s1 a)

/-- R161, corner case: `SADDN 1` equals `SADD2 0, 0`, in every state. -/
def Obligations.SaddnOneIsSadd2 : Prop :=
  ∀ s : State, exec (.saddn 1) s = exec (.sadd2 0 0) s

/-- R204: with the shares of two keys made with the same `n` and `k`, `SADDN n` ends with `STATUS` 0, its result is a sharing of
`key1 XOR key2`, and combining `k` or more of the summed shares gives `key1 XOR key2`. -/
def Obligations.AdditionIsHomomorphic : Prop :=
  ∀ (n k : Byte) (s1 t1 s2 t2 u : State) (key1 key2 : Nat → Byte),
    exec (.split .s1 n k) s1 = .next t1 → exec (.split .s2 n k) s2 = .next t2 → KeyIs s1 key1 → KeyIs s2 key2 →
    s2.poly = s1.poly → u.poly = s1.poly →
    (∀ slot < n.toNat, ∀ o < 33, u.read .s1 (bankAddr slot o) = t1.read .s1 (bankAddr slot o)) →
    (∀ slot < n.toNat, ∀ o < 33, u.read .s2 (bankAddr slot o) = t2.read .s2 (bankAddr slot o)) →
    ∃ v, exec (.saddn n) u = .next v ∧ v.status = 0 ∧
      (∀ b < 32, ∃ c : List Byte, c.length = k.toNat ∧ c.head? = some (key1 b ^^^ key2 b) ∧
        ∀ slot < n.toNat, v.read .s1 (bankAddr slot (1 + b)) = some (horner u.poly (BitVec.ofNat 8 (slot + 1)) c)) ∧
      ∀ (T : List Nat) (m : Byte) (w : State), T.Nodup → (∀ slot ∈ T, slot < n.toNat) → k.toNat ≤ T.length →
        m.toNat = T.length → w.poly = u.poly → Presents w v .s1 T →
        ∃ z, exec (.combine m) w = .next z ∧ KeyIs z fun b => key1 b ^^^ key2 b

/-! ## Buffer access -/

/-- R171, R172: `WRS1` and `WRS2` store one byte of their bank, whatever the value, and change nothing else. -/
def Obligations.BankWriteResult : Prop :=
  ∀ (slot offset value : Byte) (s : State),
    decode (wordOf 0x30 slot offset value) = .ok (.wrs1 slot offset value) ∧
    decode (wordOf 0x31 slot offset value) = .ok (.wrs2 slot offset value) ∧
    (¬ (slot.toNat ≤ 254 ∧ offset.toNat ≤ 32) →
      exec (.wrs1 slot offset value) s = .fault .indexOutOfRange ∧
      exec (.wrs2 slot offset value) s = .fault .indexOutOfRange) ∧
    (slot.toNat ≤ 254 → offset.toNat ≤ 32 →
      (∃ t, exec (.wrs1 slot offset value) s = .next t ∧ t = { s with s1 := t.s1 } ∧
        t.read .s1 (bankAddr slot.toNat offset.toNat) = some value ∧
        ∀ a, a ≠ bankAddr slot.toNat offset.toNat → t.read .s1 a = s.read .s1 a) ∧
      (∃ t, exec (.wrs2 slot offset value) s = .next t ∧ t = { s with s2 := t.s2 } ∧
        t.read .s2 (bankAddr slot.toNat offset.toNat) = some value ∧
        ∀ a, a ≠ bankAddr slot.toNat offset.toNat → t.read .s2 a = s.read .s2 a))

/-- R173, R174, R175: `WRKEY`, `WRCOEF`, `WRBAS` store one byte of their buffer and change nothing else. -/
def Obligations.BufferWriteResult : Prop :=
  ∀ (index value : Byte) (s : State),
    decode (wordOf 0x32 index value 0) = .ok (.wrkey index value) ∧
    decode (wordOf 0x33 index value 0) = .ok (.wrcoef index value) ∧
    decode (wordOf 0x34 index value 0) = .ok (.wrbas index value) ∧
    (32 ≤ index.toNat → exec (.wrkey index value) s = .fault .indexOutOfRange) ∧
    (index.toNat ≤ 31 → ∃ t, exec (.wrkey index value) s = .next t ∧ t = { s with key := t.key } ∧
      t.read .key index.toNat = some value ∧ ∀ a, a ≠ index.toNat → t.read .key a = s.read .key a) ∧
    (index.toNat = 255 → exec (.wrcoef index value) s = .fault .indexOutOfRange ∧
      exec (.wrbas index value) s = .fault .indexOutOfRange) ∧
    (index.toNat ≤ 254 →
      (∃ t, exec (.wrcoef index value) s = .next t ∧ t = { s with coef := t.coef } ∧
        t.read .coef index.toNat = some value ∧ ∀ a, a ≠ index.toNat → t.read .coef a = s.read .coef a) ∧
      (∃ t, exec (.wrbas index value) s = .next t ∧ t = { s with basis := t.basis } ∧
        t.read .basis index.toNat = some value ∧ ∀ a, a ≠ index.toNat → t.read .basis a = s.read .basis a))

/-- R176, R177: `RDS1` and `RDS2` load one byte of their bank into `R` and change nothing else; an unwritten byte raises
`UnwrittenRead`. -/
def Obligations.BankReadResult : Prop :=
  ∀ (slot offset : Byte) (s : State),
    decode (wordOf 0x38 slot offset 0) = .ok (.rds1 slot offset) ∧
    decode (wordOf 0x39 slot offset 0) = .ok (.rds2 slot offset) ∧
    (¬ (slot.toNat ≤ 254 ∧ offset.toNat ≤ 32) →
      exec (.rds1 slot offset) s = .fault .indexOutOfRange ∧ exec (.rds2 slot offset) s = .fault .indexOutOfRange) ∧
    (slot.toNat ≤ 254 → offset.toNat ≤ 32 →
      (s.read .s1 (bankAddr slot.toNat offset.toNat) = none → exec (.rds1 slot offset) s = .fault .unwrittenRead) ∧
      (s.read .s2 (bankAddr slot.toNat offset.toNat) = none → exec (.rds2 slot offset) s = .fault .unwrittenRead) ∧
      (∀ v, s.read .s1 (bankAddr slot.toNat offset.toNat) = some v →
        exec (.rds1 slot offset) s = .next { s with r := v, rWritten := true }) ∧
      (∀ v, s.read .s2 (bankAddr slot.toNat offset.toNat) = some v →
        exec (.rds2 slot offset) s = .next { s with r := v, rWritten := true }))

/-- R178, R179, R180: `RDKEY`, `RDCOEF`, `RDBAS` load one byte of their buffer into `R` and change nothing else; an unwritten byte
raises `UnwrittenRead`. -/
def Obligations.BufferReadResult : Prop :=
  ∀ (index : Byte) (s : State),
    decode (wordOf 0x3A index 0 0) = .ok (.rdkey index) ∧
    decode (wordOf 0x3B index 0 0) = .ok (.rdcoef index) ∧
    decode (wordOf 0x3C index 0 0) = .ok (.rdbas index) ∧
    (32 ≤ index.toNat → exec (.rdkey index) s = .fault .indexOutOfRange) ∧
    (index.toNat ≤ 31 →
      (s.read .key index.toNat = none → exec (.rdkey index) s = .fault .unwrittenRead) ∧
      (∀ v, s.read .key index.toNat = some v → exec (.rdkey index) s = .next { s with r := v, rWritten := true })) ∧
    (index.toNat = 255 → exec (.rdcoef index) s = .fault .indexOutOfRange ∧
      exec (.rdbas index) s = .fault .indexOutOfRange) ∧
    (index.toNat ≤ 254 →
      (s.read .coef index.toNat = none → exec (.rdcoef index) s = .fault .unwrittenRead) ∧
      (s.read .basis index.toNat = none → exec (.rdbas index) s = .fault .unwrittenRead) ∧
      (∀ v, s.read .coef index.toNat = some v → exec (.rdcoef index) s = .next { s with r := v, rWritten := true }) ∧
      (∀ v, s.read .basis index.toNat = some v → exec (.rdbas index) s = .next { s with r := v, rWritten := true }))

/-- R181, R63: the 33 bytes of a record written with `WRS1` in any order are the slot's 33 bytes, and no other slot's byte changes. -/
def Obligations.RecordWrittenInAnyOrder : Prop :=
  ∀ (slot : Byte) (bytes : Nat → Byte) (os : List Nat) (s : State), slot.toNat ≤ 254 → os.Perm (List.range 33) →
    ∃ t, execAll (os.map fun o => .wrs1 slot (BitVec.ofNat 8 o) (bytes o)) s = .next t ∧
      (∀ o < 33, t.read .s1 (bankAddr slot.toNat o) = some (bytes o)) ∧
      (∀ j o, j ≠ slot.toNat → o < 33 → t.read .s1 (bankAddr j o) = s.read .s1 (bankAddr j o)) ∧
      t = { s with s1 := t.s1 }
end

