-- ==== Sys2Proof/Laws/Decode.lean ====
section
/-! SUPPORT. The fields of a word put together are the word, and the fields of a word put together from four bytes are those bytes. -/

namespace Sys2Proof

theorem getLsbD_wordOf (op a b c : Byte) (i : Nat) :
    (wordOf op a b c).getLsbD i =
      if i < 8 then c.getLsbD i else if i < 16 then b.getLsbD (i - 8)
      else if i < 24 then a.getLsbD (i - 16) else op.getLsbD (i - 24) := by
  simp only [wordOf, BitVec.getLsbD_append]
  by_cases h1 : i < 8
  · simp [h1]
  by_cases h2 : i < 16
  · simp [h1, h2, show i - 8 < 8 by omega]
  by_cases h3 : i < 24
  · simp [h1, h2, h3, show ¬ i - 8 < 8 by omega, show i - 8 - 8 = i - 16 by omega, show i - 16 < 8 by omega]
  · simp [h1, h2, h3, show ¬ i - 8 < 8 by omega, show ¬ i - 8 - 8 < 8 by omega, show i - 8 - 8 - 8 = i - 24 by omega]

@[simp] theorem fieldOp_wordOf (op a b c : Byte) : fieldOp (wordOf op a b c) = op := by
  apply BitVec.eq_of_getLsbD_eq
  intro i hi
  simp only [fieldOp, BitVec.getLsbD_extractLsb', getLsbD_wordOf, show ¬ 24 + i < 8 by omega,
    show ¬ 24 + i < 16 by omega, show ¬ 24 + i < 24 by omega, show 24 + i - 24 = i by omega]
  simp [hi]

@[simp] theorem fieldA_wordOf (op a b c : Byte) : fieldA (wordOf op a b c) = a := by
  apply BitVec.eq_of_getLsbD_eq
  intro i hi
  simp only [fieldA, BitVec.getLsbD_extractLsb', getLsbD_wordOf, show ¬ 16 + i < 8 by omega,
    show ¬ 16 + i < 16 by omega, show 16 + i < 24 by omega, show 16 + i - 16 = i by omega]
  simp [hi]

@[simp] theorem fieldB_wordOf (op a b c : Byte) : fieldB (wordOf op a b c) = b := by
  apply BitVec.eq_of_getLsbD_eq
  intro i hi
  simp only [fieldB, BitVec.getLsbD_extractLsb', getLsbD_wordOf, show ¬ 8 + i < 8 by omega,
    show 8 + i < 16 by omega, show 8 + i - 8 = i by omega]
  simp [hi]

@[simp] theorem fieldC_wordOf (op a b c : Byte) : fieldC (wordOf op a b c) = c := by
  apply BitVec.eq_of_getLsbD_eq
  intro i hi
  simp only [fieldC, BitVec.getLsbD_extractLsb', getLsbD_wordOf, show 0 + i = i by omega]
  simp [hi]

@[simp] theorem wordOf_fields (w : Word) : wordOf (fieldOp w) (fieldA w) (fieldB w) (fieldC w) = w := by
  apply BitVec.eq_of_getLsbD_eq
  intro i hi
  rw [getLsbD_wordOf]
  simp only [fieldOp, fieldA, fieldB, fieldC, BitVec.getLsbD_extractLsb']
  by_cases h1 : i < 8
  · simp [h1]
  by_cases h2 : i < 16
  · simp [h1, h2, show i - 8 < 8 by omega, show 8 + (i - 8) = i by omega]
  by_cases h3 : i < 24
  · simp [h1, h2, h3, show i - 16 < 8 by omega, show 16 + (i - 16) = i by omega]
  · simp [h1, h2, h3, show i - 24 < 8 by omega, show 24 + (i - 24) = i by omega]

/-- Masking a word masks its fields. -/
theorem wordOf_and (op a b c op' a' b' c' : Byte) :
    wordOf op a b c &&& wordOf op' a' b' c' = wordOf (op &&& op') (a &&& a') (b &&& b') (c &&& c') := by
  apply BitVec.eq_of_getLsbD_eq
  intro i hi
  rw [BitVec.getLsbD_and]
  simp only [getLsbD_wordOf]
  split
  · simp
  split
  · simp
  split <;> simp

/-- Two words are equal exactly when their fields are. -/
theorem wordOf_inj {op a b c op' a' b' c' : Byte} :
    wordOf op a b c = wordOf op' a' b' c' ↔ op = op' ∧ a = a' ∧ b = b' ∧ c = c' := by
  constructor
  · intro h
    exact ⟨by simpa using congrArg fieldOp h, by simpa using congrArg fieldA h, by simpa using congrArg fieldB h,
      by simpa using congrArg fieldC h⟩
  · rintro ⟨rfl, rfl, rfl, rfl⟩
    rfl

end Sys2Proof
end

