-- ==== Sys2Proof/Laws/State.lean ====
section
/-! SUPPORT. One lemma per field per update of the state, so that no later proof unfolds a record update. -/

namespace Sys2Proof.Machine

variable (s : State) (b : Buf) (m : Memory) (v : Byte) (g : RngPort) (a : Nat)

/-! ## setMem -/

@[simp] theorem State.setMem_poly : (s.setMem b m).poly = s.poly := by cases b <;> rfl
@[simp] theorem State.setMem_r : (s.setMem b m).r = s.r := by cases b <;> rfl
@[simp] theorem State.setMem_rWritten : (s.setMem b m).rWritten = s.rWritten := by cases b <;> rfl
@[simp] theorem State.setMem_status : (s.setMem b m).status = s.status := by cases b <;> rfl
@[simp] theorem State.setMem_rng : (s.setMem b m).rng = s.rng := by cases b <;> rfl
@[simp] theorem State.setMem_cmds : (s.setMem b m).cmds = s.cmds := by cases b <;> rfl
@[simp] theorem State.setMem_ci : (s.setMem b m).ci = s.ci := by cases b <;> rfl
@[simp] theorem State.mem_setMem_same : (s.setMem b m).mem b = m := by cases b <;> rfl

theorem State.mem_setMem_other {b c : Buf} (h : c ≠ b) : (s.setMem b m).mem c = s.mem c := by
  cases b <;> cases c <;> first | rfl | exact absurd rfl h

@[simp] theorem State.setMem_setMem (m' : Memory) : (s.setMem b m).setMem b m' = s.setMem b m' := by cases b <;> rfl

@[simp] theorem State.setMem_mem : s.setMem b (s.mem b) = s := by cases b <;> rfl

theorem State.setMem_comm {b c : Buf} (h : c ≠ b) (m m' : Memory) :
    (s.setMem b m).setMem c m' = (s.setMem c m').setMem b m := by
  cases b <;> cases c <;> first | rfl | exact absurd rfl h

/-! ## write -/

@[simp] theorem State.write_poly : (s.write b a v).poly = s.poly := by simp [State.write]
@[simp] theorem State.write_r : (s.write b a v).r = s.r := by simp [State.write]
@[simp] theorem State.write_rWritten : (s.write b a v).rWritten = s.rWritten := by simp [State.write]
@[simp] theorem State.write_status : (s.write b a v).status = s.status := by simp [State.write]
@[simp] theorem State.write_rng : (s.write b a v).rng = s.rng := by simp [State.write]
@[simp] theorem State.write_cmds : (s.write b a v).cmds = s.cmds := by simp [State.write]
@[simp] theorem State.write_ci : (s.write b a v).ci = s.ci := by simp [State.write]
@[simp] theorem State.mem_write_same : (s.write b a v).mem b = (s.mem b).write a v := by simp [State.write]

theorem State.mem_write_other {b c : Buf} (h : c ≠ b) : (s.write b a v).mem c = s.mem c :=
  State.mem_setMem_other s _ h

/-! ## writeR -/

@[simp] theorem State.writeR_poly : (s.writeR v).poly = s.poly := rfl
@[simp] theorem State.writeR_r : (s.writeR v).r = v := rfl
@[simp] theorem State.writeR_rWritten : (s.writeR v).rWritten = true := rfl
@[simp] theorem State.writeR_status : (s.writeR v).status = s.status := rfl
@[simp] theorem State.writeR_rng : (s.writeR v).rng = s.rng := rfl
@[simp] theorem State.writeR_cmds : (s.writeR v).cmds = s.cmds := rfl
@[simp] theorem State.writeR_ci : (s.writeR v).ci = s.ci := rfl
@[simp] theorem State.writeR_mem : (s.writeR v).mem b = s.mem b := by cases b <;> rfl
@[simp] theorem State.writeR_read : (s.writeR v).read b a = s.read b a := by simp [State.read]

/-! ## setStatus -/

@[simp] theorem State.setStatus_poly : (s.setStatus v).poly = s.poly := rfl
@[simp] theorem State.setStatus_r : (s.setStatus v).r = s.r := rfl
@[simp] theorem State.setStatus_rWritten : (s.setStatus v).rWritten = s.rWritten := rfl
@[simp] theorem State.setStatus_status : (s.setStatus v).status = v := rfl
@[simp] theorem State.setStatus_rng : (s.setStatus v).rng = s.rng := rfl
@[simp] theorem State.setStatus_cmds : (s.setStatus v).cmds = s.cmds := rfl
@[simp] theorem State.setStatus_ci : (s.setStatus v).ci = s.ci := rfl
@[simp] theorem State.setStatus_mem : (s.setStatus v).mem b = s.mem b := by cases b <;> rfl
@[simp] theorem State.setStatus_read : (s.setStatus v).read b a = s.read b a := by simp [State.read]

/-! ## setRng -/

@[simp] theorem State.setRng_poly : (s.setRng g).poly = s.poly := rfl
@[simp] theorem State.setRng_r : (s.setRng g).r = s.r := rfl
@[simp] theorem State.setRng_rWritten : (s.setRng g).rWritten = s.rWritten := rfl
@[simp] theorem State.setRng_status : (s.setRng g).status = s.status := rfl
@[simp] theorem State.setRng_rng : (s.setRng g).rng = g := rfl
@[simp] theorem State.setRng_cmds : (s.setRng g).cmds = s.cmds := rfl
@[simp] theorem State.setRng_ci : (s.setRng g).ci = s.ci := rfl
@[simp] theorem State.setRng_mem : (s.setRng g).mem b = s.mem b := by cases b <;> rfl
@[simp] theorem State.setRng_read : (s.setRng g).read b a = s.read b a := by simp [State.read]

/-! ## advance -/

@[simp] theorem State.advance_poly : s.advance.poly = s.poly := rfl
@[simp] theorem State.advance_r : s.advance.r = s.r := rfl
@[simp] theorem State.advance_rWritten : s.advance.rWritten = s.rWritten := rfl
@[simp] theorem State.advance_status : s.advance.status = s.status := rfl
@[simp] theorem State.advance_rng : s.advance.rng = s.rng := rfl
@[simp] theorem State.advance_cmds : s.advance.cmds = s.cmds := rfl
@[simp] theorem State.advance_ci : s.advance.ci = s.ci + 1 := rfl
@[simp] theorem State.advance_mem : s.advance.mem b = s.mem b := by cases b <;> rfl
@[simp] theorem State.advance_read : s.advance.read b a = s.read b a := by simp [State.read]

end Sys2Proof.Machine
end

