-- ==== Sys2Proof/Laws/Memory.lean ====
section
/-! SUPPORT. Read after write, and that a write keeps the canonical form of a buffer. -/

namespace Sys2Proof.Machine

@[simp] theorem Memory.read_nil (a : Nat) : Memory.read [] a = none := rfl

@[simp] theorem Memory.read_write_same (m : Memory) (a : Nat) (v : Byte) : (Memory.write m a v).read a = some v := by
  induction m with
  | nil => simp [Memory.write, Memory.read]
  | cons c m ih =>
    obtain ⟨b, w⟩ := c
    unfold Memory.write
    split
    · simp [Memory.read]
    · split
      · simp [Memory.read]
      · rename_i h
        simp [Memory.read, h, ih]

theorem Memory.read_write_other (m : Memory) {a a' : Nat} (v : Byte) (h : a' ≠ a) :
    (Memory.write m a v).read a' = Memory.read m a' := by
  induction m with
  | nil => simp [Memory.write, Memory.read, h]
  | cons c m ih =>
    obtain ⟨b, w⟩ := c
    unfold Memory.write
    split
    · simp [Memory.read, h]
    · split
      · rename_i hab
        subst hab
        simp [Memory.read, h]
      · simp [Memory.read, ih]

theorem Memory.wf_tail {c : Host.Cell} {m : Memory} (h : Memory.wf (c :: m) = true) : Memory.wf m = true := by
  obtain ⟨a, v⟩ := c
  cases m with
  | nil => rfl
  | cons d m =>
    obtain ⟨b, w⟩ := d
    simp only [Memory.wf, Bool.and_eq_true] at h
    exact h.2

theorem Memory.wf_cons {a : Nat} {v : Byte} {m : Memory} (h : Memory.wf m = true)
    (hlt : ∀ c ∈ m.head?, a < c.1) : Memory.wf ((a, v) :: m) = true := by
  cases m with
  | nil => rfl
  | cons d m =>
    obtain ⟨b, w⟩ := d
    have : a < b := hlt (b, w) (by simp)
    simp [Memory.wf, this, h]

theorem Memory.head_lt_of_wf {a : Nat} {v : Byte} {m : Memory} (h : Memory.wf ((a, v) :: m) = true) :
    ∀ c ∈ m.head?, a < c.1 := by
  cases m with
  | nil => simp
  | cons d m =>
    obtain ⟨b, w⟩ := d
    simp only [Memory.wf, Bool.and_eq_true, decide_eq_true_eq] at h
    simpa using h.1

/-- A write keeps the canonical form. -/
theorem Memory.wf_write {m : Memory} (a : Nat) (v : Byte) (h : m.wf = true) : (Memory.write m a v).wf = true := by
  induction m with
  | nil => rfl
  | cons c m ih =>
    obtain ⟨b, w⟩ := c
    unfold Memory.write
    split
    · rename_i hab
      exact Memory.wf_cons h (by simpa using hab)
    · split
      · rename_i hab
        subst hab
        exact Memory.wf_cons (Memory.wf_tail h) (Memory.head_lt_of_wf h)
      · rename_i h1 h2
        refine Memory.wf_cons (ih (Memory.wf_tail h)) ?_
        intro c hc
        cases m with
        | nil =>
          simp [Memory.write] at hc
          subst hc
          show b < a
          omega
        | cons d m =>
          obtain ⟨e, u⟩ := d
          have he : b < e := Memory.head_lt_of_wf h (e, u) (by simp)
          simp only [Memory.write] at hc
          split at hc
          · simp at hc; subst hc; show b < a; omega
          · split at hc
            · simp at hc; subst hc; show b < a; omega
            · simp at hc; subst hc; exact he

/-- A write at an index below `n` lists only indices below `n`. -/
theorem Memory.within_write {m : Memory} {n a : Nat} (v : Byte) (ha : a < n) (h : m.within n = true) :
    (Memory.write m a v).within n = true := by
  induction m with
  | nil => simp [Memory.write, Memory.within, ha]
  | cons c m ih =>
    obtain ⟨b, w⟩ := c
    simp only [Memory.within, List.all_cons, Bool.and_eq_true, decide_eq_true_eq] at h ih ⊢
    unfold Memory.write
    split
    · simp only [List.all_cons, Bool.and_eq_true, decide_eq_true_eq]
      exact ⟨ha, h.1, h.2⟩
    · split
      · simp only [List.all_cons, Bool.and_eq_true, decide_eq_true_eq]
        exact ⟨ha, h.2⟩
      · simp only [List.all_cons, Bool.and_eq_true, decide_eq_true_eq]
        exact ⟨h.1, ih h.2⟩

/-- Where no storage is listed, nothing is read. -/
theorem Memory.read_eq_none_of_within {m : Memory} {n a : Nat} (h : m.within n = true) (ha : n ≤ a) :
    m.read a = none := by
  induction m with
  | nil => rfl
  | cons c m ih =>
    obtain ⟨b, w⟩ := c
    simp only [Memory.within, List.all_cons, Bool.and_eq_true, decide_eq_true_eq] at h
    have hne : a ≠ b := by omega
    simp only [Memory.read, if_neg hne]
    exact ih h.2

/-- Every buffer of the state after reset is in canonical form. -/
theorem State.reset_mem_wf (b : Buf) : (State.reset.mem b).wf = true := by cases b <;> rfl

/-! ## Through a state -/

@[simp] theorem State.read_write_same (s : State) (b : Buf) (a : Nat) (v : Byte) :
    (s.write b a v).read b a = some v := by simp [State.read]

theorem State.read_write_index (s : State) (b : Buf) {a a' : Nat} (v : Byte) (h : a' ≠ a) :
    (s.write b a v).read b a' = s.read b a' := by
  simp only [State.read, State.mem_write_same]
  exact Memory.read_write_other _ v h

theorem State.read_write_buf (s : State) {b c : Buf} (a a' : Nat) (v : Byte) (h : c ≠ b) :
    (s.write b a v).read c a' = s.read c a' := by
  simp only [State.read, State.mem_write_other s v a h]

theorem State.read_write (s : State) (b c : Buf) (a a' : Nat) (v : Byte) :
    (s.write b a v).read c a' = if c = b ∧ a' = a then some v else s.read c a' := by
  by_cases hb : c = b
  · subst hb
    by_cases ha : a' = a
    · simp [ha]
    · simp [ha, State.read_write_index s c v ha]
  · simp [hb, State.read_write_buf s a a' v hb]

end Sys2Proof.Machine
end

