-- ==== Sys2Proof/Laws/Ops.lean ====
section
/-! SUPPORT. What each shared operation can do, said once: buffer reads, runs of writes, loops, the RNG port, the endings, and
the step. -/

namespace Sys2Proof.Machine

/-! ## Reads -/

theorem State.bufRead_ok {s : State} {b : Buf} {a : Nat} {v : Byte} : s.bufRead b a = .ok v ↔ s.read b a = some v := by
  unfold State.bufRead
  cases s.read b a <;> simp

theorem State.bufRead_error {s : State} {b : Buf} {a : Nat} {f : Fault} :
    s.bufRead b a = .error f ↔ s.read b a = none ∧ f = .unwrittenRead := by
  unfold State.bufRead
  cases s.read b a <;> simp [eq_comm]

theorem State.bufRead_congr {s t : State} {b : Buf} {a : Nat} (h : s.read b a = t.read b a) :
    s.bufRead b a = t.bufRead b a := by
  simp only [State.bufRead, h]

theorem State.readAll_ok {s : State} {b : Buf} {as : List Nat} {vs : List Byte} :
    s.readAll b as = .ok vs ↔ as.map (s.read b) = vs.map some := by
  induction as generalizing vs with
  | nil => cases vs <;> simp [State.readAll]
  | cons a as ih =>
    unfold State.readAll
    cases h : s.bufRead b a with
    | error f =>
      have := (State.bufRead_error.mp h).1
      cases vs <;> simp [this]
    | ok v =>
      have hv := State.bufRead_ok.mp h
      cases h2 : s.readAll b as with
      | error f =>
        cases vs with
        | nil => simp
        | cons w ws =>
          simp only [List.map_cons, List.cons.injEq, reduceCtorEq, false_iff, not_and]
          intro _ hc
          rw [← ih] at hc
          simp [h2] at hc
      | ok us =>
        have hu := (ih (vs := us)).mp h2
        cases vs with
        | nil => simp
        | cons w ws =>
          simp only [Except.ok.injEq, List.cons.injEq, List.map_cons, hv, hu, Option.some.injEq]
          constructor
          · rintro ⟨rfl, rfl⟩; exact ⟨rfl, rfl⟩
          · rintro ⟨rfl, h3⟩
            exact ⟨rfl, (List.map_injective_iff.mpr (Option.some_injective _)) h3⟩

theorem State.readAll_length {s : State} {b : Buf} {as : List Nat} {vs : List Byte} (h : s.readAll b as = .ok vs) :
    vs.length = as.length := by
  have := congrArg List.length (State.readAll_ok.mp h)
  simpa using this.symm

theorem State.readAll_error {s : State} {b : Buf} {as : List Nat} {f : Fault} :
    s.readAll b as = .error f ↔ f = .unwrittenRead ∧ ∃ a ∈ as, s.read b a = none := by
  induction as with
  | nil => simp [State.readAll]
  | cons a as ih =>
    unfold State.readAll
    cases h : s.bufRead b a with
    | error e =>
      obtain ⟨h1, rfl⟩ := State.bufRead_error.mp h
      simp [h1, eq_comm]
    | ok v =>
      have hv := State.bufRead_ok.mp h
      cases h2 : s.readAll b as with
      | error e =>
        rw [h2] at ih
        simpa [hv] using ih
      | ok us =>
        rw [h2] at ih
        simpa [hv] using ih

/-- All the listed bytes being written, the read gives them. -/
theorem State.readAll_of_forall {s : State} {b : Buf} {as : List Nat} {c : Nat → Byte}
    (h : ∀ a ∈ as, s.read b a = some (c a)) : s.readAll b as = .ok (as.map c) := by
  rw [State.readAll_ok, List.map_map]
  exact List.map_congr_left h

theorem State.readAll_congr {s t : State} {b : Buf} {as : List Nat} (h : ∀ a ∈ as, s.read b a = t.read b a) :
    s.readAll b as = t.readAll b as := by
  induction as with
  | nil => rfl
  | cons a as ih =>
    have h1 := State.bufRead_congr (h a (by simp))
    have h2 := ih fun x hx => h x (by simp [hx])
    simp only [State.readAll, h1, h2]

theorem written_iff {s : State} {b : Buf} {as : List Nat} : written s b as = true ↔ ∀ a ∈ as, ∃ v, s.read b a = some v := by
  simp [written, Option.isSome_iff_exists]

/-- A read of several bytes succeeds exactly when all of them are written. -/
theorem readAll_ok_iff_written {s : State} {b : Buf} {as : List Nat} :
    (∃ vs, s.readAll b as = .ok vs) ↔ written s b as = true := by
  rw [written_iff]
  constructor
  · rintro ⟨vs, h⟩ a ha
    cases hr : s.read b a with
    | some v => exact ⟨v, rfl⟩
    | none =>
      have := State.readAll_error.mpr ⟨rfl, a, ha, hr⟩
      rw [h] at this
      cases this
  · intro h
    cases hr : s.readAll b as with
    | ok vs => exact ⟨vs, rfl⟩
    | error f =>
      obtain ⟨_, a, ha, hn⟩ := State.readAll_error.mp hr
      obtain ⟨v, hv⟩ := h a ha
      simp [hn] at hv

/-! ## A run of writes -/

/-- A run of writes changes one buffer only. -/
theorem State.writeFrom_frame (s : State) (b : Buf) (a : Nat) (vs : List Byte) :
    ∃ m, s.writeFrom b a vs = s.setMem b m := by
  induction vs generalizing s a with
  | nil => exact ⟨s.mem b, by simp [State.writeFrom]⟩
  | cons v vs ih =>
    obtain ⟨m, hm⟩ := ih (s.write b a v) (a + 1)
    exact ⟨m, by rw [State.writeFrom, hm]; simp [State.write]⟩

theorem State.read_writeFrom_outside (s : State) (b : Buf) {a a' : Nat} (vs : List Byte)
    (h : a' < a ∨ a + vs.length ≤ a') : (s.writeFrom b a vs).read b a' = s.read b a' := by
  induction vs generalizing s a with
  | nil => rfl
  | cons v vs ih =>
    simp only [List.length_cons] at h
    rw [State.writeFrom, ih _ (by omega), State.read_write_index _ _ _ (by omega)]

theorem State.read_writeFrom_inside (s : State) (b : Buf) (a : Nat) (vs : List Byte) {j : Nat} (h : j < vs.length) :
    (s.writeFrom b a vs).read b (a + j) = some (vs[j]) := by
  induction vs generalizing s a j with
  | nil => simp at h
  | cons v vs ih =>
    rw [State.writeFrom]
    cases j with
    | zero => rw [State.read_writeFrom_outside _ _ _ (by omega)]; simp
    | succ j =>
      have := ih (s.write b a v) (a + 1) (j := j) (by simpa using h)
      rw [show a + (j + 1) = a + 1 + j by omega, this]
      simp

theorem State.read_setMem_other (s : State) {b c : Buf} (m : Memory) (a : Nat) (h : c ≠ b) :
    (s.setMem b m).read c a = s.read c a := by
  simp only [State.read, State.mem_setMem_other s m h]

/-! ## Loops -/

/-- What every turn keeps, the loop keeps. -/
theorem forEach_keeps {P : State → Prop} {f : Nat → State → Except Fault State} {l : List Nat} {s t : State}
    (hf : ∀ i ∈ l, ∀ u v, P u → f i u = .ok v → P v) (hs : P s) (h : forEach f l s = .ok t) : P t := by
  induction l generalizing s with
  | nil => cases h; exact hs
  | cons i is ih =>
    unfold forEach at h
    cases hi : f i s with
    | error e => simp [hi] at h
    | ok u =>
      rw [hi] at h
      exact ih (fun j hj => hf j (by simp [hj])) (hf i (by simp) s u hs hi) h

/-- A loop whose turns all complete completes. -/
theorem forEach_completes {P : State → Prop} {f : Nat → State → Except Fault State} {l : List Nat} {s : State}
    (hf : ∀ i ∈ l, ∀ u, P u → ∃ v, f i u = .ok v ∧ P v) (hs : P s) : ∃ t, forEach f l s = .ok t ∧ P t := by
  induction l generalizing s with
  | nil => exact ⟨s, rfl, hs⟩
  | cons i is ih =>
    obtain ⟨u, hu, hp⟩ := hf i (by simp) s hs
    obtain ⟨t, ht, hpt⟩ := ih (fun j hj => hf j (by simp [hj])) hp
    exact ⟨t, by unfold forEach; rw [hu]; exact ht, hpt⟩

/-- A loop faults with the fault of some turn. -/
theorem forEach_error {f : Nat → State → Except Fault State} {l : List Nat} {s : State} {e : Fault}
    (h : forEach f l s = .error e) : ∃ i ∈ l, ∃ u, f i u = .error e := by
  induction l generalizing s with
  | nil => cases h
  | cons i is ih =>
    unfold forEach at h
    cases hi : f i s with
    | error e' =>
      rw [hi] at h
      cases h
      exact ⟨i, by simp, s, hi⟩
    | ok u =>
      rw [hi] at h
      obtain ⟨j, hj, u', hu'⟩ := ih h
      exact ⟨j, by simp [hj], u', hu'⟩

theorem forEach_append (f : Nat → State → Except Fault State) (l l' : List Nat) (s : State) :
    forEach f (l ++ l') s = match forEach f l s with
      | .error e => .error e
      | .ok t => forEach f l' t := by
  induction l generalizing s with
  | nil => rfl
  | cons i is ih =>
    simp only [List.cons_append, forEach]
    cases f i s with
    | error e => rfl
    | ok u => exact ih u

/-- A loop whose every turn changes buffer `b` only changes buffer `b` only. -/
theorem forEach_frame {f : Nat → State → Except Fault State} {l : List Nat} {s t : State} {b : Buf}
    (hf : ∀ i ∈ l, ∀ u v, f i u = .ok v → ∃ m, v = u.setMem b m) (h : forEach f l s = .ok t) :
    ∃ m, t = s.setMem b m := by
  refine forEach_keeps (P := fun u => ∃ m, u = s.setMem b m) ?_ ⟨s.mem b, by simp⟩ h
  rintro i hi u v ⟨m, rfl⟩ huv
  obtain ⟨m', rfl⟩ := hf i hi _ _ huv
  exact ⟨m', by simp⟩

/-- A loop of writes to distinct places of buffer `b`, each turn's byte depending on nothing that the loop writes
elsewhere: it completes, each place holds its byte, and nothing else changes. -/
theorem forEach_writes {f : Nat → State → Except Fault State} {b : Buf} {place : Nat → Nat} {val : Nat → Byte}
    {l : List Nat} {s : State} (hl : l.Nodup) (hp : ∀ i ∈ l, ∀ j ∈ l, place i = place j → i = j)
    (hf : ∀ i ∈ l, ∀ u, (∃ m, u = s.setMem b m) → u.read b (place i) = s.read b (place i) →
      f i u = .ok (u.write b (place i) (val i))) :
    ∃ t, forEach f l s = .ok t ∧ (∃ m, t = s.setMem b m) ∧ (∀ i ∈ l, t.read b (place i) = some (val i)) ∧
      ∀ a, (∀ i ∈ l, a ≠ place i) → t.read b a = s.read b a := by
  suffices H : ∀ (l' : List Nat) (u : State), l'.Nodup → (∀ i ∈ l', i ∈ l) → (∃ m, u = s.setMem b m) →
      (∀ i ∈ l', u.read b (place i) = s.read b (place i)) →
      ∃ t, forEach f l' u = .ok t ∧ (∃ m, t = s.setMem b m) ∧ (∀ i ∈ l', t.read b (place i) = some (val i)) ∧
        ∀ a, (∀ i ∈ l', a ≠ place i) → t.read b a = u.read b a from
    H l s hl (fun i hi => hi) ⟨s.mem b, by simp⟩ fun i _ => rfl
  intro l'
  induction l' with
  | nil => exact fun u _ _ hu _ => ⟨u, rfl, hu, by simp, fun _ _ => rfl⟩
  | cons i is ih =>
    intro u hn hin hu hr
    obtain ⟨m, hm⟩ := hu
    have hne : ∀ j ∈ is, place j ≠ place i := fun j hj he => by
      have := hp j (hin j (by simp [hj])) i (hin i (by simp)) he
      exact (List.nodup_cons.mp hn).1 (this ▸ hj)
    have hstep := hf i (hin i (by simp)) u ⟨m, hm⟩ (hr i (by simp))
    obtain ⟨t, ht, hm', hv, ho⟩ := ih (u.write b (place i) (val i)) (List.nodup_cons.mp hn).2
      (fun j hj => hin j (by simp [hj])) ⟨_, by rw [hm, State.write, State.setMem_setMem]⟩
      (fun j hj => by rw [State.read_write_index _ _ _ (hne j hj)]; exact hr j (by simp [hj]))
    refine ⟨t, by unfold forEach; rw [hstep]; exact ht, hm', ?_, ?_⟩
    · intro j hj
      rcases List.mem_cons.mp hj with rfl | hj
      · rw [ho _ fun j' hj' he => hne j' hj' he.symm]
        simp
      · exact hv j hj
    · intro a ha
      rw [ho a fun j hj => ha j (by simp [hj]), State.read_write_index _ _ _ (ha i (by simp))]

/-! ## The RNG port -/

theorem RngPort.next_none {g : RngPort} : g.next = none ↔ g.canSupply 1 = false := by
  unfold RngPort.next RngPort.canSupply
  cases g.supplied with
  | nil => cases g.endless <;> simp
  | cons v vs => cases g.endless <;> simp

theorem RngPort.canSupply_of_next {g g' : RngPort} {v : Byte} (h : g.next = some (v, g')) (n : Nat) :
    g.canSupply (n + 1) = g'.canSupply n := by
  unfold RngPort.next at h
  unfold RngPort.canSupply
  cases hs : g.supplied with
  | nil =>
    cases he : g.endless with
    | false => simp [hs, he] at h
    | true =>
      simp only [hs, he, if_true, Option.some.injEq, Prod.mk.injEq] at h
      obtain ⟨_, rfl⟩ := h
      simp
  | cons w ws =>
    simp only [hs, Option.some.injEq, Prod.mk.injEq] at h
    obtain ⟨_, rfl⟩ := h
    simp

/-- What a run of draws gives: as many bytes as asked for, and the port after them. -/
theorem RngPort.draw_ok {n : Nat} {g g' : RngPort} {vs : List Byte} (h : RngPort.draw n g = .ok (vs, g')) :
    vs.length = n ∧ g' = RngPort.skip n g ∧ g.canSupply n = true := by
  induction n generalizing g g' vs with
  | zero =>
    simp only [RngPort.draw, Except.ok.injEq, Prod.mk.injEq] at h
    obtain ⟨rfl, rfl⟩ := h
    simp [RngPort.skip, RngPort.canSupply]
  | succ n ih =>
    unfold RngPort.draw at h
    cases hn : g.next with
    | none => simp [hn] at h
    | some p =>
      obtain ⟨v, g1⟩ := p
      rw [hn] at h
      cases hd : RngPort.draw n g1 with
      | error e => simp [hd] at h
      | ok q =>
        obtain ⟨us, g2⟩ := q
        simp only [hd, Except.ok.injEq, Prod.mk.injEq] at h
        obtain ⟨rfl, rfl⟩ := h
        obtain ⟨h1, h2, h3⟩ := ih hd
        refine ⟨by simp [h1], ?_, ?_⟩
        · rw [h2, RngPort.skip, hn]
        · rw [RngPort.canSupply_of_next hn, h3]

/-- A run of draws faults only with `RngFailure`, and exactly when the port cannot supply the bytes. -/
theorem RngPort.draw_error {n : Nat} {g : RngPort} {f : Fault} :
    RngPort.draw n g = .error f ↔ f = .rngFailure ∧ g.canSupply n = false := by
  induction n generalizing g with
  | zero => simp [RngPort.draw, RngPort.canSupply]
  | succ n ih =>
    unfold RngPort.draw
    cases hn : g.next with
    | none =>
      have h1 := RngPort.next_none.mp hn
      have h2 : g.canSupply (n + 1) = false := by
        simp only [RngPort.canSupply, Bool.or_eq_false_iff, decide_eq_false_iff_not] at h1 ⊢
        exact ⟨h1.1, by omega⟩
      simp [h2, eq_comm]
    | some p =>
      obtain ⟨v, g1⟩ := p
      rw [RngPort.canSupply_of_next hn]
      have := ih (g := g1)
      cases hd : RngPort.draw n g1 with
      | error e => rw [hd] at this; simp only [hd]; simpa using this
      | ok q => rw [hd] at this; simp only [hd]; simpa using this

/-- The draws of a run are those of its first part and then those of its second. -/
theorem RngPort.draw_add (m n : Nat) (g : RngPort) :
    RngPort.draw (m + n) g = match RngPort.draw m g with
      | .error f => .error f
      | .ok (vs, g') =>
        match RngPort.draw n g' with
        | .error f => .error f
        | .ok (us, g'') => .ok (vs ++ us, g'') := by
  induction m generalizing g with
  | zero =>
    simp only [Nat.zero_add, RngPort.draw]
    cases RngPort.draw n g with
    | error f => rfl
    | ok q => rfl
  | succ m ih =>
    rw [show m + 1 + n = (m + n) + 1 by omega]
    simp only [RngPort.draw]
    cases g.next with
    | none => rfl
    | some p =>
      obtain ⟨v, g1⟩ := p
      simp only [ih g1]
      cases RngPort.draw m g1 with
      | error f => rfl
      | ok q =>
        obtain ⟨vs, g2⟩ := q
        dsimp only
        cases RngPort.draw n g2 with
        | error f => rfl
        | ok q => rfl

/-! ## Endings -/

theorem require_next {c : Bool} {f : Fault} {o : Host.Outcome State Fault Refusal} {t : State} :
    require c f o = .next t ↔ c = true ∧ o = .next t := by
  cases c <;> simp [require]

theorem require_fault {c : Bool} {f e : Fault} {o : Host.Outcome State Fault Refusal} :
    require c f o = .fault e ↔ (c = false ∧ f = e) ∨ (c = true ∧ o = .fault e) := by
  cases c <;> simp [require]

theorem require_refused {c : Bool} {f : Fault} {r : Refusal} {o : Host.Outcome State Fault Refusal} :
    require c f o = .refused r ↔ c = true ∧ o = .refused r := by
  cases c <;> simp [require]

theorem finish_next {e : Except Fault State} {t : State} : finish e = .next t ↔ e = .ok t := by
  cases e <;> simp [finish]

theorem finish_fault {e : Except Fault State} {f : Fault} : finish e = .fault f ↔ e = .error f := by
  cases e <;> simp [finish]

theorem finish_not_refused {e : Except Fault State} {r : Refusal} : finish e ≠ .refused r := by
  cases e <;> simp [finish]

theorem complete_next {o : Host.Outcome State Fault Refusal} {t : State} :
    complete o = .next t ↔ ∃ u, o = .next u ∧ t = u.advance := by
  cases o <;> simp [complete, eq_comm]

/-- Everything a step that answers a next state can have done: nothing, with no command presented, or one whole command. -/
theorem step_cases {s t : State} (h : step s = .next t) :
    (s.fetch = none ∧ t = s) ∨
      ∃ w i u, s.fetch = some w ∧ decode w = .ok i ∧ exec i s = .next u ∧ t = u.advance := by
  unfold step at h
  cases hw : s.fetch with
  | none =>
    rw [hw] at h
    simp only [idle, Host.Outcome.next.injEq] at h
    exact .inl ⟨rfl, h.symm⟩
  | some w =>
    rw [hw] at h
    cases hd : decode w with
    | error e => simp [hd] at h
    | ok i =>
      simp only [hd] at h
      obtain ⟨u, hu, ht⟩ := complete_next.mp h
      exact .inr ⟨w, i, u, rfl, hd, hu, ht⟩

/-- A command can be presented only while the index is inside the list. -/
theorem State.fetch_some {s : State} {w : Word} (h : s.fetch = some w) : s.ci < s.cmds.length :=
  (List.getElem?_eq_some_iff.mp h).1

end Sys2Proof.Machine
end

