-- ==== Sys2Proof/Laws/Exec.lean ====
section
/-! SUPPORT. What each operation of the command families does, said once: loads and stores, the share generator's lanes, the basis
synthesizer, the interpolator, the adder's pairs. -/

namespace Sys2Proof.Machine

/-! ## Places in a bank -/

theorem bankAddr_inj {p o q r : Nat} (ho : o < 33) (hr : r < 33) : bankAddr p o = bankAddr q r ↔ p = q ∧ o = r := by
  simp only [bankAddr, Config.shareBytes]
  constructor
  · intro h
    omega
  · rintro ⟨rfl, rfl⟩
    rfl

theorem bankAddr_lt {p o : Nat} (hp : p < 255) (ho : o < 33) : bankAddr p o < 33 * 255 := by
  simp only [bankAddr, Config.shareBytes]
  omega

@[simp] theorem bankBuf_ne_key (bank : Bank) : bankBuf bank ≠ .key := by cases bank <;> simp [bankBuf]

theorem countOk_iff {k : Byte} : countOk k = true ↔ 1 ≤ k.toNat := by simp [countOk]

theorem thresholdOk_iff {n k : Byte} : thresholdOk n k = true ↔ 1 ≤ k.toNat ∧ k.toNat ≤ n.toNat := by simp [thresholdOk]

theorem slotOk_iff {p : Byte} : slotOk p = true ↔ p.toNat < 255 := decide_eq_true_iff

theorem offsetOk_iff {o : Byte} : offsetOk o = true ↔ o.toNat < 33 := decide_eq_true_iff

theorem keyIndexOk_iff {j : Byte} : keyIndexOk j = true ↔ j.toNat < 32 := decide_eq_true_iff

theorem coefIndexOk_iff {j : Byte} : coefIndexOk j = true ↔ j.toNat < 255 := decide_eq_true_iff

theorem basisIndexOk_iff {j : Byte} : basisIndexOk j = true ↔ j.toNat < 255 := decide_eq_true_iff

/-! ## Loads and stores -/

theorem storeByte_next {c : Bool} {b : Buf} {a : Nat} {v : Byte} {s t : State} :
    storeByte c b a v s = .next t ↔ c = true ∧ t = s.write b a v := by
  simp only [storeByte, require_next, Host.Outcome.next.injEq, eq_comm (a := t)]

theorem storeByte_fault {c : Bool} {b : Buf} {a : Nat} {v : Byte} {s : State} {f : Fault} :
    storeByte c b a v s = .fault f ↔ c = false ∧ f = .indexOutOfRange := by
  simp only [storeByte, require_fault, reduceCtorEq, and_false, or_false, eq_comm (a := f)]

theorem loadByte_next {c : Bool} {b : Buf} {a : Nat} {s t : State} :
    loadByte c b a s = .next t ↔ c = true ∧ ∃ v, s.read b a = some v ∧ t = s.writeR v := by
  simp only [loadByte, require_next, State.bufRead]
  cases s.read b a <;> simp [eq_comm]

theorem loadByte_fault {c : Bool} {b : Buf} {a : Nat} {s : State} {f : Fault} :
    loadByte c b a s = .fault f ↔
      (c = false ∧ f = .indexOutOfRange) ∨ (c = true ∧ s.read b a = none ∧ f = .unwrittenRead) := by
  simp only [loadByte, require_fault, State.bufRead]
  cases s.read b a <;> simp [eq_comm]

/-! ## The share generator -/

/-- A lane whose key byte is written and whose draws succeed writes the `n` y-values of its byte position, and takes the draws. -/
theorem splitLane_spec {d : Buf} {n k b : Nat} {s : State} {c0 : Byte} {cs : List Byte} {g : RngPort}
    (hb : b < 32) (h0 : s.read .key b = some c0) (hg : RngPort.draw (k - 1) s.rng = .ok (cs, g)) :
    ∃ t, splitLane d n k b s = .ok t ∧ (∃ m, t = (s.setRng g).setMem d m) ∧
      (∀ slot < n, t.read d (yAddr slot b) = some (horner s.poly (BitVec.ofNat 8 (slot + 1)) (c0 :: cs))) ∧
      ∀ a, (∀ slot < n, a ≠ yAddr slot b) → t.read d a = s.read d a := by
  obtain ⟨t, ht, hm, hv, ho⟩ := forEach_writes (f := splitShare d (c0 :: cs) b) (b := d) (place := fun slot => yAddr slot b)
    (val := fun slot => horner s.poly (BitVec.ofNat 8 (slot + 1)) (c0 :: cs)) (l := List.range n) (s := s.setRng g)
    List.nodup_range (fun i _ j _ h => ((bankAddr_inj (by omega) (by omega)).mp h).1)
    (by rintro i _ u ⟨m, rfl⟩ _; simp [splitShare])
  refine ⟨t, ?_, hm, fun slot h => hv slot (by simpa using h), fun a ha => ?_⟩
  · simp only [splitLane, State.bufRead_ok.mpr h0, hg]
    exact ht
  · rw [ho a fun i hi => ha i (by simpa using hi), State.setRng_read]

/-- The lanes of byte positions 0..B-1, all their key bytes written and the port able to give their draws. -/
theorem splitLanes_spec {d : Buf} (hd : d ≠ .key) {n k : Nat} {s : State} {key : Nat → Byte} (B : Nat) (hB : B ≤ 32)
    {ds : List Byte} {g : RngPort} (hk : ∀ b < B, s.read .key b = some (key b))
    (hg : RngPort.draw (B * (k - 1)) s.rng = .ok (ds, g)) :
    ∃ t, forEach (splitLane d n k) (List.range B) s = .ok t ∧ (∃ m, t = (s.setRng g).setMem d m) ∧
      (∀ slot < n, ∀ b < B, t.read d (yAddr slot b) =
        some (horner s.poly (BitVec.ofNat 8 (slot + 1)) (key b :: (ds.drop ((k - 1) * b)).take (k - 1)))) ∧
      ∀ a, (∀ slot < n, ∀ b < B, a ≠ yAddr slot b) → t.read d a = s.read d a := by
  induction B generalizing ds g with
  | zero =>
    simp only [Nat.zero_mul, RngPort.draw, Except.ok.injEq, Prod.mk.injEq] at hg
    obtain ⟨rfl, rfl⟩ := hg
    refine ⟨s, rfl, ⟨s.mem d, ?_⟩, by simp, by simp⟩
    have : s.setRng s.rng = s := rfl
    rw [this, State.setMem_mem]
  | succ B ih =>
    rw [Nat.succ_mul, RngPort.draw_add] at hg
    cases h1 : RngPort.draw (B * (k - 1)) s.rng with
    | error f => simp [h1] at hg
    | ok q =>
      obtain ⟨vs, g1⟩ := q
      simp only [h1] at hg
      cases h2 : RngPort.draw (k - 1) g1 with
      | error f => simp [h2] at hg
      | ok q2 =>
        obtain ⟨us, g2⟩ := q2
        simp only [h2, Except.ok.injEq, Prod.mk.injEq] at hg
        obtain ⟨rfl, rfl⟩ := hg
        have hvs : vs.length = B * (k - 1) := (RngPort.draw_ok h1).1
        have hus : us.length = k - 1 := (RngPort.draw_ok h2).1
        obtain ⟨t1, ht1, ⟨m, hm⟩, hv1, ho1⟩ := ih (by omega) (fun b hb => hk b (by omega)) h1
        have hr : t1.rng = g1 := by rw [hm]; simp
        have hp : t1.poly = s.poly := by rw [hm]; simp
        have hkey : t1.read .key B = some (key B) := by
          rw [hm, State.read_setMem_other _ _ _ hd.symm, State.setRng_read]
          exact hk B (by omega)
        obtain ⟨t, ht, ⟨m2, hm2⟩, hv, ho⟩ := splitLane_spec (d := d) (n := n) (by omega : B < 32) hkey (hr ▸ h2)
        refine ⟨t, ?_, ?_, ?_, ?_⟩
        · rw [List.range_succ, forEach_append, ht1]
          simp only [forEach, ht]
        · refine ⟨m2, ?_⟩
          rw [hm2, hm]
          cases d <;> rfl
        · intro slot hs b hb
          by_cases he : b = B
          · subst he
            rw [hv slot hs, hp]
            have : (k - 1) * b = vs.length := by rw [hvs, Nat.mul_comm]
            rw [this, List.drop_left, ← hus, List.take_length]
          · have hbB : b < B := by omega
            rw [ho _ fun slot' hs' => by
              intro hc
              have := ((bankAddr_inj (by omega) (by omega)).mp hc).2
              omega]
            rw [hv1 slot hs b hbB]
            have hle : (k - 1) * b + (k - 1) ≤ vs.length := by
              have hlt := Nat.mul_le_mul_left (k - 1) (show b + 1 ≤ B by omega)
              rw [Nat.mul_add, Nat.mul_one] at hlt
              rw [hvs, Nat.mul_comm B]
              exact hlt
            rw [List.drop_append_of_le_length (by omega), List.take_append_of_le_length (by rw [List.length_drop]; omega)]
        · intro a ha
          rw [ho a fun slot hs => ha slot hs B (by omega), ho1 a fun slot hs b hb => ha slot hs b (by omega)]

/-- The whole of `SPLIT`'s loops: every slot's identifier and y-values, the draws taken, nothing else changed. -/
theorem splitInto_spec {d : Buf} (hd : d ≠ .key) {n k : Nat} {s : State} {key : Nat → Byte} {ds : List Byte} {g : RngPort}
    (hk : ∀ b < 32, s.read .key b = some (key b)) (hg : RngPort.draw (32 * (k - 1)) s.rng = .ok (ds, g)) :
    ∃ t, splitInto d n k s = .ok t ∧ (∃ m, t = (s.setRng g).setMem d m) ∧
      (∀ slot < n, t.read d (idAddr slot) = some (BitVec.ofNat 8 (slot + 1))) ∧
      (∀ slot < n, ∀ b < 32, t.read d (yAddr slot b) =
        some (horner s.poly (BitVec.ofNat 8 (slot + 1)) (key b :: (ds.drop ((k - 1) * b)).take (k - 1)))) ∧
      ∀ a, (∀ slot < n, ∀ o < 33, a ≠ bankAddr slot o) → t.read d a = s.read d a := by
  obtain ⟨t1, ht1, ⟨m, hm⟩, hv1, ho1⟩ := splitLanes_spec (n := n) hd 32 (le_refl _) hk hg
  obtain ⟨t, ht, ⟨m2, hm2⟩, hv, ho⟩ := forEach_writes (f := splitId d) (b := d) (place := idAddr)
    (val := fun slot => BitVec.ofNat 8 (slot + 1)) (l := List.range n) (s := t1) List.nodup_range
    (fun i _ j _ h => ((bankAddr_inj (by omega) (by omega)).mp h).1) (by rintro i _ u ⟨m, rfl⟩ _; rfl)
  refine ⟨t, ?_, ⟨m2, by rw [hm2, hm, State.setMem_setMem]⟩, fun slot h => hv slot (by simpa using h), ?_, ?_⟩
  · simp only [splitInto, Config.keyBytes, ht1, ht]
  · intro slot hs b hb
    rw [ho _ fun i _ hc => by
      have := ((bankAddr_inj (by omega) (by omega)).mp hc).2
      omega]
    exact hv1 slot hs b hb
  · intro a ha
    rw [ho a fun i hi => ha i (by simpa using hi) 0 (by omega),
      ho1 a fun slot hs b hb => ha slot hs (1 + b) (by omega)]

/-- A completed lane: its key byte was written, its draws succeeded. -/
theorem splitLane_ok {d : Buf} {n k b : Nat} {s t : State} (h : splitLane d n k b s = .ok t) :
    ∃ c0 cs g m, s.read .key b = some c0 ∧ RngPort.draw (k - 1) s.rng = .ok (cs, g) ∧ t = (s.setRng g).setMem d m := by
  unfold splitLane at h
  cases h0 : s.bufRead .key b with
  | error f => simp [h0] at h
  | ok c0 =>
    cases hg : RngPort.draw (k - 1) s.rng with
    | error f => simp [h0, hg] at h
    | ok q =>
      obtain ⟨cs, g⟩ := q
      simp only [h0, hg] at h
      obtain ⟨m, hm⟩ := forEach_frame (b := d) (fun i _ u v huv => by
        simp only [splitShare, Except.ok.injEq] at huv
        exact ⟨_, huv.symm⟩) h
      exact ⟨c0, cs, g, m, State.bufRead_ok.mp h0, rfl, hm⟩

/-- A faulting lane: its key byte is unwritten, or its draws fail. -/
theorem splitLane_error {d : Buf} {n k b : Nat} {s : State} {f : Fault} (h : splitLane d n k b s = .error f) :
    (s.read .key b = none ∧ f = .unwrittenRead) ∨
      (s.rng.canSupply (k - 1) = false ∧ f = .rngFailure) := by
  unfold splitLane at h
  cases h0 : s.bufRead .key b with
  | error e =>
    simp only [h0, Except.error.injEq] at h
    exact .inl ⟨(State.bufRead_error.mp h0).1, h ▸ (State.bufRead_error.mp h0).2⟩
  | ok c0 =>
    cases hg : RngPort.draw (k - 1) s.rng with
    | error e =>
      simp only [h0, hg, Except.error.injEq] at h
      exact .inr ⟨(RngPort.draw_error.mp hg).2, h ▸ (RngPort.draw_error.mp hg).1⟩
    | ok q =>
      simp only [h0, hg] at h
      obtain ⟨i, _, u, hu⟩ := forEach_error h
      simp [splitShare] at hu

/-! ## The share combiner -/

theorem synthesize_ok {k : Nat} {s : State} {ls : List Byte} :
    synthesize k s = .ok ls ↔ ∃ xs, s.readAll .s1 ((List.range k).map idAddr) = .ok xs ∧ idsOk xs = true ∧
      basis0 s.poly xs = some ls := by
  unfold synthesize
  cases s.readAll .s1 ((List.range k).map idAddr) with
  | error f => simp
  | ok xs =>
    simp only [Except.ok.injEq, exists_eq_left']
    cases idsOk xs <;> cases basis0 s.poly xs <;> simp

theorem synthesize_error {k : Nat} {s : State} {f : Fault} (h : synthesize k s = .error f) :
    f = .unwrittenRead ∨ f = .badIdentifiers := by
  unfold synthesize at h
  cases h1 : s.readAll .s1 ((List.range k).map idAddr) with
  | error e =>
    simp only [h1, Except.error.injEq] at h
    exact .inl (h ▸ (State.readAll_error.mp h1).1)
  | ok xs =>
    simp only [h1] at h
    cases h2 : idsOk xs <;> cases h3 : basis0 s.poly xs <;> simp [h2, h3] at h <;> exact .inr h.symm

theorem basisList_length {p : Poly} {xs todo : List (Byte × Nat)} {ls : List Byte} (h : basisList p xs todo = some ls) :
    ls.length = todo.length := by
  induction todo generalizing ls with
  | nil => cases h; rfl
  | cons c todo ih =>
    obtain ⟨xi, i⟩ := c
    unfold basisList at h
    cases h1 : basisProduct p i xi 1 xs with
    | none => rw [h1] at h; cases h
    | some l =>
      cases h2 : basisList p xs todo with
      | none => rw [h1, h2] at h; cases h
      | some us =>
        simp only [h1, h2, Option.some.injEq] at h
        rw [← h]
        simp [ih h2]

theorem basis0_length {p : Poly} {xs ls : List Byte} (h : basis0 p xs = some ls) : ls.length = xs.length := by
  rw [basisList_length h, List.length_zipIdx]

theorem interpLane_ok {k b : Nat} {ls : List Byte} {s t : State} :
    interpLane k ls b s = .ok t ↔ ∃ ys, s.readAll .s1 ((List.range k).map fun slot => yAddr slot b) = .ok ys ∧
      t = s.write .key b (interp0 s.poly ys ls) := by
  unfold interpLane
  cases s.readAll .s1 ((List.range k).map fun slot => yAddr slot b) <;> simp [eq_comm]

theorem interpLane_error {k b : Nat} {ls : List Byte} {s : State} {f : Fault} :
    interpLane k ls b s = .error f ↔ f = .unwrittenRead ∧ ∃ slot < k, s.read .s1 (yAddr slot b) = none := by
  unfold interpLane
  cases h : s.readAll .s1 ((List.range k).map fun slot => yAddr slot b) with
  | error e =>
    have := State.readAll_error.mp h
    simp only [List.mem_map, List.mem_range] at this
    obtain ⟨rfl, _, ⟨slot, hs, rfl⟩, hn⟩ := this
    simp only [Except.error.injEq, eq_comm (a := Fault.unwrittenRead)]
    exact ⟨fun h => ⟨h, slot, hs, hn⟩, fun h => h.1⟩
  | ok ys =>
    simp only [reduceCtorEq, false_iff, not_and, not_exists]
    intro _ slot hs hn
    have hm : yAddr slot b ∈ (List.range k).map fun slot => yAddr slot b :=
      List.mem_map.mpr ⟨slot, List.mem_range.mpr hs, rfl⟩
    have := (State.readAll_error (f := .unwrittenRead)).mpr ⟨rfl, yAddr slot b, hm, hn⟩
    rw [h] at this
    cases this

/-- Interpolation changes `KEY` only. -/
theorem interpolate_frame {k : Nat} {ls : List Byte} {s t : State} (h : interpolate k ls s = .ok t) :
    ∃ m, t = s.setMem .key m :=
  forEach_frame (fun i _ u v huv => by
    obtain ⟨ys, _, hv⟩ := interpLane_ok.mp huv
    exact ⟨_, hv⟩) h

/-- With all y-bytes written, interpolation writes the 32 weighted sums and nothing else. -/
theorem interpolate_spec {k : Nat} {ls : List Byte} {s : State} {y : Nat → Nat → Byte}
    (hy : ∀ slot < k, ∀ b < 32, s.read .s1 (yAddr slot b) = some (y slot b)) :
    ∃ t, interpolate k ls s = .ok t ∧ (∃ m, t = s.setMem .key m) ∧
      (∀ b < 32, t.read .key b = some (interp0 s.poly ((List.range k).map fun slot => y slot b) ls)) ∧
      ∀ a, 32 ≤ a → t.read .key a = s.read .key a := by
  obtain ⟨t, ht, hm, hv, ho⟩ := forEach_writes (f := interpLane k ls) (b := .key) (place := fun b => b)
    (val := fun b => interp0 s.poly ((List.range k).map fun slot => y slot b) ls) (l := List.range Config.keyBytes) (s := s)
    List.nodup_range (fun i _ j _ h => h) (by
      rintro b hb u ⟨m, rfl⟩ _
      simp only [Config.keyBytes, List.mem_range] at hb
      refine interpLane_ok.mpr ⟨(List.range k).map fun slot => y slot b, State.readAll_ok.mpr ?_, by simp⟩
      simp only [List.map_map]
      refine List.map_congr_left fun slot hs => ?_
      simp only [Function.comp, State.read_setMem_other s m _ (show Buf.s1 ≠ Buf.key by decide)]
      exact hy slot (by simpa using hs) b hb)
  exact ⟨t, ht, hm, fun b hb => hv b (by simpa [Config.keyBytes] using hb), fun a ha => ho a fun i hi => by
    simp only [Config.keyBytes, List.mem_range] at hi
    omega⟩

/-- With some y-byte unwritten, interpolation faults. -/
theorem interpolate_unwritten {k : Nat} {ls : List Byte} {s : State}
    (h : ∃ slot < k, ∃ b < 32, s.read .s1 (yAddr slot b) = none) : interpolate k ls s = .error .unwrittenRead := by
  obtain ⟨slot, hs, b, hb, hn⟩ := h
  cases hi : interpolate k ls s with
  | error f =>
    obtain ⟨i, _, u, hu⟩ := forEach_error hi
    rw [(interpLane_error.mp hu).1]
  | ok t =>
    exfalso
    have hsplit : List.range Config.keyBytes = List.range b ++ b :: (List.range (32 - b - 1)).map (b + 1 + ·) := by
      rw [show Config.keyBytes = b + (1 + (32 - b - 1)) by simp only [Config.keyBytes]; omega, List.range_add, List.range_add]
      simp [Function.comp_def, Nat.add_assoc]
    unfold interpolate at hi
    rw [hsplit, forEach_append] at hi
    cases h1 : forEach (interpLane k ls) (List.range b) s with
    | error f => simp [h1] at hi
    | ok u =>
      simp only [h1, forEach] at hi
      obtain ⟨m, rfl⟩ := forEach_frame (fun i _ u v huv => by
        obtain ⟨ys, _, hv⟩ := interpLane_ok.mp huv
        exact ⟨_, hv⟩) h1
      have : interpLane k ls b (s.setMem .key m) = .error .unwrittenRead :=
        interpLane_error.mpr ⟨rfl, slot, hs, by rw [State.read_setMem_other _ _ _ (by decide)]; exact hn⟩
      simp [this] at hi

/-! ## The homomorphic adder -/

theorem addByte_ok {p q o : Nat} {s t : State} :
    addByte p q o s = .ok t ↔ ∃ v w, s.read .s1 (bankAddr p o) = some v ∧ s.read .s2 (bankAddr q o) = some w ∧
      t = s.write .s1 (bankAddr p o) (gfAdd v w) := by
  unfold addByte State.bufRead
  cases s.read .s1 (bankAddr p o) <;> cases s.read .s2 (bankAddr q o) <;> simp [eq_comm]

theorem addByte_error {p q o : Nat} {s : State} {f : Fault} :
    addByte p q o s = .error f ↔ f = .unwrittenRead ∧
      (s.read .s1 (bankAddr p o) = none ∨ s.read .s2 (bankAddr q o) = none) := by
  unfold addByte State.bufRead
  cases s.read .s1 (bankAddr p o) <;> cases s.read .s2 (bankAddr q o) <;> simp [eq_comm]

theorem mem_yOffsets {o : Nat} : o ∈ yOffsets ↔ 1 ≤ o ∧ o ≤ 32 := by
  simp only [yOffsets, Config.keyBytes, List.mem_map, List.mem_range]
  constructor
  · rintro ⟨a, ha, rfl⟩
    omega
  · intro h
    exact ⟨o - 1, by omega, by omega⟩

/-- With both shares' y-bytes written, the 32 bytes are added in place and nothing else changes. -/
theorem addBytes_spec {p q : Nat} {s : State} {x y : Nat → Byte}
    (hx : ∀ o, 1 ≤ o → o ≤ 32 → s.read .s1 (bankAddr p o) = some (x o))
    (hy : ∀ o, 1 ≤ o → o ≤ 32 → s.read .s2 (bankAddr q o) = some (y o)) :
    ∃ t, forEach (addByte p q) yOffsets s = .ok t ∧ (∃ m, t = s.setMem .s1 m) ∧
      (∀ o, 1 ≤ o → o ≤ 32 → t.read .s1 (bankAddr p o) = some (x o ^^^ y o)) ∧
      ∀ a, (∀ o, 1 ≤ o → o ≤ 32 → a ≠ bankAddr p o) → t.read .s1 a = s.read .s1 a := by
  obtain ⟨t, ht, hm, hv, ho⟩ := forEach_writes (f := addByte p q) (b := .s1) (place := fun o => bankAddr p o)
    (val := fun o => x o ^^^ y o) (l := yOffsets) (s := s) (by decide)
    (fun i hi j hj h => by
      have h1 := mem_yOffsets.mp hi
      have h2 := mem_yOffsets.mp hj
      exact ((bankAddr_inj (by omega) (by omega)).mp h).2) (by
      rintro o ho u ⟨m, rfl⟩ hr
      have h1 := mem_yOffsets.mp ho
      refine addByte_ok.mpr ⟨x o, y o, ?_, ?_, rfl⟩
      · rw [hr]; exact hx o h1.1 h1.2
      · rw [State.read_setMem_other _ _ _ (by decide)]; exact hy o h1.1 h1.2)
  exact ⟨t, ht, hm, fun o h1 h2 => hv o (mem_yOffsets.mpr ⟨h1, h2⟩), fun a ha => ho a fun o h1 =>
    ha o (mem_yOffsets.mp h1).1 (mem_yOffsets.mp h1).2⟩

/-- The adds of a pair that complete change `S1` only. -/
theorem addBytes_frame {p q : Nat} {l : List Nat} {s t : State} (h : forEach (addByte p q) l s = .ok t) :
    ∃ m, t = s.setMem .s1 m :=
  forEach_frame (fun i _ u v huv => by
    obtain ⟨_, _, _, _, hv⟩ := addByte_ok.mp huv
    exact ⟨_, hv⟩) h

/-- An unwritten y-byte of either share makes the adds of a pair fault. -/
theorem addBytes_unwritten {p q : Nat} {s : State}
    (h : ∃ o, 1 ≤ o ∧ o ≤ 32 ∧ (s.read .s1 (bankAddr p o) = none ∨ s.read .s2 (bankAddr q o) = none)) :
    forEach (addByte p q) yOffsets s = .error .unwrittenRead := by
  obtain ⟨o, h1, h2, hn⟩ := h
  cases hi : forEach (addByte p q) yOffsets s with
  | error f =>
    obtain ⟨i, _, u, hu⟩ := forEach_error hi
    rw [(addByte_error.mp hu).1]
  | ok t =>
    exfalso
    have hsplit : yOffsets = (List.range (o - 1)).map (1 + ·) ++ o :: (List.range (32 - o)).map (o + 1 + ·) := by
      unfold yOffsets
      rw [show Config.keyBytes = (o - 1) + (1 + (32 - o)) by simp only [Config.keyBytes]; omega, List.range_add, List.range_add]
      simp only [List.map_append, List.map_map, List.range_one, List.map_cons, List.cons_append, List.nil_append]
      congr 2
      · omega
      · apply List.map_congr_left
        intro a _
        simp only [Function.comp]
        omega
    rw [hsplit, forEach_append] at hi
    cases hf : forEach (addByte p q) ((List.range (o - 1)).map (1 + ·)) s with
    | error f => simp [hf] at hi
    | ok u =>
      simp only [hf, forEach] at hi
      -- before turn `o`, neither byte of turn `o` has been written
      have hkeep : u.read .s1 (bankAddr p o) = s.read .s1 (bankAddr p o) ∧
          u.read .s2 (bankAddr q o) = s.read .s2 (bankAddr q o) := by
        refine forEach_keeps (P := fun u => u.read .s1 (bankAddr p o) = s.read .s1 (bankAddr p o) ∧
          u.read .s2 (bankAddr q o) = s.read .s2 (bankAddr q o)) ?_ ⟨rfl, rfl⟩ hf
        rintro i hi u v ⟨h3, h4⟩ huv
        obtain ⟨a, ha, rfl⟩ := List.mem_map.mp hi
        have ha := List.mem_range.mp ha
        obtain ⟨_, _, _, _, rfl⟩ := addByte_ok.mp huv
        refine ⟨?_, ?_⟩
        · rw [State.read_write_index _ _ _ fun hc => by
            have := ((bankAddr_inj (by omega) (by omega)).mp hc).2
            omega]
          exact h3
        · rw [State.read_write_buf _ _ _ _ (by decide)]
          exact h4
      have : addByte p q o u = .error .unwrittenRead := addByte_error.mpr ⟨rfl, by rw [hkeep.1, hkeep.2]; exact hn⟩
      simp [this] at hi

/-- Everything the add of one pair that completes can have done. -/
theorem addPair_ok {p q : Nat} {s t : State} {c : Bool} (h : addPair p q s = .ok (c, t)) :
    ∃ v w, s.read .s1 (idAddr p) = some v ∧ s.read .s2 (idAddr q) = some w ∧
      ((v = w ∧ c = true ∧ forEach (addByte p q) yOffsets s = .ok t) ∨ (v ≠ w ∧ c = false ∧ t = s)) := by
  unfold addPair at h
  cases h1 : s.bufRead .s1 (idAddr p) with
  | error f => simp [h1] at h
  | ok v =>
    cases h2 : s.bufRead .s2 (idAddr q) with
    | error f => simp [h1, h2] at h
    | ok w =>
      simp only [h1, h2] at h
      refine ⟨v, w, State.bufRead_ok.mp h1, State.bufRead_ok.mp h2, ?_⟩
      split at h
      · rename_i hvw
        cases h3 : forEach (addByte p q) yOffsets s with
        | error f => simp [h3] at h
        | ok u =>
          simp only [h3, Except.ok.injEq, Prod.mk.injEq] at h
          exact .inl ⟨hvw, h.1.symm, by rw [h.2]⟩
      · rename_i hvw
        simp only [Except.ok.injEq, Prod.mk.injEq] at h
        exact .inr ⟨hvw, h.1.symm, h.2.symm⟩

theorem addPair_error {p q : Nat} {s : State} {f : Fault} (h : addPair p q s = .error f) : f = .unwrittenRead := by
  unfold addPair at h
  cases h1 : s.bufRead .s1 (idAddr p) with
  | error e =>
    simp only [h1, Except.error.injEq] at h
    exact h ▸ (State.bufRead_error.mp h1).2
  | ok v =>
    cases h2 : s.bufRead .s2 (idAddr q) with
    | error e =>
      simp only [h1, h2, Except.error.injEq] at h
      exact h ▸ (State.bufRead_error.mp h2).2
    | ok w =>
      simp only [h1, h2] at h
      split at h
      · cases h3 : forEach (addByte p q) yOffsets s with
        | error e =>
          simp only [h3, Except.error.injEq] at h
          obtain ⟨i, _, u, hu⟩ := forEach_error h3
          exact h ▸ (addByte_error.mp hu).1
        | ok u => simp [h3] at h
      · simp at h

theorem addPair_frame {p q : Nat} {s t : State} {c : Bool} (h : addPair p q s = .ok (c, t)) : ∃ m, t = s.setMem .s1 m := by
  obtain ⟨v, w, _, _, h | h⟩ := addPair_ok h
  · exact addBytes_frame h.2.2
  · exact ⟨s.mem .s1, by simp [h.2.2]⟩

/-- Pairs that complete change `S1` only. -/
theorem addPairs_frame {l : List Nat} {s t : State} {c : Bool} (h : addPairs l s = .ok (c, t)) : ∃ m, t = s.setMem .s1 m := by
  induction l generalizing s with
  | nil =>
    simp only [addPairs, Except.ok.injEq, Prod.mk.injEq] at h
    exact ⟨s.mem .s1, by simp [h.2]⟩
  | cons slot rest ih =>
    unfold addPairs at h
    cases h1 : addPair slot slot s with
    | error f => simp [h1] at h
    | ok r =>
      obtain ⟨d, u⟩ := r
      obtain ⟨m, rfl⟩ := addPair_frame h1
      cases d with
      | true =>
        simp only [h1] at h
        obtain ⟨m', rfl⟩ := ih h
        exact ⟨m', by simp⟩
      | false =>
        simp only [h1, Except.ok.injEq, Prod.mk.injEq] at h
        exact ⟨m, h.2.symm⟩

theorem addPairs_error {l : List Nat} {s : State} {f : Fault} (h : addPairs l s = .error f) : f = .unwrittenRead := by
  induction l generalizing s with
  | nil => simp [addPairs] at h
  | cons slot rest ih =>
    unfold addPairs at h
    cases h1 : addPair slot slot s with
    | error e =>
      simp only [h1, Except.error.injEq] at h
      exact h ▸ addPair_error h1
    | ok r =>
      obtain ⟨d, u⟩ := r
      cases d with
      | true =>
        simp only [h1] at h
        exact ih h
      | false => simp [h1] at h

theorem finishAdd_next {e : Except Fault (Bool × State)} {t : State} :
    finishAdd e = .next t ↔ ∃ c u, e = .ok (c, u) ∧ t = u.setStatus (statusOfMatch c) := by
  cases e with
  | error f => simp [finishAdd]
  | ok r =>
    obtain ⟨c, u⟩ := r
    simp only [finishAdd, Host.Outcome.next.injEq, Except.ok.injEq, Prod.mk.injEq]
    constructor
    · rintro rfl
      exact ⟨c, u, ⟨rfl, rfl⟩, rfl⟩
    · rintro ⟨c', u', ⟨rfl, rfl⟩, rfl⟩
      rfl

theorem finishAdd_fault {e : Except Fault (Bool × State)} {f : Fault} : finishAdd e = .fault f ↔ e = .error f := by
  cases e <;> simp [finishAdd]

theorem finishAdd_not_refused {e : Except Fault (Bool × State)} {r : Refusal} : finishAdd e ≠ .refused r := by
  cases e <;> simp [finishAdd]

end Sys2Proof.Machine
end

