-- ==== Sys2Proof/Laws/PerInstr.lean ====
section
/-! SUPPORT. For every command: its encoding fits its own row of the table of R75, `w AND mask = match`. -/

namespace Sys2Proof.Laws.FitsRow

/-- The word of the command matches the table row with the command's mnemonic. -/
def Statement (i : Instr) : Prop :=
  ∃ r ∈ opcodeTable, r.mnemonic = i.mnemonic ∧ encode i &&& r.mask = r.pattern

/-- A mask of ones keeps a byte. -/
theorem and_ones (x : Byte) : x &&& 255#8 = x := BitVec.and_allOnes

/-- Three operand fields free. -/
theorem maskF3 (op a b c : Byte) : wordOf op a b c &&& wordOf 0xFF 0 0 0 = wordOf op 0 0 0 := by
  rw [wordOf_and]
  simp [and_ones]

/-- `C` must be zero. -/
theorem maskF2 (op a b : Byte) : wordOf op a b 0 &&& wordOf 0xFF 0 0 0xFF = wordOf op 0 0 0 := by
  rw [wordOf_and]
  simp [and_ones]

/-- `B` and `C` must be zero. -/
theorem maskF1 (op a : Byte) : wordOf op a 0 0 &&& wordOf 0xFF 0 0xFF 0xFF = wordOf op 0 0 0 := by
  rw [wordOf_and]
  simp [and_ones]

/-- Bits 23:17 must be zero. -/
theorem maskSplit (op b c : Byte) (bank : Bank) :
    wordOf op (bankField bank) b c &&& wordOf 0xFF 0xFE 0 0 = wordOf op 0 0 0 := by
  rw [wordOf_and]
  cases bank <;> simp [bankField, and_ones]

theorem gfadd (a b : Byte) : Statement (.gfadd a b) := ⟨⟨"GFADD", 0x01000000, 0xFF0000FF⟩, by decide, rfl, maskF2 0x01 a b⟩
theorem gfmul (a b : Byte) : Statement (.gfmul a b) := ⟨⟨"GFMUL", 0x02000000, 0xFF0000FF⟩, by decide, rfl, maskF2 0x02 a b⟩
theorem gfinv (a : Byte) : Statement (.gfinv a) := ⟨⟨"GFINV", 0x03000000, 0xFF00FFFF⟩, by decide, rfl, maskF1 0x03 a⟩
theorem gfdiv (a b : Byte) : Statement (.gfdiv a b) := ⟨⟨"GFDIV", 0x04000000, 0xFF0000FF⟩, by decide, rfl, maskF2 0x04 a b⟩
theorem peval (k x : Byte) : Statement (.peval k x) := ⟨⟨"PEVAL", 0x08000000, 0xFF0000FF⟩, by decide, rfl, maskF2 0x08 k x⟩
theorem split (bank : Bank) (n k : Byte) : Statement (.split bank n k) :=
  ⟨⟨"SPLIT", 0x10000000, 0xFFFE0000⟩, by decide, rfl, maskSplit 0x10 n k bank⟩
theorem lbasis (k : Byte) : Statement (.lbasis k) := ⟨⟨"LBASIS", 0x18000000, 0xFF00FFFF⟩, by decide, rfl, maskF1 0x18 k⟩
theorem interp (k : Byte) : Statement (.interp k) := ⟨⟨"INTERP", 0x19000000, 0xFF00FFFF⟩, by decide, rfl, maskF1 0x19 k⟩
theorem combine (k : Byte) : Statement (.combine k) := ⟨⟨"COMBINE", 0x1A000000, 0xFF00FFFF⟩, by decide, rfl, maskF1 0x1A k⟩
theorem sadd2 (p q : Byte) : Statement (.sadd2 p q) := ⟨⟨"SADD2", 0x20000000, 0xFF0000FF⟩, by decide, rfl, maskF2 0x20 p q⟩
theorem saddn (n : Byte) : Statement (.saddn n) := ⟨⟨"SADDN", 0x21000000, 0xFF00FFFF⟩, by decide, rfl, maskF1 0x21 n⟩
theorem wrs1 (slot offset value : Byte) : Statement (.wrs1 slot offset value) :=
  ⟨⟨"WRS1", 0x30000000, 0xFF000000⟩, by decide, rfl, maskF3 0x30 slot offset value⟩
theorem wrs2 (slot offset value : Byte) : Statement (.wrs2 slot offset value) :=
  ⟨⟨"WRS2", 0x31000000, 0xFF000000⟩, by decide, rfl, maskF3 0x31 slot offset value⟩
theorem wrkey (index value : Byte) : Statement (.wrkey index value) :=
  ⟨⟨"WRKEY", 0x32000000, 0xFF0000FF⟩, by decide, rfl, maskF2 0x32 index value⟩
theorem wrcoef (index value : Byte) : Statement (.wrcoef index value) :=
  ⟨⟨"WRCOEF", 0x33000000, 0xFF0000FF⟩, by decide, rfl, maskF2 0x33 index value⟩
theorem wrbas (index value : Byte) : Statement (.wrbas index value) :=
  ⟨⟨"WRBAS", 0x34000000, 0xFF0000FF⟩, by decide, rfl, maskF2 0x34 index value⟩
theorem rds1 (slot offset : Byte) : Statement (.rds1 slot offset) :=
  ⟨⟨"RDS1", 0x38000000, 0xFF0000FF⟩, by decide, rfl, maskF2 0x38 slot offset⟩
theorem rds2 (slot offset : Byte) : Statement (.rds2 slot offset) :=
  ⟨⟨"RDS2", 0x39000000, 0xFF0000FF⟩, by decide, rfl, maskF2 0x39 slot offset⟩
theorem rdkey (index : Byte) : Statement (.rdkey index) := ⟨⟨"RDKEY", 0x3A000000, 0xFF00FFFF⟩, by decide, rfl, maskF1 0x3A index⟩
theorem rdcoef (index : Byte) : Statement (.rdcoef index) := ⟨⟨"RDCOEF", 0x3B000000, 0xFF00FFFF⟩, by decide, rfl, maskF1 0x3B index⟩
theorem rdbas (index : Byte) : Statement (.rdbas index) := ⟨⟨"RDBAS", 0x3C000000, 0xFF00FFFF⟩, by decide, rfl, maskF1 0x3C index⟩

end Sys2Proof.Laws.FitsRow
end

