-- ==== Sys2Proof/Tests/Slice0.lean ====
section
/-! SUPPORT. The tests: well-formedness, decoding of words written out from the spec's encodings, one step of every command on a small
state (expected values from 95_test_vectors.md or the rules' examples), and a witness for the hypotheses of every statement. -/

namespace Sys2Proof.Tests

set_option Elab.async false

open Sys2Proof.Machine Sys2Proof.Claims

/-! ## Reading an outcome -/

def isNext : Host.Outcome State Fault Refusal → Bool
  | .next _ => true
  | _ => false

def stateOf : Host.Outcome State Fault Refusal → State
  | .next t => t
  | _ => State.reset

def faultOf : Host.Outcome State Fault Refusal → Option Fault
  | .fault f => some f
  | _ => none

/-- The response after a completed command. -/
def responseOf (o : Host.Outcome State Fault Refusal) : Option (Option Byte × Byte) :=
  match o with
  | .next t => some t.response
  | _ => none

/-- A byte of a buffer after a completed command. -/
def byteOf (o : Host.Outcome State Fault Refusal) (b : Buf) (a : Nat) : Option Byte :=
  match o with
  | .next t => t.read b a
  | _ => none

theorem eq_next_of_isNext {o : Host.Outcome State Fault Refusal} (h : isNext o = true) : o = .next (stateOf o) := by
  cases o <;> first | rfl | cases h

theorem eq_fault_of_faultOf {o : Host.Outcome State Fault Refusal} {f : Fault} (h : faultOf o = some f) : o = .fault f := by
  cases o <;> simp_all [faultOf]

/-! ## Small states -/

def bytes (l : List Nat) : List Byte := l.map (BitVec.ofNat 8)

/-- `KEY` = 00..1F, the port holding the given bytes and then failing. -/
def withKey (stream : List Nat) : State :=
  { State.reset.writeFrom .key 0 (bytes (List.range 32)) with rng := ⟨bytes stream, false, 0⟩ }

/-- Stream rA of 95_test_vectors.md section 4.1. -/
def streamA : List Nat := (List.range 32).map fun b => (0x5A + 3 * b) % 256

/-- `S1` slots 0, 1, ... with the given identifier and the same y-byte at all 32 positions. -/
def withShares (b : Buf) (l : List (Nat × Nat)) (s : State) : State :=
  (l.zipIdx).foldl (fun u c => u.writeFrom b (bankAddr c.2 0) (bytes (c.1.1 :: List.replicate 32 c.1.2))) s

/-- Identifiers only. -/
def withIds (l : List Nat) : State :=
  (l.zipIdx).foldl (fun u c => u.write .s1 (idAddr c.2) (BitVec.ofNat 8 c.1)) State.reset

/-- Shares of one key byte 0 repeated, line 5A: identifiers 2 and 3 with y = B4, EE (section 4.1, byte position 0). -/
def twoShares : State := withShares .s1 [(2, 0xB4), (3, 0xEE)] State.reset

/-- Both banks written: pairs 0 and 2 match, pair 1 differs (section 6.3 in small). -/
def banks : State :=
  withShares .s2 [(1, 0xBC), (9, 0xF8), (3, 0xC4)] (withShares .s1 [(1, 0x5A), (2, 0xB4), (3, 0xEE)] State.reset)

/-! ## Well-formedness refuses each ill-formed operand -/

theorem test_wf_inverse : (Instr.gfinv 0).wf = false ∧ (Instr.gfinv 1).wf = true := by decide
theorem test_wf_divisor : (Instr.gfdiv 5 0).wf = false ∧ (Instr.gfdiv 0 5).wf = true := by decide
theorem test_wf_count : (Instr.peval 0 1).wf = false ∧ (Instr.lbasis 0).wf = false ∧ (Instr.interp 0).wf = false ∧
    (Instr.combine 0).wf = false ∧ (Instr.saddn 0).wf = false ∧ (Instr.saddn 255).wf = true := by decide
theorem test_wf_threshold : (Instr.split .s1 2 3).wf = false ∧ (Instr.split .s1 0 0).wf = false ∧
    (Instr.split .s1 3 0).wf = false ∧ (Instr.split .s2 255 255).wf = true := by decide
theorem test_wf_slot : (Instr.wrs1 255 0 1).wf = false ∧ (Instr.wrs2 255 0 1).wf = false ∧ (Instr.rds1 255 0).wf = false ∧
    (Instr.rds2 255 0).wf = false ∧ (Instr.sadd2 255 0).wf = false ∧ (Instr.sadd2 0 255).wf = false ∧
    (Instr.sadd2 254 254).wf = true := by decide
theorem test_wf_offset : (Instr.wrs1 0 33 1).wf = false ∧ (Instr.wrs2 0 33 1).wf = false ∧ (Instr.rds1 0 33).wf = false ∧
    (Instr.rds2 0 33).wf = false ∧ (Instr.rds2 254 32).wf = true := by decide
theorem test_wf_index : (Instr.wrkey 32 1).wf = false ∧ (Instr.rdkey 32).wf = false ∧ (Instr.wrcoef 255 1).wf = false ∧
    (Instr.rdcoef 255).wf = false ∧ (Instr.wrbas 255 1).wf = false ∧ (Instr.rdbas 255).wf = false ∧
    (Instr.wrkey 31 1).wf = true ∧ (Instr.rdbas 254).wf = true := by decide

/-! ## Decoding: words written out field by field from 30_encoding.md, rules R71 to R76 -/

theorem test_decode_gfadd : decode 0b00000001010101111000001100000000 = .ok (.gfadd 0x57 0x83) := by rfl
theorem test_decode_gfmul : decode 0b00000010010101111000001100000000 = .ok (.gfmul 0x57 0x83) := by rfl
theorem test_decode_gfinv : decode 0b00000011010100110000000000000000 = .ok (.gfinv 0x53) := by rfl
theorem test_decode_gfdiv : decode 0b00000100000000100000001100000000 = .ok (.gfdiv 0x02 0x03) := by rfl
theorem test_decode_peval : decode 0b00001000000000110000001100000000 = .ok (.peval 3 0x03) := by rfl
theorem test_decode_split_s1 : decode 0b00010000000000000000001100000010 = .ok (.split .s1 3 2) := by rfl
theorem test_decode_split_s2 : decode 0b00010000000000010000001100000010 = .ok (.split .s2 3 2) := by rfl
theorem test_decode_lbasis : decode 0b00011000000000100000000000000000 = .ok (.lbasis 2) := by rfl
theorem test_decode_interp : decode 0b00011001000000100000000000000000 = .ok (.interp 2) := by rfl
theorem test_decode_combine : decode 0b00011010000000100000000000000000 = .ok (.combine 2) := by rfl
theorem test_decode_sadd2 : decode 0b00100000000000000000000100000000 = .ok (.sadd2 0 1) := by rfl
theorem test_decode_saddn : decode 0b00100001000000110000000000000000 = .ok (.saddn 3) := by rfl
theorem test_decode_wrs1 : decode 0b00110000000000010000000000000010 = .ok (.wrs1 1 0 0x02) := by rfl
theorem test_decode_wrs2 : decode 0b00110001000000000010000011101101 = .ok (.wrs2 0 32 0xED) := by rfl
theorem test_decode_wrkey : decode 0b00110010000111110001111100000000 = .ok (.wrkey 31 0x1F) := by rfl
theorem test_decode_wrcoef : decode 0b00110011000000101001000100000000 = .ok (.wrcoef 2 0x91) := by rfl
theorem test_decode_wrbas : decode 0b00110100000000000000000100000000 = .ok (.wrbas 0 0x01) := by rfl
theorem test_decode_rds1 : decode 0b00111000000000010000000000000000 = .ok (.rds1 1 0) := by rfl
theorem test_decode_rds2 : decode 0b00111001000000000010000000000000 = .ok (.rds2 0 32) := by rfl
theorem test_decode_rdkey : decode 0b00111010000001010000000000000000 = .ok (.rdkey 5) := by rfl
theorem test_decode_rdcoef : decode 0b00111011000000100000000000000000 = .ok (.rdcoef 2) := by rfl
theorem test_decode_rdbas : decode 0b00111100000000000000000000000000 = .ok (.rdbas 0) := by rfl

/-- Section 7: opcodes outside the map. -/
theorem test_decode_unknown : decode 0x00000000 = .error .unknownOpcode ∧ decode 0xFFFFFFFF = .error .unknownOpcode ∧
    decode 0x05000000 = .error .unknownOpcode ∧ decode 0x1B020000 = .error .unknownOpcode ∧
    decode 0x3D000000 = .error .unknownOpcode := ⟨rfl, rfl, rfl, rfl, rfl⟩

/-- Section 7: must-be-zero fields and the bank field. -/
theorem test_decode_reserved : decode 0x01578301 = .error .mustBeZero ∧ decode 0x03530100 = .error .mustBeZero ∧
    decode 0x21030001 = .error .mustBeZero ∧ decode 0x10020302 = .error .splitBank := ⟨rfl, rfl, rfl, rfl⟩

/-- Both transport orders of the same word. -/
theorem test_decode_bytes : decodeBytes .mostSignificantFirst [0x1A, 0x02, 0x00, 0x00, 0x07] = .ok (.combine 2, [0x07]) ∧
    decodeBytes .leastSignificantFirst [0x00, 0x00, 0x02, 0x1A] = .ok (.combine 2, []) ∧
    decodeBytes .leastSignificantFirst [0x1A, 0x02] = .error .truncated := ⟨rfl, rfl, rfl⟩

/-! ## One step of every command -/

/-- R104's example. -/
theorem test_gfadd : responseOf (exec (.gfadd 0x57 0x83) State.reset) = some (some 0xD4, 0) := by decide +kernel

/-- R105's example, and a reduction (section 2.2). -/
theorem test_gfmul : responseOf (exec (.gfmul 0x57 0x83) State.reset) = some (some 0xC1, 0) := by decide +kernel
theorem test_gfmul_reduces : responseOf (exec (.gfmul 0x80 0x80) State.reset) = some (some 0x9A, 0) := by decide +kernel

/-- R106's example, and the fault. -/
theorem test_gfinv : responseOf (exec (.gfinv 0x53) State.reset) = some (some 0xCA, 0) := by decide +kernel
theorem test_gfinv_zero : faultOf (exec (.gfinv 0) State.reset) = some .inverseOfZero := by decide +kernel

/-- R107's example, and the fault with dividend 0. -/
theorem test_gfdiv : responseOf (exec (.gfdiv 0x02 0x03) State.reset) = some (some 0xF7, 0) := by decide +kernel
theorem test_gfdiv_zero : faultOf (exec (.gfdiv 0 0) State.reset) = some .inverseOfZero := by decide +kernel

/-- With `POLY` = 0x11D the product is another (section 2.2, "For contrast"). -/
theorem test_gfmul_other_poly : gfMul ⟨0x11D, by decide⟩ 0x57 0x83 = 0x31 ∧ gfInv ⟨0x11D, by decide⟩ 0x02 = some 0x8E := by
  decide +kernel

/-- R121's example; one coefficient more than is written. -/
theorem test_peval : responseOf (exec (.peval 3 0x03) (State.reset.writeFrom .coef 0 (bytes [0x2A, 0x07, 0x91]))) =
    some (some 0xC0, 0) := by decide +kernel
theorem test_peval_unwritten : faultOf (exec (.peval 3 0x03) (State.reset.writeFrom .coef 0 (bytes [0x2A, 0x07]))) =
    some .unwrittenRead := by decide +kernel

/-- Section 4.1: share 3 of scenario A, first and last byte position, all 32 bytes of the stream taken. -/
theorem test_split : byteOf (exec (.split .s1 3 2) (withKey streamA)) .s1 (bankAddr 2 0) = some 0x03 ∧
    byteOf (exec (.split .s1 3 2) (withKey streamA)) .s1 (bankAddr 2 1) = some 0xEE ∧
    byteOf (exec (.split .s1 3 2) (withKey streamA)) .s1 (bankAddr 2 32) = some 0xDD := by decide +kernel

/-- Section 4.5: three bytes where 32 are needed. -/
theorem test_split_rng_fails : faultOf (exec (.split .s1 2 2) (withKey [1, 2, 3])) = some .rngFailure := by decide +kernel

/-- R141's example. -/
theorem test_lbasis : byteOf (exec (.lbasis 2) (withIds [1, 2])) .basis 0 = some 0xF7 ∧
    byteOf (exec (.lbasis 2) (withIds [1, 2])) .basis 1 = some 0xF6 := by decide +kernel

/-- Section 5.6: equal identifiers. -/
theorem test_lbasis_equal : faultOf (exec (.lbasis 2) (withIds [1, 1])) = some .badIdentifiers := by decide +kernel

/-- R143's example: `BASIS` = 03 02, y = D7 and BE. -/
theorem test_interp : byteOf (exec (.interp 2)
    ((withShares .s1 [(2, 0xD7), (3, 0xBE)] State.reset).writeFrom .basis 0 (bytes [3, 2]))) .key 5 = some 0x05 := by
  decide +kernel

/-- Section 5.1, pair (2, 3), byte position 0. -/
theorem test_combine : byteOf (exec (.combine 2) twoShares) .basis 0 = some 0x03 ∧
    byteOf (exec (.combine 2) twoShares) .basis 1 = some 0x02 ∧
    byteOf (exec (.combine 2) twoShares) .key 0 = some 0x00 := by decide +kernel

/-- Section 6.1: 5A + BC = E6, `STATUS` 0; and the mismatch. -/
theorem test_sadd2 : byteOf (exec (.sadd2 0 0) banks) .s1 (bankAddr 0 1) = some 0xE6 ∧
    responseOf (exec (.sadd2 0 0) banks) = some (none, 0) := by decide +kernel
theorem test_sadd2_mismatch : responseOf (exec (.sadd2 0 1) banks) = some (none, 1) ∧
    byteOf (exec (.sadd2 0 1) banks) .s1 (bankAddr 0 1) = some 0x5A := by decide +kernel

/-- Section 6.3: pair 0 added, pair 1 stops the command, pair 2 untouched although it matches. -/
theorem test_saddn_fail_fast : responseOf (exec (.saddn 3) banks) = some (none, 1) ∧
    byteOf (exec (.saddn 3) banks) .s1 (bankAddr 0 32) = some 0xE6 ∧
    byteOf (exec (.saddn 3) banks) .s1 (bankAddr 1 1) = some 0xB4 ∧
    byteOf (exec (.saddn 3) banks) .s1 (bankAddr 2 1) = some 0xEE := by decide +kernel

/-- Section 8: the last byte of the last slot, and separate banks. -/
theorem test_wrs1 : byteOf (exec (.wrs1 254 32 0xAA) State.reset) .s1 (bankAddr 254 32) = some 0xAA ∧
    byteOf (exec (.wrs1 254 32 0xAA) State.reset) .s2 (bankAddr 254 32) = none := by decide +kernel
theorem test_wrs1_slot_255 : faultOf (exec (.wrs1 255 0 1) State.reset) = some .indexOutOfRange := by decide +kernel
theorem test_wrs2 : byteOf (exec (.wrs2 0 32 0xED) State.reset) .s2 32 = some 0xED := by decide +kernel
theorem test_wrs2_offset_33 : faultOf (exec (.wrs2 0 33 1) State.reset) = some .indexOutOfRange := by decide +kernel
theorem test_wrkey : byteOf (exec (.wrkey 31 0x1F) State.reset) .key 31 = some 0x1F := by decide +kernel
theorem test_wrkey_32 : faultOf (exec (.wrkey 32 1) State.reset) = some .indexOutOfRange := by decide +kernel
theorem test_wrcoef : byteOf (exec (.wrcoef 254 1) State.reset) .coef 254 = some 1 ∧
    faultOf (exec (.wrcoef 255 1) State.reset) = some .indexOutOfRange := by decide +kernel
theorem test_wrbas : byteOf (exec (.wrbas 0 1) State.reset) .basis 0 = some 1 ∧
    faultOf (exec (.wrbas 255 1) State.reset) = some .indexOutOfRange := by decide +kernel
theorem test_rds1 : responseOf (exec (.rds1 1 0) twoShares) = some (some 0x03, 0) := by decide +kernel
theorem test_rds2_unwritten : faultOf (exec (.rds2 0 0) twoShares) = some .unwrittenRead := by decide +kernel
theorem test_rds2 : responseOf (exec (.rds2 1 0) banks) = some (some 0x09, 0) := by decide +kernel
theorem test_rdkey : responseOf (exec (.rdkey 5) (withKey [])) = some (some 0x05, 0) := by decide +kernel
theorem test_rdkey_unwritten : faultOf (exec (.rdkey 0) State.reset) = some .unwrittenRead := by decide +kernel
theorem test_rdcoef : responseOf (exec (.rdcoef 1) (State.reset.writeFrom .coef 0 (bytes [0x2A, 0x07]))) = some (some 7, 0) := by
  decide +kernel
theorem test_rdbas : responseOf (exec (.rdbas 0) (State.reset.writeFrom .basis 0 (bytes [0xF7]))) = some (some 0xF7, 0) := by
  decide +kernel

/-! ## The step -/

/-- Program P6 d): the all-zero word. -/
theorem test_step_illegal : faultOf (step (State.reset.withFetchWord 32 0)) = some .illegalCommand := by decide +kernel

/-- P1's first command as the first step after reset: completed, `ci` = 1. -/
theorem test_step_runs_word : byteOf (step (State.reset.withFetchWord 32 0x33002A00)) .coef 0 = some 0x2A ∧
    (stateOf (step (State.reset.withFetchWord 32 0x33002A00))).ci = 1 := by decide +kernel

/-- The reset state does nothing while no command is presented. -/
theorem test_step_idle : step State.reset = .next State.reset := rfl

/-- The invariant refuses a status that is neither 0 nor 1, a buffer out of order and a byte where no storage exists. -/
theorem test_inv_refuses : ({ State.reset with status := 2 } : State).Inv = false ∧
    ({ State.reset with key := [(1, 0), (0, 0)] } : State).Inv = false ∧
    ({ State.reset with key := [(32, 0)] } : State).Inv = false ∧
    ({ State.reset with ci := 1 } : State).Inv = false := by decide

/-- `POLY` values outside the list of R9 are refused: 0x101 is R9's own example. -/
theorem test_poly_refused : Poly.ofBits 0x101 = none ∧ (Poly.ofBits 0x11D).isSome = true := by decide

/-! ## Witnesses: concrete states and operands that meet the hypotheses of each statement -/

/-- A state whose next command word is `w`. -/
def present (w : Nat) : State := State.reset.withFetchWord 32 w

theorem witness_DecodeEncodeInverse : decode 0x21030000 = .ok (.saddn 3) := by rfl

theorem witness_DecodeFollowsTable : (⟨"SPLIT", 0x10000000, 0xFFFE0000⟩ : Row) ∈ opcodeTable ∧
    (0x1001FFFF : Word) &&& 0xFFFE0000 = 0x10000000 ∧ decode 0x1001FFFF = .ok (.split .s2 255 255) :=
  ⟨by decide +kernel, by decide +kernel, rfl⟩

/-- One illegal word for each clause, at its boundary: opcode 0x3D, F1 with `B` = 1, F1 with `C` = 1, F2 with `C` = 1, bank 2. -/
theorem witness_IllegalWordsFault : (present 0x3D000000).fetch = some 0x3D000000 ∧
    fieldOp 0x3D000000 ∉ opcodesF1 ++ opcodesF2 ++ opcodesF3 ∧
    (fieldOp 0x3C000100 ∈ opcodesF1 ∧ fieldB 0x3C000100 ≠ 0) ∧ (fieldOp 0x3C000001 ∈ opcodesF1 ∧ fieldC 0x3C000001 ≠ 0) ∧
    (fieldOp 0x01000001 ∈ opcodesF2 ∧ fieldC 0x01000001 ≠ 0) ∧ (fieldOp 0x10020101 = 0x10 ∧ 2 ≤ (fieldA 0x10020101).toNat) := by
  decide +kernel

theorem witness_StepRunsDecodedInstruction : (present 0x01578300).fetch = some 0x01578300 ∧
    decode 0x01578300 = .ok (.gfadd 0x57 0x83) := ⟨by decide +kernel, rfl⟩

theorem witness_IndexCountsCompletedCommands : (present 0x01578300).fetch = some 0x01578300 ∧
    isNext (step (present 0x01578300)) = true ∧ State.reset.cmds.length ≤ State.reset.ci := by decide +kernel

theorem witness_PolyNeverChanges : isNext (exec (.wrkey 31 1) State.reset) = true ∧ isNext (step (present 0x01578300)) = true := by
  decide +kernel

theorem witness_StepKeepsInvariant : (present 0x321F1F00).Inv = true ∧ isNext (step (present 0x321F1F00)) = true := by decide +kernel

theorem witness_ResetAbandonsCommand : 3 ≤ (withKey [1, 2, 3]).rng.supplied.length ∧
    0 ≤ (withKey []).rng.supplied.length := by decide +kernel

theorem witness_StatusWrittenOnlyByAdds : isNext (exec (.gfadd 1 2) banks) = true ∧ isAdd (.gfadd 1 2) = false ∧
    isNext (exec (.sadd2 0 1) banks) = true ∧ isAdd (.sadd2 0 1) = true := by decide +kernel

theorem witness_OnlyListedCommandsWrite : isNext (exec (.wrs1 0 0 1) State.reset) = true ∧ writesR (.wrs1 0 0 1) = false ∧
    writesBuf .s2 (.wrs1 0 0 1) = false ∧ isSplit (.wrs1 0 0 1) = false ∧
    isNext (exec (.gfadd 1 2) State.reset) = true ∧ writesR (.gfadd 1 2) = true := by decide +kernel

theorem witness_OnlyListedCommandsRead : readsBuf .key (.interp 1) = false ∧ readsBuf .s1 (.split .s1 1 1) = false := by decide +kernel

theorem witness_NoCommandReadsResultOrStatus : writesR (.rdkey 0) = true ∧ isAdd (.saddn 1) = true := by decide +kernel

theorem witness_OnlySplitUsesTheRng : isSplit (.combine 1) = false := by decide +kernel

/-- A state with `KEY[0]` and `R` written and a command that writes neither. -/
theorem witness_WrittenStaysWritten : isNext (step (((present 0x33000100).write .key 0 7).writeR 1)) = true ∧
    (((present 0x33000100).write .key 0 7).writeR 1).read .key 0 ≠ none ∧
    (((present 0x33000100).write .key 0 7).writeR 1).rWritten = true := by decide +kernel

/-- Each operand fault at the boundary of its range. -/
theorem witness_BadOperandsFault : operandFault (.gfinv 0) = some .inverseOfZero ∧ operandFault (.gfdiv 0 0) = some .inverseOfZero ∧
    operandFault (.peval 0 0) = some .countOutOfRange ∧ operandFault (.split .s1 254 255) = some .countOutOfRange ∧
    operandFault (.split .s2 0 0) = some .countOutOfRange ∧ operandFault (.sadd2 254 255) = some .indexOutOfRange ∧
    operandFault (.wrs1 254 33 0) = some .indexOutOfRange ∧ operandFault (.rds2 255 32) = some .indexOutOfRange ∧
    operandFault (.wrkey 32 0) = some .indexOutOfRange ∧ operandFault (.rdbas 255) = some .indexOutOfRange := by decide +kernel

theorem witness_OperandFaultsDependOnTheWordAlone : operandFault (.wrs1 254 32 0) = none ∧ operandFault (.split .s1 255 255) = none ∧
    operandFault (.wrkey 31 0) = none ∧ operandFault (.peval 1 0) = none := by decide +kernel

theorem witness_OnlyListedFaults : faultOf (exec (.rdkey 0) State.reset) = some .unwrittenRead := by decide +kernel

theorem witness_CompletesExactlyWhenReady : Ready (.combine 2) twoShares = true ∧ Ready (.combine 3) twoShares = false := by
  decide +kernel

theorem witness_LegalPolysAreTheIrreducibles : (0x11B : BitVec 9) ∈ Config.legalPolys ∧ (0x101 : BitVec 9) ∉ Config.legalPolys := by
  decide +kernel

theorem witness_FieldInverses : (0x53 : Byte) ≠ 0 ∧ gfMul Config.defaultPoly 0 0x53 = 0 ∧
    gfMul Config.defaultPoly 0x53 0xCA = 1 := by decide +kernel

theorem witness_FieldDivision : (0x03 : Byte) ≠ 0 ∧ (0x02 : Byte) ≠ 0 := by decide +kernel

theorem witness_GfinvResult : (0 : Byte) = 0 ∧ (255 : Byte) ≠ 0 := by decide +kernel

theorem witness_GfdivResult : (0 : Byte) = 0 ∧ (1 : Byte) ≠ 0 := by decide +kernel

theorem witness_EvaluationIsLinear : (bytes [1, 2]).length = (bytes [3, 4]).length := by decide +kernel

/-- `COEF[0..1]` written: `k` = 2 is met, `k` = 3 reads an unwritten byte. -/
theorem witness_PevalResult : (0 : Byte) = 0 ∧ (2 : Byte) ≠ 0 ∧
    (∀ j < (2 : Byte).toNat, (State.reset.writeFrom .coef 0 (bytes [5, 6])).read .coef j = some (BitVec.ofNat 8 (5 + j))) ∧
    (3 : Byte) ≠ 0 ∧ 2 < (3 : Byte).toNat ∧ (State.reset.writeFrom .coef 0 (bytes [5, 6])).read .coef 2 = none := by decide +kernel

theorem witness_RngPortGivesEachByteOnce : 3 ≤ (withKey [1, 2, 3]).rng.supplied.length ∧ (withKey [1, 2, 3]).rng.endless = false ∧
    (withKey [1, 2, 3]).rng.supplied.length < 4 ∧ State.reset.rng.endless = true := by decide +kernel

/-- A whole sharing, a port three bytes long, an unwritten key with and without draws to make. -/
theorem witness_SplitResult : KeyIs (withKey streamA) (fun b => BitVec.ofNat 8 b) ∧
    RngPort.draw (32 * ((2 : Byte).toNat - 1)) (withKey streamA).rng = .ok (bytes streamA, ⟨[], false, 32⟩) ∧
    1 ≤ (2 : Byte).toNat ∧ (2 : Byte).toNat ≤ (3 : Byte).toNat ∧
    ((∀ b < 32, (withKey [1, 2, 3]).read .key b ≠ none) ∧ (withKey [1, 2, 3]).rng.canSupply (32 * ((2 : Byte).toNat - 1)) = false) ∧
    (State.reset.read .key 31 = none ∧ State.reset.rng.canSupply (32 * ((1 : Byte).toNat - 1)) = true) ∧
    (({ State.reset with rng := ⟨[], false, 0⟩ } : State).read .key 0 = none ∧
      ({ State.reset with rng := ⟨[], false, 0⟩ } : State).rng.canSupply (32 * ((2 : Byte).toNat - 1)) = false) := by
  refine ⟨?_, rfl, ?_⟩
  · unfold KeyIs; decide +kernel
  · decide +kernel

theorem witness_SplitOutputIsASharing : isNext (exec (.split .s1 3 2) (withKey streamA)) = true := by decide +kernel

theorem witness_BasisIsTheLagrangeQuotient : 1 ≤ 2 ∧ LegalIds 2 fun i => BitVec.ofNat 8 (i + 1) := by
  unfold LegalIds; decide +kernel

theorem witness_BasisXorsToOne : bytes [1, 3, 5] ≠ [] ∧ idsOk (bytes [1, 3, 5]) = true := by decide +kernel

theorem witness_InterpolationTheorem : idsOk (bytes [1, 255]) = true ∧ (bytes [7, 9]).length ≤ (bytes [1, 255]).length := by decide +kernel

/-- Legal identifiers 1, 2; illegal 1, 1 and 0; one identifier unwritten. -/
theorem witness_LbasisResult : (2 : Byte) ≠ 0 ∧ IdsAre (withIds [1, 2]) (2 : Byte).toNat (fun i => BitVec.ofNat 8 (i + 1)) ∧
    LegalIds (2 : Byte).toNat (fun i => BitVec.ofNat 8 (i + 1)) ∧
    IdsAre (withIds [1, 1]) (2 : Byte).toNat (fun _ => 1) ∧ ¬ LegalIds (2 : Byte).toNat (fun _ => 1) ∧
    IdsAre (withIds [0]) (1 : Byte).toNat (fun _ => 0) ∧ ¬ LegalIds (1 : Byte).toNat (fun _ => 0) ∧
    (withIds [1, 2]).read .s1 (bankAddr 2 0) = none := by
  refine ⟨by decide +kernel, ?_, ?_, ?_, ?_, ?_, ?_, by decide +kernel⟩
  · unfold IdsAre; decide +kernel
  · unfold LegalIds; decide +kernel
  · unfold IdsAre; decide +kernel
  · unfold LegalIds; decide +kernel
  · unfold IdsAre; decide +kernel
  · unfold LegalIds; decide +kernel

theorem witness_InterpResult : YsAre (twoShares.writeFrom .basis 0 (bytes [3, 2])) (2 : Byte).toNat
      (fun i _ => if i = 0 then 0xB4 else 0xEE) ∧
    (∀ i < (2 : Byte).toNat, (twoShares.writeFrom .basis 0 (bytes [3, 2])).read .basis i = some (if i = 0 then 3 else 2)) ∧
    YMissing twoShares (3 : Byte).toNat ∧ twoShares.read .basis 0 = none := by
  refine ⟨?_, ?_, ⟨2, by decide +kernel, 0, by decide +kernel, by decide +kernel⟩, by decide +kernel⟩
  · unfold YsAre; decide +kernel
  · decide +kernel

theorem witness_CombineResult : IdsAre twoShares (2 : Byte).toNat (fun i => BitVec.ofNat 8 (i + 2)) ∧
    LegalIds (2 : Byte).toNat (fun i => BitVec.ofNat 8 (i + 2)) ∧
    YsAre twoShares (2 : Byte).toNat (fun i _ => if i = 0 then 0xB4 else 0xEE) ∧
    IdsAre (withIds [5]) (1 : Byte).toNat (fun _ => 5) ∧ LegalIds (1 : Byte).toNat (fun _ => 5) ∧
    YMissing (withIds [5]) (1 : Byte).toNat ∧ IdsAre (withIds [0]) (1 : Byte).toNat (fun _ => 0) ∧
    ¬ LegalIds (1 : Byte).toNat (fun _ => 0) ∧ State.reset.read .s1 (bankAddr 0 0) = none := by
  refine ⟨?_, ?_, ?_, ?_, ?_, ⟨0, by decide +kernel, 31, by decide +kernel, by decide +kernel⟩, ?_, ?_, rfl⟩
  · unfold IdsAre; decide +kernel
  · unfold LegalIds; decide +kernel
  · unfold YsAre; decide +kernel
  · unfold IdsAre; decide +kernel
  · unfold LegalIds; decide +kernel
  · unfold IdsAre; decide +kernel
  · unfold LegalIds; decide +kernel

/-- Scenario A shared into `S1`; shares 2 and 3 moved to slots 0 and 1, in the order 3, 2. -/
def sharedA : State := stateOf (exec (.split .s1 3 2) (withKey streamA))

/-- Slots 0 and 1 of `S1` holding slots 2 and 1 of `sharedA`. -/
def presentedA : State :=
  (List.range 33).foldl (fun u o => (u.write .s1 (bankAddr 0 o) ((sharedA.read .s1 (bankAddr 2 o)).getD 0)).write .s1
    (bankAddr 1 o) ((sharedA.read .s1 (bankAddr 1 o)).getD 0)) State.reset

theorem witness_SharesRecoverTheKey : exec (.split .s1 3 2) (withKey streamA) = .next sharedA ∧ [2, 1] ≠ [] ∧ [2, 1].Nodup ∧
    (∀ slot ∈ [2, 1], slot < (3 : Byte).toNat) ∧ (2 : Byte).toNat = [2, 1].length ∧ presentedA.poly = (withKey streamA).poly ∧
    Presents presentedA sharedA (bankBuf .s1) [2, 1] := by
  refine ⟨eq_next_of_isNext witness_SplitOutputIsASharing, by decide +kernel, by decide +kernel, by decide +kernel, by decide +kernel, by decide +kernel, ?_⟩
  have h : ∀ o < 33, presentedA.read .s1 (bankAddr 0 o) = sharedA.read .s1 (bankAddr 2 o) ∧
      presentedA.read .s1 (bankAddr 1 o) = sharedA.read .s1 (bankAddr 1 o) := by decide +kernel
  intro j hj o ho
  rcases j with _ | _ | j
  · exact (h o ho).1
  · exact (h o ho).2
  · simp at hj

/-- The two shares of `twoShares` exchanged. -/
theorem witness_CombineIgnoresTheOrder : isNext (exec (.combine 2) twoShares) = true ∧
    (∀ i < (2 : Byte).toNat, 1 - i < (2 : Byte).toNat) ∧
    (∀ i < (2 : Byte).toNat, ∀ j < (2 : Byte).toNat, 1 - i = 1 - j → i = j) ∧
    (withShares .s1 [(3, 0xEE), (2, 0xB4)] State.reset).poly = twoShares.poly ∧
    (∀ i < (2 : Byte).toNat, ∀ o < 33, (withShares .s1 [(3, 0xEE), (2, 0xB4)] State.reset).read .s1 (bankAddr i o) =
      twoShares.read .s1 (bankAddr (1 - i) o)) := by decide +kernel

theorem witness_OneShareIsTheKey : KeyIs (withKey []) (fun b => BitVec.ofNat 8 b) ∧ Bank.s1 = .s1 := by
  refine ⟨?_, rfl⟩
  unfold KeyIs; decide +kernel

theorem banks_match : PairMatches banks 0 0 ∧ PairMatches banks 2 2 := by
  have h : ∀ o < 33, 1 ≤ o → banks.read .s1 (bankAddr 0 o) = some 0x5A ∧ banks.read .s2 (bankAddr 0 o) = some 0xBC ∧
      banks.read .s1 (bankAddr 2 o) = some 0xEE ∧ banks.read .s2 (bankAddr 2 o) = some 0xC4 := by decide +kernel
  refine ⟨⟨⟨1, by decide +kernel, by decide +kernel⟩, fun o h1 h2 => ?_⟩, ⟨⟨3, by decide +kernel, by decide +kernel⟩, fun o h1 h2 => ?_⟩⟩
  · exact ⟨⟨_, (h o (by omega) h1).1⟩, ⟨_, (h o (by omega) h1).2.1⟩⟩
  · exact ⟨⟨_, (h o (by omega) h1).2.2.1⟩, ⟨_, (h o (by omega) h1).2.2.2⟩⟩

theorem banks_differ : PairDiffers banks 1 1 := ⟨2, 9, by decide +kernel, by decide +kernel, by decide +kernel⟩

/-- Unwritten at an identifier; unwritten at a y-byte of equal identifiers; no byte is read on a mismatch. -/
theorem witness_Sadd2Result : (255 : Byte) = 255 ∧ (254 : Byte) ≠ 255 ∧ PairUnwritten banks (254 : Byte).toNat (0 : Byte).toNat ∧
    PairUnwritten ((withIds [1]).write .s2 (idAddr 0) 1) (0 : Byte).toNat (0 : Byte).toNat ∧
    PairDiffers banks (1 : Byte).toNat (1 : Byte).toNat ∧ PairMatches banks (0 : Byte).toNat (0 : Byte).toNat :=
  ⟨rfl, by decide +kernel, .inl (by decide +kernel), .inr (.inr ⟨by decide +kernel, 1, by decide +kernel, by decide +kernel, .inl (by decide +kernel)⟩),
    banks_differ, banks_match.1⟩

theorem witness_MismatchIsRejected : (0 : Byte).toNat ≤ 254 ∧ banks.read .s1 (bankAddr (0 : Byte).toNat 0) = some 1 ∧
    banks.read .s2 (bankAddr (1 : Byte).toNat 0) = some 9 ∧ (1 : Byte) ≠ 9 := by decide +kernel

theorem witness_AddingTwiceRestores : (2 : Byte).toNat ≤ 254 ∧ PairMatches banks (2 : Byte).toNat (2 : Byte).toNat :=
  ⟨by decide +kernel, banks_match.2⟩

/-- `m` = 1 < `n` = 3 with a mismatch at 1; `m` = `n` = 1 with every pair matching; slot 0 unwritten. -/
theorem witness_SaddnResult : (1 ≤ (3 : Byte).toNat ∧ (∀ i < 1, PairMatches banks i i) ∧ PairDiffers banks 1 1) ∧
    (1 ≤ (1 : Byte).toNat ∧ (1 : Byte) ≠ 0 ∧ ¬ 1 < (1 : Byte).toNat) ∧
    (0 < (1 : Byte).toNat ∧ PairUnwritten State.reset 0 0) := by
  refine ⟨⟨by decide +kernel, ?_, banks_differ⟩, by decide +kernel, by decide +kernel, .inl rfl⟩
  intro i hi
  have : i = 0 := by omega
  subst this
  exact banks_match.1

/-- The same key shared with `n` = `k` = 1 into both banks, one after the other. -/
def sharedOnce : State := stateOf (exec (.split .s1 1 1) (withKey []))

def sharedTwice : State := stateOf (exec (.split .s2 1 1) sharedOnce)

theorem witness_AdditionIsHomomorphic : exec (.split .s1 1 1) (withKey []) = .next sharedOnce ∧
    exec (.split .s2 1 1) sharedOnce = .next sharedTwice ∧ KeyIs (withKey []) (fun b => BitVec.ofNat 8 b) ∧
    KeyIs sharedOnce (fun b => BitVec.ofNat 8 b) ∧ sharedOnce.poly = (withKey []).poly ∧ sharedTwice.poly = (withKey []).poly ∧
    (∀ slot < (1 : Byte).toNat, ∀ o < 33, sharedTwice.read .s1 (bankAddr slot o) = sharedOnce.read .s1 (bankAddr slot o)) ∧
    [0].Nodup ∧ (∀ slot ∈ [0], slot < (1 : Byte).toNat) ∧ (1 : Byte).toNat ≤ [0].length ∧
    Presents (stateOf (exec (.saddn 1) sharedTwice)) (stateOf (exec (.saddn 1) sharedTwice)) .s1 [0] := by
  refine ⟨eq_next_of_isNext (by decide +kernel), eq_next_of_isNext (by decide +kernel), ?_, ?_, by decide +kernel,
    by decide +kernel, by decide +kernel, by decide +kernel, by decide +kernel, by decide +kernel, ?_⟩
  · unfold KeyIs; decide +kernel
  · unfold KeyIs; decide +kernel
  · intro j hj o _
    have : j = 0 := by simpa using hj
    subst this
    rfl

theorem witness_BankWriteResult : ¬ ((255 : Byte).toNat ≤ 254 ∧ (0 : Byte).toNat ≤ 32) ∧
    ¬ ((254 : Byte).toNat ≤ 254 ∧ (33 : Byte).toNat ≤ 32) ∧ (254 : Byte).toNat ≤ 254 ∧ (32 : Byte).toNat ≤ 32 := by decide +kernel

theorem witness_BufferWriteResult : 32 ≤ (32 : Byte).toNat ∧ (31 : Byte).toNat ≤ 31 ∧ (255 : Byte).toNat = 255 ∧
    (254 : Byte).toNat ≤ 254 := by decide +kernel

theorem witness_BankReadResult : (254 : Byte).toNat ≤ 254 ∧ (32 : Byte).toNat ≤ 32 ∧
    State.reset.read .s1 (bankAddr (254 : Byte).toNat (32 : Byte).toNat) = none ∧
    (State.reset.write .s1 (bankAddr 254 32) 7).read .s1 (bankAddr (254 : Byte).toNat (32 : Byte).toNat) = some 7 ∧
    (State.reset.write .s2 (bankAddr 254 32) 7).read .s2 (bankAddr (254 : Byte).toNat (32 : Byte).toNat) = some 7 := by
  decide +kernel

theorem witness_BufferReadResult : (withKey []).read .key (31 : Byte).toNat = some 31 ∧ State.reset.read .key (31 : Byte).toNat = none ∧
    State.reset.read .coef (254 : Byte).toNat = none ∧ (State.reset.write .coef 254 7).read .coef (254 : Byte).toNat = some 7 ∧
    (State.reset.write .basis 254 7).read .basis (254 : Byte).toNat = some 7 := by decide +kernel

theorem witness_RecordWrittenInAnyOrder : (254 : Byte).toNat ≤ 254 ∧ (List.range 33).reverse.Perm (List.range 33) :=
  ⟨by decide +kernel, List.reverse_perm _⟩

end Sys2Proof.Tests
end

section
/-! PROOFS. The step around `exec` (O6), and the legal reduction polynomials (O24): degrees add under multiplication,
so the products of degree 8 come from factors of degrees `d` and `8 - d`, and a sieve over those leaves the list of R9. -/

namespace Sys2Proof.Proofs

open Machine Claims

/-! ## The step -/

theorem step_eq_complete {s : State} {w : Word} {i : Instr} (hw : s.fetch = some w) (hd : decode w = .ok i) :
    step s = complete (exec i s) := by
  simp [step, hw, hd]

/-- Settles O6: a step is `complete` of the decoded command, whatever the outcome of `exec`. -/
theorem stepRunsDecodedInstruction : Obligations.StepRunsDecodedInstruction := by
  intro s w i hw hd
  rw [step_eq_complete hw hd]
  cases exec i s with
  | next t => rfl
  | fault f => rfl
  | refused r => rfl

/-! ## The degree of a polynomial given by its bits -/

/-- The degree of the polynomial over GF(2) whose coefficients are the bits of `v`; 0 for the zero polynomial. -/
def polyDegree {w : Nat} (v : BitVec w) : Nat := v.toNat.log2

section
variable {w : Nat} {v : BitVec w}

theorem toNat_lt_two_pow_polyDegree (v : BitVec w) : v.toNat < 2 ^ (polyDegree v + 1) :=
  Nat.lt_log2_self

theorem getLsbD_polyDegree (hv : v.toNat ≠ 0) : v.getLsbD (polyDegree v) = true :=
  Nat.testBit_log2 hv

theorem polyDegree_lt (hv : v.toNat ≠ 0) : polyDegree v < w :=
  (Nat.log2_lt hv).mpr v.isLt

theorem polyDegree_eq_iff {d : Nat} (hv : v.toNat ≠ 0) :
    polyDegree v = d ↔ 2 ^ d ≤ v.toNat ∧ v.toNat < 2 ^ (d + 1) :=
  Nat.log2_eq_iff hv

theorem one_le_polyDegree (hv : 2 ≤ v.toNat) : 1 ≤ polyDegree v :=
  (Nat.le_log2 (by omega)).mpr hv

end

/-! ## The degree of a product -/

/-- The part of `clmul a b` that the bits of `b` below `k` give. -/
def clmulBelow (a b : Byte) (k : Nat) : BitVec 16 :=
  (List.range k).foldl (fun acc i => if b.getLsbD i then acc ^^^ (a.setWidth 16 <<< i) else acc) 0

theorem clmul_eq_clmulBelow (a b : Byte) : clmul a b = clmulBelow a b 8 := rfl

theorem clmulBelow_succ (a b : Byte) (k : Nat) :
    clmulBelow a b (k + 1) =
      if b.getLsbD k then clmulBelow a b k ^^^ (a.setWidth 16 <<< k) else clmulBelow a b k := by
  simp [clmulBelow, List.range_succ]

/-- No bit is lost when a factor is shifted within the product's 16 bits. -/
theorem toNat_setWidth_shiftLeft (a : Byte) {k : Nat} (hk : k ≤ 8) :
    (a.setWidth 16 <<< k).toNat = a.toNat <<< k := by
  have hlt : a.toNat <<< k < 2 ^ 16 := by
    calc a.toNat <<< k = a.toNat * 2 ^ k := Nat.shiftLeft_eq ..
      _ < 2 ^ 8 * 2 ^ 8 := Nat.mul_lt_mul_of_lt_of_le a.isLt (Nat.pow_le_pow_right (by decide) hk) (by decide)
  rw [BitVec.toNat_shiftLeft, BitVec.toNat_setWidth_of_le (by decide), Nat.mod_eq_of_lt hlt]

theorem shiftLeft_lt_two_pow_polyDegree (a : Byte) (k : Nat) : a.toNat <<< k < 2 ^ (polyDegree a + k + 1) := by
  rw [Nat.shiftLeft_eq, Nat.add_right_comm, Nat.pow_add]
  exact Nat.mul_lt_mul_of_pos_right (toNat_lt_two_pow_polyDegree a) (Nat.two_pow_pos k)

theorem clmulBelow_lt (a b : Byte) {k : Nat} (hk : k ≤ 8) :
    (clmulBelow a b k).toNat < 2 ^ (polyDegree a + k) := by
  induction k with
  | zero => exact Nat.two_pow_pos _
  | succ k ih =>
    have below : (clmulBelow a b k).toNat < 2 ^ (polyDegree a + k + 1) :=
      (ih (by omega)).trans (Nat.pow_lt_pow_succ (by decide))
    rw [clmulBelow_succ]
    split
    · rw [BitVec.toNat_xor, toNat_setWidth_shiftLeft a (by omega)]
      exact Nat.xor_lt_two_pow below (shiftLeft_lt_two_pow_polyDegree a k)
    · exact below

theorem clmulBelow_add_eq_of_lt (a : Byte) {b : Byte} {k : Nat} (hb : b.toNat < 2 ^ k) (j : Nat) :
    clmulBelow a b (k + j) = clmulBelow a b k := by
  induction j with
  | zero => rfl
  | succ j ih =>
    have hbit : b.getLsbD (k + j) = false :=
      Nat.testBit_lt_two_pow (hb.trans_le (Nat.pow_le_pow_right (by decide) (by omega)))
    rw [← Nat.add_assoc, clmulBelow_succ, hbit, if_neg (by decide), ih]

/-- The bits of `b` above its top bit give nothing. -/
theorem clmul_eq_clmulBelow_top (a : Byte) {b : Byte} (hb : b.toNat ≠ 0) :
    clmul a b = clmulBelow a b (polyDegree b + 1) := by
  have he : polyDegree b < 8 := polyDegree_lt hb
  rw [clmul_eq_clmulBelow, ← clmulBelow_add_eq_of_lt a (toNat_lt_two_pow_polyDegree b) (7 - polyDegree b),
    show polyDegree b + 1 + (7 - polyDegree b) = 8 by omega]

/-- Degrees add: of the terms of the product only `a` shifted by the top bit of `b` reaches the place of the two top bits. -/
theorem polyDegree_clmul {a b : Byte} (ha : a.toNat ≠ 0) (hb : b.toNat ≠ 0) :
    polyDegree (clmul a b) = polyDegree a + polyDegree b := by
  have he : polyDegree b < 8 := polyDegree_lt hb
  have hlt : (clmul a b).toNat < 2 ^ (polyDegree a + (polyDegree b + 1)) :=
    clmul_eq_clmulBelow_top a hb ▸ clmulBelow_lt a b he
  have htop : (clmul a b).toNat.testBit (polyDegree a + polyDegree b) = true := by
    have ha_top : a.toNat.testBit (polyDegree a) = true := getLsbD_polyDegree ha
    rw [clmul_eq_clmulBelow_top a hb, clmulBelow_succ, if_pos (getLsbD_polyDegree hb), BitVec.toNat_xor,
      toNat_setWidth_shiftLeft a he.le, Nat.testBit_xor, Nat.testBit_lt_two_pow (clmulBelow_lt a b he.le),
      Nat.testBit_shiftLeft]
    simp [ha_top]
  have hge := Nat.ge_two_pow_of_testBit htop
  have hne : (clmul a b).toNat ≠ 0 := ((Nat.two_pow_pos _).trans_le hge).ne'
  exact (polyDegree_eq_iff hne).mpr ⟨hge, hlt⟩

/-! ## The products of degree 8 -/

/-- The bytes of degree `d`: the top bit and any bits below it. -/
def bytesOfDegree (d : Nat) : List Byte := (List.range (2 ^ d)).map fun r => BitVec.ofNat 8 (2 ^ d + r)

theorem toNat_of_mem_bytesOfDegree {d : Nat} (hd : d < 8) {a : Byte} (ha : a ∈ bytesOfDegree d) : 2 ^ d ≤ a.toNat := by
  obtain ⟨r, hr, rfl⟩ := List.mem_map.mp ha
  have hfit : 2 ^ d + r < 2 ^ 8 := by
    have := Nat.pow_le_pow_right (show 0 < 2 by decide) (show d + 1 ≤ 8 by omega)
    have := List.mem_range.mp hr
    omega
  rw [BitVec.toNat_ofNat, Nat.mod_eq_of_lt hfit]
  exact Nat.le_add_right ..

theorem mem_bytesOfDegree {a : Byte} (ha : a.toNat ≠ 0) : a ∈ bytesOfDegree (polyDegree a) := by
  obtain ⟨hle, hlt⟩ := (polyDegree_eq_iff ha).mp rfl
  refine List.mem_map.mpr ⟨a.toNat - 2 ^ polyDegree a, List.mem_range.mpr (by omega), ?_⟩
  rw [Nat.add_sub_of_le hle, BitVec.ofNat_toNat, BitVec.setWidth_eq]

/-- Every product of a factor of degree `d` and one of degree `8 - d`, for `d` from 1 to 7. -/
def productsOfDegree8 : List (BitVec 16) :=
  (List.range' 1 7).flatMap fun d => (bytesOfDegree d).flatMap fun a => (bytesOfDegree (8 - d)).map (clmul a)

/-- The products of degree 8 of two polynomials of degree at least 1 are the members of the list. -/
theorem mem_productsOfDegree8 {v : BitVec 16} (hv : polyDegree v = 8) :
    v ∈ productsOfDegree8 ↔ ∃ a b : Byte, 2 ≤ a.toNat ∧ 2 ≤ b.toNat ∧ clmul a b = v := by
  simp only [productsOfDegree8, List.mem_flatMap, List.mem_map, List.mem_range'_1]
  constructor
  · rintro ⟨d, hd, a, ha, b, hb, hab⟩
    have two_le {e : Nat} (he : 1 ≤ e ∧ e < 8) {c : Byte} (hc : c ∈ bytesOfDegree e) : 2 ≤ c.toNat :=
      (Nat.pow_le_pow_right (show 0 < 2 by decide) he.1).trans (toNat_of_mem_bytesOfDegree he.2 hc)
    exact ⟨a, b, two_le (by omega) ha, two_le (by omega) hb, hab⟩
  · rintro ⟨a, b, ha, hb, hab⟩
    have hsum := polyDegree_clmul (a := a) (b := b) (by omega) (by omega)
    rw [hab, hv] at hsum
    have hda := one_le_polyDegree ha
    have hdb := one_le_polyDegree hb
    have hb8 : b ∈ bytesOfDegree (8 - polyDegree a) := by
      rw [show 8 - polyDegree a = polyDegree b by omega]
      exact mem_bytesOfDegree (by omega)
    exact ⟨polyDegree a, by omega, a, mem_bytesOfDegree (by omega), b, hb8, hab⟩

/-! ## The sieve -/

/-- A list of numbers as one number, bit `n` set for each `n` in the list. -/
def bitSet (l : List Nat) : Nat := l.foldr (fun n m => 2 ^ n ||| m) 0

theorem testBit_bitSet (l : List Nat) (n : Nat) : (bitSet l).testBit n = true ↔ n ∈ l := by
  induction l with
  | nil => simp [bitSet]
  | cons m l ih =>
    have hcons : bitSet (m :: l) = 2 ^ m ||| bitSet l := rfl
    rw [hcons, Nat.testBit_or, Bool.or_eq_true, ih, Nat.testBit_two_pow, decide_eq_true_iff, List.mem_cons, eq_comm]

theorem toNat_mem_map {w : Nat} {l : List (BitVec w)} {v : BitVec w} : v.toNat ∈ l.map BitVec.toNat ↔ v ∈ l :=
  List.mem_map_of_injective fun _ _ h => BitVec.eq_of_toNat_eq h

/-- The sieve: of the 256 polynomials of degree 8, the legal ones and the products are the two parts. -/
theorem bitSet_products_xor_legal :
    bitSet (productsOfDegree8.map BitVec.toNat) ^^^ bitSet (Config.legalPolys.map BitVec.toNat) = (2 ^ 256 - 1) <<< 256 := by
  decide +kernel

theorem testBit_legal_eq_not_products {n : Nat} (hge : 256 ≤ n) (hlt : n < 512) :
    (bitSet (Config.legalPolys.map BitVec.toNat)).testBit n = !(bitSet (productsOfDegree8.map BitVec.toNat)).testBit n := by
  have hsieve := congrArg (Nat.testBit · n) bitSet_products_xor_legal
  have hlow : n - 256 < 256 := by omega
  simp only [Nat.testBit_xor, Nat.testBit_shiftLeft, Nat.testBit_two_pow_sub_one, hge, hlow, decide_true, Bool.and_self] at hsieve
  exact Bool.eq_not_of_ne (Bool.xor_iff_ne.mp hsieve).symm

theorem mem_legalPolys_iff_not_product {v : BitVec 9} (hv : v.getLsbD 8 = true) :
    v ∈ Config.legalPolys ↔ v.setWidth 16 ∉ productsOfDegree8 := by
  have hge : 256 ≤ v.toNat := Nat.ge_two_pow_of_testBit hv
  have hwide : (v.setWidth 16).toNat = v.toNat := BitVec.toNat_setWidth_of_le (by decide)
  rw [← toNat_mem_map, ← toNat_mem_map, hwide, ← testBit_bitSet, ← testBit_bitSet, testBit_legal_eq_not_products hge v.isLt,
    Bool.not_eq_true', Bool.not_eq_true]

theorem legalPolys_degree8 : ∀ v ∈ Config.legalPolys, v.getLsbD 8 = true := by decide

theorem polyDegree_setWidth_of_bit8 {v : BitVec 9} (hv : v.getLsbD 8 = true) : polyDegree (v.setWidth 16) = 8 := by
  have hge : 256 ≤ v.toNat := Nat.ge_two_pow_of_testBit hv
  have hwide : (v.setWidth 16).toNat = v.toNat := BitVec.toNat_setWidth_of_le (by decide)
  exact (polyDegree_eq_iff (by omega)).mpr ⟨by omega, hwide ▸ v.isLt⟩

theorem mem_legalPolys_iff_irreducible (v : BitVec 9) : v ∈ Config.legalPolys ↔
    v.getLsbD 8 = true ∧ ∀ a b : Byte, 2 ≤ a.toNat → 2 ≤ b.toNat → clmul a b ≠ v.setWidth 16 := by
  by_cases hv : v.getLsbD 8 = true
  · rw [mem_legalPolys_iff_not_product hv, mem_productsOfDegree8 (polyDegree_setWidth_of_bit8 hv)]
    simp only [hv, true_and, not_exists, not_and, ne_eq]
  · exact iff_of_false (fun h => hv (legalPolys_degree8 v h)) (fun h => hv h.1)

theorem ofBits_eq_none {v : BitVec 9} (h : v ∉ Config.legalPolys) : Poly.ofBits v = none :=
  dif_neg (by simpa using h)

/-- Settles O24: a polynomial of degree 8 is either in the list of R9 or met by the sieve over all products of degree 8. -/
theorem legalPolysAreTheIrreducibles : Obligations.LegalPolysAreTheIrreducibles :=
  ⟨rfl, by decide, mem_legalPolys_iff_irreducible, fun _ => ofBits_eq_none, rfl⟩

end Sys2Proof.Proofs
end

section
/-! PROOFS. What every command keeps (O10, O7, O8, O14, O15, O16, O18, O9, O11). One theorem, `exec_rel`, says that a command is
made of the reads and writes that R20 lists for it; frames, the invariant and noninterference are choices of the relation in it. -/

namespace Sys2Proof.Proofs

open Machine Claims

/-! ## Related states -/

/-- Relation `R` suits command `i`: two related states look the same to what `i` reads, and the writes of `i` before its ending
keep states related. -/
structure Respects (i : Instr) (R : State → State → Prop) : Prop where
  poly : ∀ {s u}, R s u → s.poly = u.poly
  read : ∀ {s u b}, readsBuf b i = true → R s u → ∀ a, s.read b a = u.read b a
  rng : ∀ {s u}, isSplit i = true → R s u → s.rng = u.rng
  write : ∀ {s u b a} v, writesBuf b i = true → a < bufSize b → R s u → R (s.write b a v) (u.write b a v)
  setRng : ∀ {s u} g, isSplit i = true → R s u → R (s.setRng g) (u.setRng g)

/-- The ending of command `i` takes states related by `R` to states related by `Q`: `R` and `STATUS` are written last. -/
structure Concludes (i : Instr) (R Q : State → State → Prop) : Prop where
  writeR : ∀ {s u} v, writesR i = true → R s u → Q (s.writeR v) (u.writeR v)
  setStatus : ∀ {s u} c, isAdd i = true → R s u → Q (s.setStatus (statusOfMatch c)) (u.setStatus (statusOfMatch c))
  stop : ∀ {s u}, writesR i = false → isAdd i = false → R s u → Q s u

/-- The same fault, or related results. -/
inductive ExceptRel {α : Type} (R : α → α → Prop) : Except Fault α → Except Fault α → Prop where
  | ok {x y : α} (h : R x y) : ExceptRel R (.ok x) (.ok y)
  | error (f : Fault) : ExceptRel R (.error f) (.error f)

theorem ExceptRel.cases {α : Type} {R : α → α → Prop} {e e' : Except Fault α} (h : ExceptRel R e e') :
    (∃ f, e = .error f ∧ e' = .error f) ∨ ∃ x y, e = .ok x ∧ e' = .ok y ∧ R x y := by
  cases h with
  | ok h => exact .inr ⟨_, _, rfl, rfl, h⟩
  | error f => exact .inl ⟨f, rfl, rfl⟩

/-- The same fault, or related next states. -/
inductive OutcomeRel (Q : State → State → Prop) :
    Host.Outcome State Fault Refusal → Host.Outcome State Fault Refusal → Prop where
  | next {t u : State} (h : Q t u) : OutcomeRel Q (.next t) (.next u)
  | fault (f : Fault) : OutcomeRel Q (.fault f) (.fault f)

theorem OutcomeRel.agree {blank : State → State} {o o' : Host.Outcome State Fault Refusal}
    (h : OutcomeRel (fun t u => blank t = blank u) o o') : agree blank o o' := by
  cases h with
  | next h => exact h
  | fault f => rfl

/-! ## The shared operations on related states -/

section
variable {i : Instr} {R Q : State → State → Prop} {s u : State}

theorem forEach_rel {f : Nat → State → Except Fault State} {l : List Nat}
    (hf : ∀ j ∈ l, ∀ s u, R s u → ExceptRel R (f j s) (f j u)) (h : R s u) :
    ExceptRel R (forEach f l s) (forEach f l u) := by
  induction l generalizing s u with
  | nil => exact .ok h
  | cons j js ih =>
    unfold forEach
    obtain ⟨e, hs, hu⟩ | ⟨s', u', hs, hu, h'⟩ := (hf j (by simp) s u h).cases <;> rw [hs, hu]
    · exact .error e
    · exact ih (fun k hk => hf k (by simp [hk])) h'

theorem require_rel {c : Bool} {f : Fault} {o o' : Host.Outcome State Fault Refusal} (h : c = true → OutcomeRel Q o o') :
    OutcomeRel Q (require c f o) (require c f o') := by
  cases c with
  | true => exact h rfl
  | false => exact .fault f

theorem finish_rel {e e' : Except Fault State} (h : ExceptRel Q e e') : OutcomeRel Q (finish e) (finish e') := by
  cases h with
  | ok h => exact .next h
  | error f => exact .fault f

theorem ExceptRel.imp {e e' : Except Fault State} (hRQ : ∀ {x y}, R x y → Q x y) (h : ExceptRel R e e') : ExceptRel Q e e' := by
  cases h with
  | ok h => exact .ok (hRQ h)
  | error f => exact .error f

variable (K : Respects i R)
include K

theorem Respects.bufRead_eq {b : Buf} (hb : readsBuf b i = true) (h : R s u) (a : Nat) : s.bufRead b a = u.bufRead b a :=
  State.bufRead_congr (K.read hb h a)

theorem Respects.readAll_eq {b : Buf} (hb : readsBuf b i = true) (h : R s u) (as : List Nat) : s.readAll b as = u.readAll b as :=
  State.readAll_congr fun a _ => K.read hb h a

theorem Respects.writeFrom_rel {b : Buf} (hb : writesBuf b i = true) {a : Nat} {vs : List Byte} (ha : a + vs.length ≤ bufSize b)
    (h : R s u) : R (s.writeFrom b a vs) (u.writeFrom b a vs) := by
  induction vs generalizing s u a with
  | nil => exact h
  | cons v vs ih =>
    rw [List.length_cons] at ha
    exact ih (by omega) (K.write v hb (by omega) h)

theorem Respects.storeByte_rel (C : Concludes i R Q) (hR : writesR i = false) (hA : isAdd i = false) {b : Buf}
    (hb : writesBuf b i = true) {c : Bool} {a : Nat} (ha : c = true → a < bufSize b) (v : Byte) (h : R s u) :
    OutcomeRel Q (storeByte c b a v s) (storeByte c b a v u) :=
  require_rel fun hc => .next (C.stop hR hA (K.write v hb (ha hc) h))

theorem Respects.loadByte_rel (C : Concludes i R Q) (hR : writesR i = true) {b : Buf} (hb : readsBuf b i = true) (c : Bool) (a : Nat)
    (h : R s u) : OutcomeRel Q (loadByte c b a s) (loadByte c b a u) := by
  refine require_rel fun _ => ?_
  rw [K.bufRead_eq hb h]
  cases u.bufRead b a with
  | error f => exact .fault f
  | ok v => exact .next (C.writeR v hR h)

/-! ## The share combiner on related states -/

theorem Respects.synthesize_eq (h1 : readsBuf .s1 i = true) (h : R s u) (k : Nat) : synthesize k s = synthesize k u := by
  unfold synthesize
  rw [K.readAll_eq h1 h, K.poly h]

theorem Respects.interpolate_rel (h1 : readsBuf .s1 i = true) (hk : writesBuf .key i = true) (k : Nat) (ls : List Byte) (h : R s u) :
    ExceptRel R (interpolate k ls s) (interpolate k ls u) := by
  refine forEach_rel (fun b hb s u h => ?_) h
  unfold interpLane
  rw [K.readAll_eq h1 h, K.poly h]
  cases u.readAll .s1 ((List.range k).map fun slot => yAddr slot b) with
  | error f => exact .error f
  | ok ys => exact .ok (K.write _ hk (List.mem_range.mp hb) h)

/-! ## The homomorphic adder on related states -/

variable (h1 : readsBuf .s1 i = true) (h2 : readsBuf .s2 i = true) (hw : writesBuf .s1 i = true)
include h1 h2 hw

theorem Respects.addByte_rel {p : Nat} (hp : p < 255) (q : Nat) {o : Nat} (ho : o < 33) (h : R s u) :
    ExceptRel R (addByte p q o s) (addByte p q o u) := by
  unfold addByte
  rw [K.bufRead_eq h1 h, K.bufRead_eq h2 h]
  cases u.bufRead .s1 (bankAddr p o) with
  | error f => exact .error f
  | ok v =>
    cases u.bufRead .s2 (bankAddr q o) with
    | error f => exact .error f
    | ok w => exact .ok (K.write _ hw (bankAddr_lt hp ho) h)

theorem Respects.addPair_rel {p : Nat} (hp : p < 255) (q : Nat) (h : R s u) :
    ExceptRel (fun x y => x.1 = y.1 ∧ R x.2 y.2) (addPair p q s) (addPair p q u) := by
  have hbytes : ExceptRel R (forEach (addByte p q) yOffsets s) (forEach (addByte p q) yOffsets u) :=
    forEach_rel (fun o ho s u h => K.addByte_rel h1 h2 hw hp q (by have := mem_yOffsets.mp ho; omega) h) h
  unfold addPair
  rw [K.bufRead_eq h1 h, K.bufRead_eq h2 h]
  cases u.bufRead .s1 (idAddr p) with
  | error f => exact .error f
  | ok v =>
    cases u.bufRead .s2 (idAddr q) with
    | error f => exact .error f
    | ok w =>
      by_cases hvw : v = w
      · simp only [if_pos hvw]
        obtain ⟨f, hs, hu⟩ | ⟨s', u', hs, hu, h'⟩ := hbytes.cases <;> rw [hs, hu]
        · exact .error f
        · exact .ok ⟨rfl, h'⟩
      · simp only [if_neg hvw]
        exact .ok ⟨rfl, h⟩

theorem Respects.addPairs_rel {l : List Nat} (hl : ∀ slot ∈ l, slot < 255) (h : R s u) :
    ExceptRel (fun x y => x.1 = y.1 ∧ R x.2 y.2) (addPairs l s) (addPairs l u) := by
  induction l generalizing s u with
  | nil => exact .ok ⟨rfl, h⟩
  | cons slot rest ih =>
    unfold addPairs
    have hpair := K.addPair_rel h1 h2 hw (hl slot (by simp)) slot h
    obtain ⟨f, hs, hu⟩ | ⟨⟨c, t⟩, ⟨d, t'⟩, hs, hu, hcd, ht⟩ := hpair.cases <;> rw [hs, hu]
    · exact .error f
    · obtain rfl : c = d := hcd
      cases c with
      | true => exact ih (fun j hj => hl j (by simp [hj])) ht
      | false => exact .ok ⟨rfl, ht⟩

end

theorem finishAdd_rel {i : Instr} {R Q : State → State → Prop} (C : Concludes i R Q) (hA : isAdd i = true)
    {e e' : Except Fault (Bool × State)} (h : ExceptRel (fun x y => x.1 = y.1 ∧ R x.2 y.2) e e') :
    OutcomeRel Q (finishAdd e) (finishAdd e') := by
  obtain ⟨f, rfl, rfl⟩ | ⟨⟨c, t⟩, ⟨d, t'⟩, rfl, rfl, hcd, ht⟩ := h.cases
  · exact .fault f
  · obtain rfl : c = d := hcd
    exact .next (C.setStatus c hA ht)

/-! ## The share generator on related states -/

section
variable {bank : Bank} {n k : Byte} {R : State → State → Prop} {s u : State}

theorem writesBuf_split : writesBuf (bankBuf bank) (.split bank n k) = true := by cases bank <;> rfl

theorem bankAddr_lt_bufSize {slot o : Nat} (hs : slot < 255) (ho : o < 33) : bankAddr slot o < bufSize (bankBuf bank) := by
  cases bank <;> exact bankAddr_lt hs ho

theorem slot_lt_of_mem_range {slot : Nat} (h : slot ∈ List.range n.toNat) : slot < 255 := by
  have := List.mem_range.mp h
  have := n.isLt
  omega

variable (K : Respects (.split bank n k) R)
include K

theorem Respects.splitLane_rel {b : Nat} (hb : b < 32) (h : R s u) :
    ExceptRel R (splitLane (bankBuf bank) n.toNat k.toNat b s) (splitLane (bankBuf bank) n.toNat k.toNat b u) := by
  unfold splitLane
  rw [K.bufRead_eq rfl h, K.rng rfl h]
  cases u.bufRead .key b with
  | error f => exact .error f
  | ok c0 =>
    cases RngPort.draw (k.toNat - 1) u.rng with
    | error f => exact .error f
    | ok draws =>
      obtain ⟨cs, g⟩ := draws
      refine forEach_rel (fun slot hs s u h => ?_) (K.setRng g rfl h)
      unfold splitShare
      rw [K.poly h]
      exact .ok (K.write _ writesBuf_split (bankAddr_lt_bufSize (slot_lt_of_mem_range hs) (by omega)) h)

theorem Respects.splitInto_rel (h : R s u) :
    ExceptRel R (splitInto (bankBuf bank) n.toNat k.toNat s) (splitInto (bankBuf bank) n.toNat k.toNat u) := by
  have hlanes : ExceptRel R (forEach (splitLane (bankBuf bank) n.toNat k.toNat) (List.range Config.keyBytes) s)
      (forEach (splitLane (bankBuf bank) n.toNat k.toNat) (List.range Config.keyBytes) u) :=
    forEach_rel (fun b hb _ _ h => K.splitLane_rel (List.mem_range.mp hb) h) h
  unfold splitInto
  obtain ⟨f, hs, hu⟩ | ⟨s', u', hs, hu, h'⟩ := hlanes.cases <;> rw [hs, hu]
  · exact .error f
  · exact forEach_rel (fun slot hs _ _ h =>
      .ok (K.write _ writesBuf_split (bankAddr_lt_bufSize (slot_lt_of_mem_range hs) (by omega)) h)) h'

end

/-! ## The commands on related states -/

section
variable {R Q : State → State → Prop} {s u : State}

theorem execGfinv_rel {a : Byte} (K : Respects (.gfinv a) R) (C : Concludes (.gfinv a) R Q) (h : R s u) :
    OutcomeRel Q (execGfinv a s) (execGfinv a u) := by
  unfold execGfinv
  rw [K.poly h]
  cases gfInv u.poly a with
  | none => exact .fault _
  | some c => exact .next (C.writeR c rfl h)

theorem execGfdiv_rel {a b : Byte} (K : Respects (.gfdiv a b) R) (C : Concludes (.gfdiv a b) R Q) (h : R s u) :
    OutcomeRel Q (execGfdiv a b s) (execGfdiv a b u) := by
  unfold execGfdiv
  rw [K.poly h]
  cases gfDiv u.poly a b with
  | none => exact .fault _
  | some c => exact .next (C.writeR c rfl h)

theorem execPeval_rel {k x : Byte} (K : Respects (.peval k x) R) (C : Concludes (.peval k x) R Q) (h : R s u) :
    OutcomeRel Q (execPeval k x s) (execPeval k x u) := by
  refine require_rel fun _ => ?_
  rw [K.readAll_eq rfl h, K.poly h]
  cases u.readAll .coef (List.range k.toNat) with
  | error f => exact .fault f
  | ok cs => exact .next (C.writeR _ rfl h)

/-- The basis values of `k` shares fit into `BASIS`. -/
theorem synthesize_length_le {k : Byte} {ls : List Byte} (h : synthesize k.toNat s = .ok ls) : ls.length ≤ bufSize .basis := by
  obtain ⟨xs, hxs, _, hls⟩ := synthesize_ok.mp h
  have hlen : ls.length = k.toNat := by simpa [basis0_length hls] using State.readAll_length hxs
  have := k.isLt
  simp only [bufSize, Config.basisLen]
  omega

theorem execLbasis_rel {k : Byte} (K : Respects (.lbasis k) R) (C : Concludes (.lbasis k) R Q) (h : R s u) :
    OutcomeRel Q (execLbasis k s) (execLbasis k u) := by
  refine require_rel fun _ => ?_
  rw [K.synthesize_eq rfl h]
  cases hls : synthesize k.toNat u with
  | error f => exact .fault f
  | ok ls => exact .next (C.stop rfl rfl (K.writeFrom_rel rfl (by simpa using synthesize_length_le hls) h))

theorem execInterp_rel {k : Byte} (K : Respects (.interp k) R) (C : Concludes (.interp k) R Q) (h : R s u) :
    OutcomeRel Q (execInterp k s) (execInterp k u) := by
  refine require_rel fun _ => ?_
  rw [K.readAll_eq rfl h]
  cases u.readAll .basis (List.range k.toNat) with
  | error f => exact .fault f
  | ok ls => exact finish_rel ((K.interpolate_rel rfl rfl _ ls h).imp (C.stop rfl rfl))

theorem execCombine_rel {k : Byte} (K : Respects (.combine k) R) (C : Concludes (.combine k) R Q) (h : R s u) :
    OutcomeRel Q (execCombine k s) (execCombine k u) := by
  refine require_rel fun _ => ?_
  rw [K.synthesize_eq rfl h]
  cases hls : synthesize k.toNat u with
  | error f => exact .fault f
  | ok ls =>
    have hbasis := K.writeFrom_rel (b := .basis) (a := 0) rfl (by simpa using synthesize_length_le hls) h
    exact finish_rel ((K.interpolate_rel rfl rfl _ ls hbasis).imp (C.stop rfl rfl))

theorem execSadd2_rel {p q : Byte} (K : Respects (.sadd2 p q) R) (C : Concludes (.sadd2 p q) R Q) (h : R s u) :
    OutcomeRel Q (execSadd2 p q s) (execSadd2 p q u) :=
  require_rel fun hc =>
    have hp : p.toNat < 255 := slotOk_iff.mp (Bool.and_eq_true_iff.mp hc).1
    finishAdd_rel C rfl (K.addPair_rel rfl rfl rfl hp q.toNat h)

theorem execSaddn_rel {n : Byte} (K : Respects (.saddn n) R) (C : Concludes (.saddn n) R Q) (h : R s u) :
    OutcomeRel Q (execSaddn n s) (execSaddn n u) :=
  require_rel fun _ => finishAdd_rel C rfl (K.addPairs_rel rfl rfl rfl (fun _ => slot_lt_of_mem_range) h)

theorem bankAddr_lt_of_ok {slot offset : Byte} (h : (slotOk slot && offsetOk offset) = true) :
    bankAddr slot.toNat offset.toNat < Config.shareBytes * Config.slots := by
  obtain ⟨hs, ho⟩ := Bool.and_eq_true_iff.mp h
  exact bankAddr_lt (slotOk_iff.mp hs) (offsetOk_iff.mp ho)

/-- A command takes related states to related outcomes. -/
theorem exec_rel {i : Instr} (K : Respects i R) (C : Concludes i R Q) (h : R s u) : OutcomeRel Q (exec i s) (exec i u) := by
  cases i with
  | gfadd a b => exact .next (C.writeR _ rfl h)
  | gfmul a b =>
    show OutcomeRel Q (.next (s.writeR (gfMul s.poly a b))) (.next (u.writeR (gfMul u.poly a b)))
    rw [K.poly h]
    exact .next (C.writeR _ rfl h)
  | gfinv a => exact execGfinv_rel K C h
  | gfdiv a b => exact execGfdiv_rel K C h
  | peval k x => exact execPeval_rel K C h
  | split bank n k => exact require_rel fun _ => finish_rel ((K.splitInto_rel h).imp (C.stop rfl rfl))
  | lbasis k => exact execLbasis_rel K C h
  | interp k => exact execInterp_rel K C h
  | combine k => exact execCombine_rel K C h
  | sadd2 p q => exact execSadd2_rel K C h
  | saddn n => exact execSaddn_rel K C h
  | wrs1 slot offset value => exact K.storeByte_rel C rfl rfl (b := .s1) rfl bankAddr_lt_of_ok value h
  | wrs2 slot offset value => exact K.storeByte_rel C rfl rfl (b := .s2) rfl bankAddr_lt_of_ok value h
  | wrkey index value => exact K.storeByte_rel C rfl rfl (b := .key) rfl keyIndexOk_iff.mp value h
  | wrcoef index value => exact K.storeByte_rel C rfl rfl (b := .coef) rfl coefIndexOk_iff.mp value h
  | wrbas index value => exact K.storeByte_rel C rfl rfl (b := .basis) rfl basisIndexOk_iff.mp value h
  | rds1 slot offset => exact K.loadByte_rel C rfl rfl _ _ h
  | rds2 slot offset => exact K.loadByte_rel C rfl rfl _ _ h
  | rdkey index => exact K.loadByte_rel C rfl rfl _ _ h
  | rdcoef index => exact K.loadByte_rel C rfl rfl _ _ h
  | rdbas index => exact K.loadByte_rel C rfl rfl _ _ h

end

/-! ## Two runs of one command -/

section
variable (s : State) (v : Byte) (b c : Buf) (a : Nat) (m : Memory)

theorem write_setMem_same : (s.write b a v).setMem b m = s.setMem b m := by simp [State.write]

theorem write_setMem_other (h : c ≠ b) : (s.write c a v).setMem b m = (s.setMem b m).write c a v := by
  rw [State.write, State.write, State.mem_setMem_other s m h, State.setMem_comm _ h.symm]

theorem writeR_setMem : (s.writeR v).setMem b m = (s.setMem b m).writeR v := by cases b <;> rfl
theorem setStatus_setMem : (s.setStatus v).setMem b m = (s.setMem b m).setStatus v := by cases b <;> rfl
theorem setRng_setMem (g : RngPort) : (s.setRng g).setMem b m = (s.setMem b m).setRng g := by cases b <;> rfl

end

theorem not_isAdd_of_writesR {i : Instr} (h : writesR i = true) : isAdd i = false := by
  cases i <;> simp [writesR] at h <;> rfl

/-- Two states that differ in buffer `b` only. -/
def SameBut (b : Buf) (s u : State) : Prop := s.setMem b [] = u.setMem b []

theorem respects_sameBut {b : Buf} {i : Instr} (hb : readsBuf b i = false) : Respects i (SameBut b) where
  poly h := by simpa using congrArg State.poly h
  rng _ h := by simpa using congrArg State.rng h
  read {s u c} hc h a := by
    have hcb : c ≠ b := fun he => by simp [he, hb] at hc
    simpa [State.read_setMem_other _ _ _ hcb] using congrArg (State.read · c a) h
  write {s u c a} v _ _ h := by
    unfold SameBut at h ⊢
    by_cases hcb : c = b
    · subst hcb
      simpa [write_setMem_same] using h
    · rw [write_setMem_other _ _ _ _ _ _ hcb, write_setMem_other _ _ _ _ _ _ hcb, h]
  setRng g _ h := by
    unfold SameBut at h ⊢
    rw [setRng_setMem, setRng_setMem, h]

theorem concludes_sameBut (b : Buf) (i : Instr) : Concludes i (SameBut b) (SameBut b) where
  writeR v _ h := by
    unfold SameBut at h ⊢
    rw [writeR_setMem, writeR_setMem, h]
  setStatus c _ h := by
    unfold SameBut at h ⊢
    rw [setStatus_setMem, setStatus_setMem, h]
  stop _ _ h := h

/-- Settles O15: states that differ in a buffer the command does not read stay so. -/
theorem onlyListedCommandsRead : Obligations.OnlyListedCommandsRead := by
  intro b i s m hb
  have hstart : SameBut b s (s.setMem b m) := by simp [SameBut]
  exact (exec_rel (respects_sameBut hb) (concludes_sameBut b i) hstart).agree

/-- `s` with other contents of `R`, of its written mark and of `STATUS`. -/
def withResponse (s : State) (v : Byte) (w : Bool) (st : Byte) : State := { s with r := v, rWritten := w, status := st }

/-- Two states that differ in `R`, its written mark and `STATUS` only. -/
def SameButResponse (s u : State) : Prop := withResponse s 0 false 0 = withResponse u 0 false 0

@[simp] theorem withResponse_read (s : State) (v : Byte) (w : Bool) (st : Byte) (b : Buf) (a : Nat) :
    (withResponse s v w st).read b a = s.read b a := by cases b <;> rfl

theorem withResponse_write (s : State) (v : Byte) (w : Bool) (st : Byte) (b : Buf) (a : Nat) (x : Byte) :
    withResponse (s.write b a x) v w st = (withResponse s v w st).write b a x := by cases b <;> rfl

theorem respects_sameButResponse (i : Instr) : Respects i SameButResponse where
  poly h := (congrArg State.poly h :)
  rng _ h := (congrArg State.rng h :)
  read {s u b} _ h a := by simpa using congrArg (State.read · b a) h
  write v _ _ h := by
    unfold SameButResponse at h ⊢
    rw [withResponse_write, withResponse_write, h]
  setRng g _ h := congrArg (State.setRng · g) h

/-- Settles O16: states that differ in `R` and `STATUS` stay so, and agree on whichever of the two the command's ending writes. -/
theorem noCommandReadsResultOrStatus : Obligations.NoCommandReadsResultOrStatus := by
  intro i s v w st
  have hK := respects_sameButResponse i
  have hstart : SameButResponse s (withResponse s v w st) := rfl
  refine ⟨?_, fun hR => ?_, fun hA => ?_⟩
  · exact (exec_rel hK ⟨fun _ _ h => h, fun _ _ h => h, fun _ _ h => h⟩ hstart).agree
  · have hC : Concludes i SameButResponse (fun t u => { t with status := 0 } = { u with status := 0 }) :=
      { writeR := fun v _ h => congrArg (State.writeR · v) h
        setStatus := fun _ hA => by simp [not_isAdd_of_writesR hR] at hA
        stop := fun hN => by simp [hR] at hN }
    exact (exec_rel hK hC hstart).agree
  · have hC : Concludes i SameButResponse
        (fun t u => { t with r := 0, rWritten := false } = { u with r := 0, rWritten := false }) :=
      { writeR := fun _ hR => by simp [not_isAdd_of_writesR hR] at hA
        setStatus := fun c _ h => congrArg (State.setStatus · (statusOfMatch c)) h
        stop := fun _ hN => by simp [hA] at hN }
    exact (exec_rel hK hC hstart).agree

/-- `s` with another index and another list of words. -/
def withPort (n : Nat) (ws : List Word) (s : State) : State := { s with ci := n, cmds := ws }

@[simp] theorem withPort_read (n : Nat) (ws : List Word) (s : State) (b : Buf) (a : Nat) :
    (withPort n ws s).read b a = s.read b a := by cases b <;> rfl

theorem withPort_write (n : Nat) (ws : List Word) (s : State) (b : Buf) (a : Nat) (v : Byte) :
    withPort n ws (s.write b a v) = (withPort n ws s).write b a v := by cases b <;> rfl

theorem respects_withPort (i : Instr) (n : Nat) (ws : List Word) : Respects i (fun s u => u = withPort n ws s) where
  poly h := h ▸ rfl
  rng _ h := h ▸ rfl
  read _ h a := by simp [h]
  write v _ _ h := by rw [h, withPort_write]
  setRng g _ h := h ▸ rfl

theorem concludes_withPort (i : Instr) (n : Nat) (ws : List Word) :
    Concludes i (fun s u => u = withPort n ws s) (fun s u => u = withPort n ws s) where
  writeR _ _ h := h ▸ rfl
  setStatus _ _ h := h ▸ rfl
  stop _ _ h := h

/-- A command neither reads nor changes the command port. -/
theorem exec_withPort (i : Instr) (s : State) (n : Nat) (ws : List Word) :
    exec i (withPort n ws s) = mapNext (withPort n ws) (exec i s) := by
  have hrel := exec_rel (respects_withPort i n ws) (concludes_withPort i n ws) (s := s) rfl
  generalize exec i s = o, exec i (withPort n ws s) = o' at hrel ⊢
  cases hrel with
  | next h => rw [h, mapNext]
  | fault f => rfl

theorem exec_port_frame {i : Instr} {s t : State} (h : exec i s = .next t) : t.ci = s.ci ∧ t.cmds = s.cmds := by
  have hself := exec_withPort i s s.ci s.cmds
  rw [show withPort s.ci s.cmds s = s from rfl, h] at hself
  have ht : t = withPort s.ci s.cmds t := Host.Outcome.next.inj hself
  rw [ht]
  exact ⟨rfl, rfl⟩

/-- Settles O7: the port is untouched by the command, and completion alone advances the index. -/
theorem indexCountsCompletedCommands : Obligations.IndexCountsCompletedCommands := by
  refine ⟨rfl, fun s t w hw h => ?_, fun s hs => ?_, exec_withPort⟩
  · obtain ⟨hnone, _⟩ | ⟨_, i, u, _, _, hu, rfl⟩ := step_cases h
    · simp [hnone] at hw
    · obtain ⟨hci, hcmds⟩ := exec_port_frame hu
      simp [hci, hcmds]
  · have hidle : s.fetch = none := List.getElem?_eq_none hs
    simp [step, hidle, idle]

/-! ## One run of a command -/

/-- Every write of command `i` before its ending keeps property `P`. -/
structure Keeps (i : Instr) (P : State → Prop) : Prop where
  write : ∀ {s b a} v, writesBuf b i = true → a < bufSize b → P s → P (s.write b a v)
  setRng : ∀ {s} g, isSplit i = true → P s → P (s.setRng g)

/-- What the writes of a command keep and its ending turns into `Q`, holds of its next state. -/
theorem exec_keeps {i : Instr} {P Q : State → Prop} {s t : State} (K : Keeps i P)
    (hwriteR : writesR i = true → ∀ u v, P u → Q (u.writeR v))
    (hsetStatus : isAdd i = true → ∀ u c, P u → Q (u.setStatus (statusOfMatch c)))
    (hstop : writesR i = false → isAdd i = false → ∀ u, P u → Q u) (hs : P s) (h : exec i s = .next t) : Q t := by
  have hR : Respects i (fun u u' => u = u' ∧ P u) :=
    { poly := fun hu => congrArg State.poly hu.1
      rng := fun _ hu => congrArg State.rng hu.1
      read := fun _ hu a => congrArg (State.read · _ a) hu.1
      write := fun v hb ha hu => ⟨congrArg (State.write · _ _ v) hu.1, K.write v hb ha hu.2⟩
      setRng := fun g hi hu => ⟨congrArg (State.setRng · g) hu.1, K.setRng g hi hu.2⟩ }
  have hC : Concludes i (fun u u' => u = u' ∧ P u) (fun u _ => Q u) :=
    { writeR := fun v hi hu => hwriteR hi _ v hu.2
      setStatus := fun c hi hu => hsetStatus hi _ c hu.2
      stop := fun h1 h2 hu => hstop h1 h2 _ hu.2 }
  have hrel := exec_rel hR hC ⟨rfl, hs⟩
  rw [h] at hrel
  cases hrel with
  | next hQ => exact hQ

theorem exec_poly {i : Instr} {s t : State} (h : exec i s = .next t) : t.poly = s.poly := by
  have hK : Keeps i fun u => u.poly = s.poly := ⟨fun v _ _ hu => by simpa using hu, fun g _ hu => hu⟩
  exact exec_keeps hK (fun _ _ _ hu => hu) (fun _ _ _ hu => hu) (fun _ _ _ hu => hu) rfl h

/-- Settles O8: no write touches `POLY`, and neither does the advance of the index. -/
theorem polyNeverChanges : Obligations.PolyNeverChanges := by
  refine ⟨fun _ _ _ => exec_poly, fun s t h => ?_⟩
  obtain ⟨_, rfl⟩ | ⟨_, i, u, _, _, hu, rfl⟩ := step_cases h
  · rfl
  · rw [State.advance_poly, exec_poly hu]

theorem exec_frame {i : Instr} {s t : State} (h : exec i s = .next t) :
    (∀ b, writesBuf b i = false → t.mem b = s.mem b) ∧ (isSplit i = false → t.rng = s.rng) := by
  refine exec_keeps (P := fun u => (∀ b, writesBuf b i = false → u.mem b = s.mem b) ∧ (isSplit i = false → u.rng = s.rng))
    ⟨?_, ?_⟩ (fun _ u v hu => by simpa using hu) (fun _ u c hu => by simpa using hu) (fun _ _ u hu => hu)
    ⟨fun _ _ => rfl, fun _ => rfl⟩ h
  · rintro u c a v hc _ ⟨hmem, hrng⟩
    refine ⟨fun b hb => ?_, by simpa using hrng⟩
    have hbc : b ≠ c := fun he => by simp [← he, hb] at hc
    rw [State.mem_write_other _ _ _ hbc, hmem b hb]
  · rintro u g hi ⟨hmem, _⟩
    exact ⟨by simpa using hmem, fun hi' => by simp [hi] at hi'⟩

theorem exec_result {i : Instr} {s t : State} (h : exec i s = .next t) :
    (writesR i = false → t.r = s.r ∧ t.rWritten = s.rWritten) ∧ (writesR i = true → t.rWritten = true) := by
  have hK : Keeps i fun u => u.r = s.r ∧ u.rWritten = s.rWritten := ⟨fun v _ _ hu => by simpa using hu, fun g _ hu => hu⟩
  refine exec_keeps
    (Q := fun t => (writesR i = false → t.r = s.r ∧ t.rWritten = s.rWritten) ∧ (writesR i = true → t.rWritten = true))
    hK (fun hR u v _ => ?_) (fun hA u c hu => ?_) (fun hR _ u hu => ?_) ⟨rfl, rfl⟩ h
  · exact ⟨fun hN => by simp [hR] at hN, fun _ => rfl⟩
  · exact ⟨fun _ => hu, fun hR => by simp [not_isAdd_of_writesR hR] at hA⟩
  · exact ⟨fun _ => hu, fun hT => by simp [hR] at hT⟩

/-- Settles O14: the buffers and the port from the writes of the command, `R` from its ending. -/
theorem onlyListedCommandsWrite : Obligations.OnlyListedCommandsWrite := by
  intro i s t h
  obtain ⟨hmem, hrng⟩ := exec_frame h
  obtain ⟨hkept, hwritten⟩ := exec_result h
  exact ⟨hkept, hwritten, fun b hb => ⟨hmem b hb, fun a => by rw [State.read, State.read, hmem b hb]⟩, hrng⟩

/-- Nothing written in `s` is unwritten in `t`. -/
def WrittenKept (s t : State) : Prop :=
  (∀ b a, s.read b a ≠ none → t.read b a ≠ none) ∧ (s.rWritten = true → t.rWritten = true)

theorem exec_writtenKept {i : Instr} {s t : State} (h : exec i s = .next t) : WrittenKept s t := by
  have hK : Keeps i (WrittenKept s) := by
    refine ⟨?_, fun g _ hu => ⟨by simpa using hu.1, hu.2⟩⟩
    rintro u c a v _ _ ⟨hread, hR⟩
    refine ⟨fun b a' hb => ?_, by simpa using hR⟩
    rw [State.read_write]
    split
    · exact Option.some_ne_none v
    · exact hread b a' hb
  exact exec_keeps hK (fun _ _ _ hu => ⟨by simpa using hu.1, fun _ => rfl⟩) (fun _ _ _ hu => ⟨by simpa using hu.1, hu.2⟩)
    (fun _ _ _ hu => hu) ⟨fun _ _ => id, id⟩ h

/-- Settles O18: every write of a command leaves a written byte behind. -/
theorem writtenStaysWritten : Obligations.WrittenStaysWritten := by
  intro s t h
  obtain ⟨_, rfl⟩ | ⟨_, i, u, _, _, hu, rfl⟩ := step_cases h
  · exact ⟨fun _ _ => id, id⟩
  · simpa [WrittenKept] using exec_writtenKept hu

/-! ## The invariant -/

theorem bufOk_write {s : State} {c : Buf} {a : Nat} (v : Byte) (ha : a < bufSize c) {b : Buf} (h : bufOk s b = true) :
    bufOk (s.write c a v) b = true := by
  unfold bufOk at h ⊢
  by_cases hbc : b = c
  · subst hbc
    obtain ⟨hwf, hin⟩ := Bool.and_eq_true_iff.mp h
    rw [State.mem_write_same, Memory.wf_write a v hwf, Memory.within_write v ha hin, Bool.and_self]
  · rw [State.mem_write_other _ _ _ hbc, h]

theorem bufOk_congr {s t : State} {b : Buf} (h : t.mem b = s.mem b) : bufOk t b = bufOk s b := by
  rw [bufOk, bufOk, h]

/-- The part of the invariant that one command keeps by itself: that of `STATUS` and the buffers. -/
def DataOk (s : State) : Prop := (s.status = statusOk ∨ s.status = statusIdMismatch) ∧ ∀ b, bufOk s b = true

theorem inv_iff {s : State} : s.Inv = true ↔ DataOk s ∧ s.ci ≤ s.cmds.length := by
  have hall : (∀ b, bufOk s b = true) ↔ bufOk s .s1 = true ∧ bufOk s .s2 = true ∧ bufOk s .key = true ∧
      bufOk s .coef = true ∧ bufOk s .basis = true := by
    refine ⟨fun h => ⟨h _, h _, h _, h _, h _⟩, ?_⟩
    rintro ⟨h1, h2, hk, hc, hb⟩ b
    cases b <;> assumption
  simp only [State.Inv, DataOk, hall, Bool.and_eq_true, Bool.or_eq_true, decide_eq_true_eq, and_assoc]

theorem statusOfMatch_cases (c : Bool) : statusOfMatch c = statusOk ∨ statusOfMatch c = statusIdMismatch := by
  cases c with
  | true => exact .inl rfl
  | false => exact .inr rfl

theorem exec_dataOk {i : Instr} {s t : State} (hs : DataOk s) (h : exec i s = .next t) : DataOk t := by
  have hK : Keeps i DataOk := by
    refine ⟨?_, fun g _ hu => ⟨hu.1, fun b => by rw [bufOk_congr (State.setRng_mem ..), hu.2 b]⟩⟩
    rintro u c a v _ ha ⟨hst, hbufs⟩
    exact ⟨by simpa using hst, fun b => bufOk_write v ha (hbufs b)⟩
  refine exec_keeps hK (fun _ u v hu => ?_) (fun _ u c hu => ?_) (fun _ _ u hu => hu) hs h
  · exact ⟨hu.1, fun b => by rw [bufOk_congr (State.writeR_mem ..), hu.2 b]⟩
  · exact ⟨statusOfMatch_cases c, fun b => by rw [bufOk_congr (State.setStatus_mem ..), hu.2 b]⟩

/-- Settles O10: every write is in its buffer's range, and a command runs only while the index is inside the list. -/
theorem stepKeepsInvariant : Obligations.StepKeepsInvariant := by
  intro s t hs h
  obtain ⟨_, rfl⟩ | ⟨_, i, u, hw, _, hu, rfl⟩ := step_cases h
  · exact hs
  · obtain ⟨hst, hbufs⟩ := exec_dataOk (inv_iff.mp hs).1 hu
    obtain ⟨hci, hcmds⟩ := exec_port_frame hu
    refine inv_iff.mpr ⟨⟨hst, fun b => by rw [bufOk_congr (State.advance_mem ..), hbufs b]⟩, ?_⟩
    rw [State.advance_ci, State.advance_cmds, hci, hcmds]
    exact State.fetch_some hw

/-! ## Reset -/

theorem reset_mem (b : Buf) : State.reset.mem b = [] := by cases b <;> rfl

/-- Settles O9: every buffer is empty, and so in canonical form. -/
theorem resetMeetsInvariant : Obligations.ResetMeetsInvariant :=
  inv_iff.mpr ⟨⟨.inl rfl, fun b => by rw [bufOk, reset_mem]; rfl⟩, le_refl 0⟩

/-- Settles O11: an empty buffer gives no byte, an empty list no word. -/
theorem resetState : Obligations.ResetState :=
  ⟨rfl, rfl, rfl, fun b a => by rw [State.read, reset_mem, Memory.read_nil], rfl, rfl⟩

end Sys2Proof.Proofs
end

section
/-! PROOFS. The encoding (O2, O3, O5, O19, O1, O4). Each row of the table of R75 is described once: its opcode, its format and its
command. The decoder, the encoder and the table agree because all three follow that description. -/

namespace Sys2Proof.Proofs

open Machine Claims

/-! ## The formats of a command word -/

/-- The formats of R71 to R73, with `SPLIT` (R76) apart: they differ in what must be zero. -/
inductive WordFormat where
  | f1
  | f2
  | f3
  | bank
  deriving DecidableEq

namespace WordFormat

def opcodes : WordFormat → List Byte
  | f1 => opcodesF1
  | f2 => opcodesF2
  | f3 => [0x30, 0x31]
  | bank => [0x10]

/-- `OP` and the must-be-zero bits. -/
def mask : WordFormat → Word
  | f1 => wordOf 0xFF 0 0xFF 0xFF
  | f2 => wordOf 0xFF 0 0 0xFF
  | f3 => wordOf 0xFF 0 0 0
  | bank => wordOf 0xFF 0xFE 0 0

/-- The must-be-zero bits of the fields `A`, `B`, `C` are zero. -/
def Fits : WordFormat → Byte → Byte → Byte → Prop
  | f1, _, b, c => b = 0 ∧ c = 0
  | f2, _, _, c => c = 0
  | f3, _, _, _ => True
  | bank, a, _, _ => a = 0 ∨ a = 1

/-- The formats part the listed opcodes. -/
theorem mem_opcodes (fmt : WordFormat) : ∀ op ∈ fmt.opcodes, op ∈ opcodesF1 ++ opcodesF2 ++ opcodesF3 ∧
    (op ∈ opcodesF1 ↔ fmt = f1) ∧ (op ∈ opcodesF2 ↔ fmt = f2) ∧ (op = 0x10 ↔ fmt = bank) := by
  cases fmt <;> decide

theorem and_bankMask_eq_zero_iff : ∀ a : Byte, a &&& 254#8 = 0#8 ↔ a = 0#8 ∨ a = 1#8 := by decide

theorem and_mask_eq_iff (fmt : WordFormat) {op code a b c : Byte} :
    wordOf op a b c &&& fmt.mask = wordOf code 0 0 0 ↔ op = code ∧ fmt.Fits a b c := by
  cases fmt <;> simp [mask, Fits, wordOf_and, wordOf_inj, Laws.FitsRow.and_ones, and_bankMask_eq_zero_iff]

end WordFormat

/-! ## The rows of the table -/

/-- Row `r` has opcode `code` and format `fmt`, and `mk` is its command, in the decoder, the encoder and the operand columns. -/
structure Describes (r : Row) (code : Byte) (fmt : WordFormat) (mk : Byte → Byte → Byte → Instr) : Prop where
  pattern : r.pattern = wordOf code 0 0 0
  mask : r.mask = fmt.mask
  opcode : code ∈ fmt.opcodes
  legal : ∀ {a b c}, fmt.Fits a b c → decodeFields code a b c = .ok (mk a b c)
  illegal : ∀ {a b c}, ¬ fmt.Fits a b c → ∃ e, decodeFields code a b c = .error e
  command : ∀ {a b c}, fmt.Fits a b c →
    (mk a b c).mnemonic = r.mnemonic ∧ encode (mk a b c) = wordOf code a b c ∧ operands (mk a b c) = (a, b, c)

def Described (r : Row) : Prop := ∃ code fmt mk, Describes r code fmt mk

theorem described_f1 {name : String} (code : Byte) (mk : Byte → Instr) (hcode : code ∈ opcodesF1)
    (hdecode : ∀ a b c, decodeFields code a b c = formatF1 b c (mk a))
    (hmk : ∀ a, (mk a).mnemonic = name ∧ encode (mk a) = wordOf code a 0 0 ∧ operands (mk a) = (a, 0, 0)) :
    Described ⟨name, wordOf code 0 0 0, WordFormat.f1.mask⟩ :=
  ⟨code, .f1, fun a _ _ => mk a,
    { pattern := rfl
      mask := rfl
      opcode := hcode
      legal := fun h => (hdecode ..).trans (if_pos h)
      illegal := fun h => ⟨_, (hdecode ..).trans (if_neg h)⟩
      command := by
        rintro a _ _ ⟨rfl, rfl⟩
        exact hmk a }⟩

theorem described_f2 {name : String} (code : Byte) (mk : Byte → Byte → Instr) (hcode : code ∈ opcodesF2)
    (hdecode : ∀ a b c, decodeFields code a b c = formatF2 c (mk a b))
    (hmk : ∀ a b, (mk a b).mnemonic = name ∧ encode (mk a b) = wordOf code a b 0 ∧ operands (mk a b) = (a, b, 0)) :
    Described ⟨name, wordOf code 0 0 0, WordFormat.f2.mask⟩ :=
  ⟨code, .f2, fun a b _ => mk a b,
    { pattern := rfl
      mask := rfl
      opcode := hcode
      legal := fun h => (hdecode ..).trans (if_pos h)
      illegal := fun h => ⟨_, (hdecode ..).trans (if_neg h)⟩
      command := by
        rintro a b _ rfl
        exact hmk a b }⟩

theorem described_f3 {name : String} (code : Byte) (mk : Byte → Byte → Byte → Instr) (hcode : code ∈ WordFormat.f3.opcodes)
    (hdecode : ∀ a b c, decodeFields code a b c = .ok (mk a b c))
    (hmk : ∀ a b c, (mk a b c).mnemonic = name ∧ encode (mk a b c) = wordOf code a b c ∧ operands (mk a b c) = (a, b, c)) :
    Described ⟨name, wordOf code 0 0 0, WordFormat.f3.mask⟩ :=
  ⟨code, .f3, mk,
    { pattern := rfl
      mask := rfl
      opcode := hcode
      legal := fun _ => hdecode ..
      illegal := fun h => absurd trivial h
      command := fun _ => hmk .. }⟩

/-- The `SPLIT` command with field `A` as the bank (R76). -/
def splitOf (a n k : Byte) : Instr := .split (if a = 0 then .s1 else .s2) n k

theorem described_split : Described ⟨"SPLIT", wordOf 0x10 0 0 0, WordFormat.bank.mask⟩ :=
  ⟨0x10, .bank, splitOf,
    { pattern := rfl
      mask := rfl
      opcode := by decide
      legal := by rintro a n k (rfl | rfl) <;> rfl
      illegal := fun h =>
        have ⟨h0, h1⟩ := not_or.mp h
        ⟨.splitBank, (if_neg h0).trans (if_neg h1)⟩
      command := by rintro a n k (rfl | rfl) <;> exact ⟨rfl, rfl, rfl⟩ }⟩

theorem described_of_mem : ∀ r ∈ opcodeTable, Described r := by
  simp only [opcodeTable, List.forall_mem_append, List.forall_mem_cons]
  exact
    ⟨⟨described_f2 0x01 .gfadd (by decide) (fun _ _ _ => rfl) fun _ _ => ⟨rfl, rfl, rfl⟩,
      described_f2 0x02 .gfmul (by decide) (fun _ _ _ => rfl) fun _ _ => ⟨rfl, rfl, rfl⟩,
      described_f1 0x03 .gfinv (by decide) (fun _ _ _ => rfl) fun _ => ⟨rfl, rfl, rfl⟩,
      described_f2 0x04 .gfdiv (by decide) (fun _ _ _ => rfl) fun _ _ => ⟨rfl, rfl, rfl⟩,
      described_f2 0x08 .peval (by decide) (fun _ _ _ => rfl) fun _ _ => ⟨rfl, rfl, rfl⟩,
      described_split,
      described_f1 0x18 .lbasis (by decide) (fun _ _ _ => rfl) fun _ => ⟨rfl, rfl, rfl⟩,
      described_f1 0x19 .interp (by decide) (fun _ _ _ => rfl) fun _ => ⟨rfl, rfl, rfl⟩,
      described_f1 0x1A .combine (by decide) (fun _ _ _ => rfl) fun _ => ⟨rfl, rfl, rfl⟩,
      described_f2 0x20 .sadd2 (by decide) (fun _ _ _ => rfl) fun _ _ => ⟨rfl, rfl, rfl⟩,
      described_f1 0x21 .saddn (by decide) (fun _ _ _ => rfl) fun _ => ⟨rfl, rfl, rfl⟩,
      List.forall_mem_nil _⟩,
     described_f3 0x30 .wrs1 (by decide) (fun _ _ _ => rfl) fun _ _ _ => ⟨rfl, rfl, rfl⟩,
     described_f3 0x31 .wrs2 (by decide) (fun _ _ _ => rfl) fun _ _ _ => ⟨rfl, rfl, rfl⟩,
     described_f2 0x32 .wrkey (by decide) (fun _ _ _ => rfl) fun _ _ => ⟨rfl, rfl, rfl⟩,
     described_f2 0x33 .wrcoef (by decide) (fun _ _ _ => rfl) fun _ _ => ⟨rfl, rfl, rfl⟩,
     described_f2 0x34 .wrbas (by decide) (fun _ _ _ => rfl) fun _ _ => ⟨rfl, rfl, rfl⟩,
     described_f2 0x38 .rds1 (by decide) (fun _ _ _ => rfl) fun _ _ => ⟨rfl, rfl, rfl⟩,
     described_f2 0x39 .rds2 (by decide) (fun _ _ _ => rfl) fun _ _ => ⟨rfl, rfl, rfl⟩,
     described_f1 0x3A .rdkey (by decide) (fun _ _ _ => rfl) fun _ => ⟨rfl, rfl, rfl⟩,
     described_f1 0x3B .rdcoef (by decide) (fun _ _ _ => rfl) fun _ => ⟨rfl, rfl, rfl⟩,
     described_f1 0x3C .rdbas (by decide) (fun _ _ _ => rfl) fun _ => ⟨rfl, rfl, rfl⟩,
     List.forall_mem_nil _⟩

theorem exists_row_of_opcode :
    ∀ op ∈ opcodesF1 ++ opcodesF2 ++ opcodesF3, ∃ r ∈ opcodeTable, r.pattern = wordOf op 0 0 0 := by decide

theorem mnemonic_injOn {r q : Row} (hr : r ∈ opcodeTable) (hq : q ∈ opcodeTable) (h : r.mnemonic = q.mnemonic) : r = q :=
  List.inj_on_of_nodup_map (f := Row.mnemonic) (by decide) hr hq h

/-! ## Decoding by the table -/

theorem decode_wordOf (op a b c : Byte) : decode (wordOf op a b c) = decodeFields op a b c := by simp [decode]

theorem decode_of_unused {w : Word} (h : fieldOp w ∉ opcodesF1 ++ opcodesF2 ++ opcodesF3) :
    decode w = .error .unknownOpcode := by
  simp only [opcodesF1, opcodesF2, opcodesF3, List.cons_append, List.nil_append, List.mem_cons, List.not_mem_nil, or_false,
    not_or] at h
  simp only [decode, decodeFields, h, if_false]

/-- The row of a listed opcode. -/
theorem exists_describes {w : Word} (h : fieldOp w ∈ opcodesF1 ++ opcodesF2 ++ opcodesF3) :
    ∃ r ∈ opcodeTable, ∃ fmt mk, Describes r (fieldOp w) fmt mk := by
  obtain ⟨r, hr, hpattern⟩ := exists_row_of_opcode _ h
  obtain ⟨code, fmt, mk, D⟩ := described_of_mem r hr
  obtain rfl : fieldOp w = code := (wordOf_inj.mp (hpattern.symm.trans D.pattern)).1
  exact ⟨r, hr, fmt, mk, D⟩

theorem Describes.match_iff {r : Row} {code : Byte} {fmt : WordFormat} {mk : Byte → Byte → Byte → Instr}
    (D : Describes r code fmt mk) {w : Word} :
    w &&& r.mask = r.pattern ↔ fieldOp w = code ∧ fmt.Fits (fieldA w) (fieldB w) (fieldC w) := by
  rw [D.mask, D.pattern, ← fmt.and_mask_eq_iff, wordOf_fields]

theorem Describes.decode_error_iff {r : Row} {w : Word} {fmt : WordFormat} {mk : Byte → Byte → Byte → Instr}
    (D : Describes r (fieldOp w) fmt mk) :
    (∃ e, decode w = .error e) ↔ ¬ fmt.Fits (fieldA w) (fieldB w) (fieldC w) := by
  refine ⟨?_, D.illegal⟩
  rintro ⟨e, he⟩ hfits
  exact absurd ((D.legal hfits).symm.trans he) (by simp)

/-- A word that matches a row decodes to that row's command. -/
theorem decode_of_match {r : Row} (hr : r ∈ opcodeTable) {w : Word} (hw : w &&& r.mask = r.pattern) :
    ∃ i, decode w = .ok i ∧ i.mnemonic = r.mnemonic := by
  obtain ⟨code, fmt, mk, D⟩ := described_of_mem r hr
  obtain ⟨rfl, hfits⟩ := D.match_iff.mp hw
  exact ⟨_, D.legal hfits, (D.command hfits).1⟩

/-- A word that decodes to `i` matches the row of `i`, and is the encoding of `i`, with its operands as fields. -/
theorem decode_ok {w : Word} {i : Instr} (h : decode w = .ok i) :
    (∃ r ∈ opcodeTable, r.mnemonic = i.mnemonic ∧ r.pattern = wordOf (fieldOp w) 0 0 0 ∧ w &&& r.mask = r.pattern) ∧
      encode i = w ∧ operands i = (fieldA w, fieldB w, fieldC w) := by
  by_cases hop : fieldOp w ∈ opcodesF1 ++ opcodesF2 ++ opcodesF3
  · obtain ⟨r, hr, fmt, mk, D⟩ := exists_describes hop
    by_cases hfits : fmt.Fits (fieldA w) (fieldB w) (fieldC w)
    · obtain rfl : mk (fieldA w) (fieldB w) (fieldC w) = i := Except.ok.inj ((D.legal hfits).symm.trans h)
      obtain ⟨hname, henc, hops⟩ := D.command hfits
      exact ⟨⟨r, hr, hname.symm, D.pattern, D.match_iff.mpr ⟨rfl, hfits⟩⟩, henc.trans (wordOf_fields w), hops⟩
    · obtain ⟨e, he⟩ := D.decode_error_iff.mpr hfits
      cases he.symm.trans h
  · cases (decode_of_unused hop).symm.trans h

theorem encode_of_decode {w : Word} {i : Instr} (h : decode w = .ok i) : encode i = w :=
  have ⟨_, hencode, _⟩ := decode_ok h
  hencode

theorem operands_of_decode {w : Word} {i : Instr} (h : decode w = .ok i) : operands i = (fieldA w, fieldB w, fieldC w) :=
  have ⟨_, _, hoperands⟩ := decode_ok h
  hoperands

theorem match_iff_decode {r : Row} (hr : r ∈ opcodeTable) (w : Word) :
    w &&& r.mask = r.pattern ↔ ∃ i, decode w = .ok i ∧ i.mnemonic = r.mnemonic := by
  refine ⟨decode_of_match hr, ?_⟩
  rintro ⟨i, hi, hname⟩
  obtain ⟨⟨q, hq, hqname, -, hmatch⟩, -⟩ := decode_ok hi
  rwa [mnemonic_injOn hr hq (hname.symm.trans hqname.symm)]

theorem decodes_iff_match (w : Word) : (∃ i, decode w = .ok i) ↔ ∃ r ∈ opcodeTable, w &&& r.mask = r.pattern := by
  constructor
  · rintro ⟨i, hi⟩
    obtain ⟨⟨r, hr, -, -, hmatch⟩, -⟩ := decode_ok hi
    exact ⟨r, hr, hmatch⟩
  · rintro ⟨r, hr, hmatch⟩
    obtain ⟨i, hi, -⟩ := decode_of_match hr hmatch
    exact ⟨i, hi⟩

/-! ## The encoder -/

theorem decode_encode (i : Instr) : decode (encode i) = .ok i := by
  cases i with
  | split bank n k => cases bank <;> exact decode_wordOf ..
  | _ => exact decode_wordOf ..

/-- The fields of a word put together by shifts and OR (R79). -/
theorem wordOf_eq_or (op a b c : Byte) :
    wordOf op a b c = wordOf op 0 0 0 ||| (a.setWidth 32 <<< 16) ||| (b.setWidth 32 <<< 8) ||| c.setWidth 32 := by
  apply BitVec.eq_of_getLsbD_eq
  intro i hi
  simp only [BitVec.getLsbD_or, BitVec.getLsbD_shiftLeft, BitVec.getLsbD_setWidth, getLsbD_wordOf]
  by_cases h1 : i < 8
  · simp [h1, hi, show i < 16 by omega]
  by_cases h2 : i < 16
  · simp [h1, h2, hi, show i - 8 < 32 by omega, BitVec.getLsbD_of_ge c i (by omega)]
  by_cases h3 : i < 24
  · simp [h1, h2, h3, hi, show i - 16 < 32 by omega, BitVec.getLsbD_of_ge c i (by omega),
      BitVec.getLsbD_of_ge b (i - 8) (by omega)]
  · simp [h1, h2, h3, BitVec.getLsbD_of_ge c i (by omega), BitVec.getLsbD_of_ge b (i - 8) (by omega),
      BitVec.getLsbD_of_ge a (i - 16) (by omega)]

theorem encode_eq_or (i : Instr) : ∃ r ∈ opcodeTable, r.mnemonic = i.mnemonic ∧
    encode i = r.pattern ||| ((operands i).1.setWidth 32 <<< 16) ||| ((operands i).2.1.setWidth 32 <<< 8) |||
      (operands i).2.2.setWidth 32 := by
  obtain ⟨⟨r, hr, hname, hpattern, -⟩, -, hops⟩ := decode_ok (decode_encode i)
  exact ⟨r, hr, hname, by rw [hops, hpattern, ← wordOf_eq_or, wordOf_fields]⟩

/-- Settles O2: the round trip of every command is evaluated, and the rest is what the description of the table's rows says. -/
theorem decodeEncodeInverse : Obligations.DecodeEncodeInverse :=
  ⟨decode_encode, fun _ _ => encode_of_decode, decodes_iff_match, fun _ _ => operands_of_decode, encode_eq_or⟩

/-- Settles O3: mnemonics name one row each, so the row that a decoded word matches is the row of its command. -/
theorem decodeFollowsTable : Obligations.DecodeFollowsTable :=
  ⟨fun w _ hr => match_iff_decode hr w, fun _ _ => operands_of_decode⟩

/-! ## Illegal words -/

/-- The clauses of R77 for one opcode and its fields. -/
def IllegalFields (op a b c : Byte) : Prop :=
  op ∉ opcodesF1 ++ opcodesF2 ++ opcodesF3 ∨ (op ∈ opcodesF1 ∧ (b ≠ 0 ∨ c ≠ 0)) ∨ (op ∈ opcodesF2 ∧ c ≠ 0) ∨
    (op = 0x10 ∧ 2 ≤ a.toNat)

theorem two_le_toNat_iff {a : Byte} : 2 ≤ a.toNat ↔ ¬ (a = 0 ∨ a = 1) := by
  bv_omega

/-- Of the clauses of R77 only that of the opcode's own format can hold. -/
theorem illegalFields_iff {fmt : WordFormat} {op a b c : Byte} (h : op ∈ fmt.opcodes) :
    IllegalFields op a b c ↔ ¬ fmt.Fits a b c := by
  obtain ⟨hlisted, hf1, hf2, hbank⟩ := fmt.mem_opcodes op h
  rw [IllegalFields, or_iff_right (not_not_intro hlisted), hf1, hf2, hbank, two_le_toNat_iff]
  cases fmt <;> simp [WordFormat.Fits, Decidable.imp_iff_not_or]

theorem decode_error_iff_illegalFields (w : Word) :
    (∃ e, decode w = .error e) ↔ IllegalFields (fieldOp w) (fieldA w) (fieldB w) (fieldC w) := by
  by_cases hop : fieldOp w ∈ opcodesF1 ++ opcodesF2 ++ opcodesF3
  · obtain ⟨r, hr, fmt, mk, D⟩ := exists_describes hop
    rw [D.decode_error_iff, illegalFields_iff D.opcode]
  · exact iff_of_true ⟨_, decode_of_unused hop⟩ (.inl hop)

theorem decode_error_iff {w : Word} : (∃ e, decode w = .error e) ↔ ¬ ∃ i, decode w = .ok i := by
  cases decode w <;> simp

/-! ## The reasons a command faults with -/

/-- Every fault of the outcome is listed. -/
def FaultsAmong (l : List Fault) (o : Host.Outcome State Fault Refusal) : Prop := ∀ f, o = .fault f → f ∈ l

section
variable {l : List Fault} {c : Bool} {s : State}

theorem FaultsAmong.next : FaultsAmong l (.next s) := by
  intro f h
  cases h

theorem FaultsAmong.fault {f : Fault} (h : f ∈ l) : FaultsAmong l (.fault f) := by
  rintro f' ⟨⟩
  exact h

theorem FaultsAmong.require {f : Fault} {o : Host.Outcome State Fault Refusal} (hf : f ∈ l) (ho : FaultsAmong l o) :
    FaultsAmong l (require c f o) := by
  intro e he
  obtain ⟨-, rfl⟩ | ⟨-, he⟩ := require_fault.mp he
  · exact hf
  · exact ho e he

theorem FaultsAmong.finish {e : Except Fault State} (h : ∀ f, e = .error f → f ∈ l) : FaultsAmong l (finish e) :=
  fun f hf => h f (finish_fault.mp hf)

theorem FaultsAmong.finishAdd {e : Except Fault (Bool × State)} (h : ∀ f, e = .error f → f ∈ l) :
    FaultsAmong l (finishAdd e) :=
  fun f hf => h f (finishAdd_fault.mp hf)

theorem storeByte_faultsAmong {b : Buf} {a : Nat} {v : Byte} : FaultsAmong [.indexOutOfRange] (storeByte c b a v s) :=
  .require (by decide) .next

theorem loadByte_faultsAmong {b : Buf} {a : Nat} : FaultsAmong [.indexOutOfRange, .unwrittenRead] (loadByte c b a s) := by
  intro f h
  obtain ⟨-, rfl⟩ | ⟨-, -, rfl⟩ := loadByte_fault.mp h <;> decide

end

section
variable {k : Nat} {s : State} {f : Fault}

theorem interpolate_error {ls : List Byte} (h : interpolate k ls s = .error f) : f = .unwrittenRead := by
  obtain ⟨b, -, u, hu⟩ := forEach_error h
  exact (interpLane_error.mp hu).1

theorem splitInto_error {d : Buf} {n : Nat} (h : splitInto d n k s = .error f) : f = .unwrittenRead ∨ f = .rngFailure := by
  unfold splitInto at h
  cases hl : forEach (splitLane d n k) (List.range Config.keyBytes) s with
  | error e =>
    obtain rfl : e = f := by simpa [hl] using h
    obtain ⟨b, -, u, hu⟩ := forEach_error hl
    exact (splitLane_error hu).imp And.right And.right
  | ok t =>
    rw [hl] at h
    obtain ⟨slot, -, u, hu⟩ := forEach_error h
    cases hu

end

section
variable {a b k x n p q : Byte} {bank : Bank} {s : State}

theorem execGfinv_faultsAmong : FaultsAmong [.inverseOfZero] (execGfinv a s) := by
  unfold execGfinv
  cases gfInv s.poly a with
  | none => exact .fault (by decide)
  | some c => exact .next

theorem execGfdiv_faultsAmong : FaultsAmong [.inverseOfZero] (execGfdiv a b s) := by
  unfold execGfdiv
  cases gfDiv s.poly a b with
  | none => exact .fault (by decide)
  | some c => exact .next

theorem execPeval_faultsAmong : FaultsAmong [.countOutOfRange, .unwrittenRead] (execPeval k x s) := by
  refine .require (by decide) ?_
  cases h : s.readAll .coef (List.range k.toNat) with
  | error f => exact .fault (by simp [(State.readAll_error.mp h).1])
  | ok cs => exact .next

theorem execSplit_faultsAmong : FaultsAmong [.countOutOfRange, .unwrittenRead, .rngFailure] (execSplit bank n k s) := by
  refine .require (by decide) (.finish fun f h => ?_)
  obtain rfl | rfl := splitInto_error h <;> decide

theorem execLbasis_faultsAmong : FaultsAmong [.countOutOfRange, .unwrittenRead, .badIdentifiers] (execLbasis k s) := by
  refine .require (by decide) ?_
  cases h : synthesize k.toNat s with
  | error f => exact .fault (by obtain rfl | rfl := synthesize_error h <;> decide)
  | ok ls => exact .next

theorem execInterp_faultsAmong : FaultsAmong [.countOutOfRange, .unwrittenRead] (execInterp k s) := by
  refine .require (by decide) ?_
  cases h : s.readAll .basis (List.range k.toNat) with
  | error f => exact .fault (by simp [(State.readAll_error.mp h).1])
  | ok ls => exact .finish fun f hf => by simp [interpolate_error hf]

theorem execCombine_faultsAmong : FaultsAmong [.countOutOfRange, .unwrittenRead, .badIdentifiers] (execCombine k s) := by
  refine .require (by decide) ?_
  cases h : synthesize k.toNat s with
  | error f => exact .fault (by obtain rfl | rfl := synthesize_error h <;> decide)
  | ok ls => exact .finish fun f hf => by simp [interpolate_error hf]

theorem execSadd2_faultsAmong : FaultsAmong [.indexOutOfRange, .unwrittenRead] (execSadd2 p q s) :=
  .require (by decide) (.finishAdd fun f hf => by simp [addPair_error hf])

theorem execSaddn_faultsAmong : FaultsAmong [.countOutOfRange, .unwrittenRead] (execSaddn n s) :=
  .require (by decide) (.finishAdd fun f hf => by simp [addPairs_error hf])

end

/-- A command faults only with the reasons that R222 lists for it. -/
theorem exec_faultsAmong_mayRaise (i : Instr) (s : State) : FaultsAmong (mayRaise i) (exec i s) := by
  cases i with
  | gfadd a b => exact .next
  | gfmul a b => exact .next
  | gfinv a => exact execGfinv_faultsAmong
  | gfdiv a b => exact execGfdiv_faultsAmong
  | peval k x => exact execPeval_faultsAmong
  | split bank n k => exact execSplit_faultsAmong
  | lbasis k => exact execLbasis_faultsAmong
  | interp k => exact execInterp_faultsAmong
  | combine k => exact execCombine_faultsAmong
  | sadd2 p q => exact execSadd2_faultsAmong
  | saddn n => exact execSaddn_faultsAmong
  | wrs1 slot offset value => exact storeByte_faultsAmong
  | wrs2 slot offset value => exact storeByte_faultsAmong
  | wrkey index value => exact storeByte_faultsAmong
  | wrcoef index value => exact storeByte_faultsAmong
  | wrbas index value => exact storeByte_faultsAmong
  | rds1 slot offset => exact loadByte_faultsAmong
  | rds2 slot offset => exact loadByte_faultsAmong
  | rdkey index => exact loadByte_faultsAmong
  | rdcoef index => exact loadByte_faultsAmong
  | rdbas index => exact loadByte_faultsAmong

theorem illegalCommand_not_mem_mayRaise (i : Instr) : .illegalCommand ∉ mayRaise i := by
  cases i <;> simp [mayRaise]

theorem exec_ne_illegalCommand (i : Instr) (s : State) : exec i s ≠ .fault .illegalCommand :=
  fun h => illegalCommand_not_mem_mayRaise i (exec_faultsAmong_mayRaise i s _ h)

theorem complete_fault {o : Host.Outcome State Fault Refusal} {f : Fault} : complete o = .fault f ↔ o = .fault f := by
  cases o <;> simp [complete]

theorem step_illegalCommand_iff {s : State} {w : Word} (hw : s.fetch = some w) :
    step s = .fault .illegalCommand ↔ ∃ e, decode w = .error e := by
  cases hd : decode w with
  | error e => simp [step, hw, hd]
  | ok i => simp [step_eq_complete hw hd, complete_fault, exec_ne_illegalCommand]

/-- Settles O5: a listed opcode has one format, which says what of the word must be zero; no command raises `IllegalCommand`, so
only the decoder does. -/
theorem illegalWordsFault : Obligations.IllegalWordsFault := by
  refine ⟨decode_error_iff_illegalFields, fun w => ?_, fun s w => step_illegalCommand_iff, by decide, by decide⟩
  rw [decode_error_iff, decodes_iff_match]
  simp only [not_exists, not_and, ne_eq]

/-! ## Operands that break a precondition -/

section
variable {c : Bool} {P : Prop} [Decidable P] {e f : Fault} {rest : State → Host.Outcome State Fault Refusal}

/-- A check that fails whenever `P` holds: the command is ill-formed and faults before it looks at the state. -/
theorem faults_of_check (hc : P → c = false) (h : (if P then some e else none) = some f) :
    c = false ∧ ∀ s, require c e (rest s) = .fault f := by
  obtain ⟨hP, rfl⟩ : P ∧ e = f := by simpa using h
  obtain rfl := hc hP
  exact ⟨rfl, fun _ => rfl⟩

end

section
variable {a b k n p q slot offset index : Byte}

theorem countOk_of_zero (h : k = 0) : countOk k = false := by subst h; rfl

theorem thresholdOk_of_bad (h : n = 0 ∨ k = 0 ∨ n.toNat < k.toNat) : thresholdOk n k = false := by
  rw [Bool.eq_false_iff, ne_eq, thresholdOk_iff]
  rintro ⟨hk, hkn⟩
  obtain rfl | rfl | hnk := h
  · exact absurd (hk.trans hkn) (by decide)
  · exact absurd hk (by decide)
  · exact absurd hkn (Nat.not_le.mpr hnk)

theorem slotOk_of_255 (h : p = 255) : slotOk p = false := by subst h; rfl

theorem slotsOk_of_bad (h : p = 255 ∨ q = 255) : (slotOk p && slotOk q) = false :=
  Bool.and_eq_false_iff.mpr (h.imp slotOk_of_255 slotOk_of_255)

theorem bankIndexOk_of_bad (h : slot = 255 ∨ 33 ≤ offset.toNat) : (slotOk slot && offsetOk offset) = false :=
  Bool.and_eq_false_iff.mpr (h.imp slotOk_of_255 fun h => decide_eq_false (Nat.not_lt.mpr h))

theorem keyIndexOk_of_bad (h : 32 ≤ index.toNat) : keyIndexOk index = false := decide_eq_false (Nat.not_lt.mpr h)

theorem coefIndexOk_of_255 (h : index = 255) : coefIndexOk index = false := by subst h; rfl

theorem basisIndexOk_of_255 (h : index = 255) : basisIndexOk index = false := by subst h; rfl

end

/-- Operands out of range are ill-formed, and their command faults in every state with its own rule's reason. -/
theorem faults_of_operandFault {i : Instr} {f : Fault} (h : operandFault i = some f) :
    i.wf = false ∧ ∀ s, exec i s = .fault f := by
  cases i with
  | gfadd a b => cases h
  | gfmul a b => cases h
  | gfinv a =>
    obtain ⟨rfl, rfl⟩ : a = 0 ∧ Fault.inverseOfZero = f := by simpa [operandFault] using h
    exact ⟨rfl, fun _ => rfl⟩
  | gfdiv a b =>
    obtain ⟨rfl, rfl⟩ : b = 0 ∧ Fault.inverseOfZero = f := by simpa [operandFault] using h
    exact ⟨rfl, fun _ => rfl⟩
  | peval k x => exact faults_of_check countOk_of_zero h
  | split bank n k => exact faults_of_check thresholdOk_of_bad h
  | lbasis k => exact faults_of_check countOk_of_zero h
  | interp k => exact faults_of_check countOk_of_zero h
  | combine k => exact faults_of_check countOk_of_zero h
  | sadd2 p q => exact faults_of_check slotsOk_of_bad h
  | saddn n => exact faults_of_check countOk_of_zero h
  | wrs1 slot offset value => exact faults_of_check bankIndexOk_of_bad h
  | wrs2 slot offset value => exact faults_of_check bankIndexOk_of_bad h
  | wrkey index value => exact faults_of_check keyIndexOk_of_bad h
  | wrcoef index value => exact faults_of_check coefIndexOk_of_255 h
  | wrbas index value => exact faults_of_check basisIndexOk_of_255 h
  | rds1 slot offset => exact faults_of_check bankIndexOk_of_bad h
  | rds2 slot offset => exact faults_of_check bankIndexOk_of_bad h
  | rdkey index => exact faults_of_check keyIndexOk_of_bad h
  | rdcoef index => exact faults_of_check coefIndexOk_of_255 h
  | rdbas index => exact faults_of_check basisIndexOk_of_255 h

/-- Settles O19: the checks on the operands come before any use of the state. -/
theorem badOperandsFault : Obligations.BadOperandsFault :=
  fun i _ h => ⟨decode_encode i, faults_of_operandFault h⟩

/-! ## Checks on fixed values -/

/-- Settles O1, by evaluation of the decoder. -/
theorem specWordsDecode : Obligations.SpecWordsDecode :=
  ⟨rfl, rfl, rfl, rfl, rfl, rfl, rfl, rfl, rfl, rfl, rfl⟩

/-- Settles O4, by comparison of the rows two by two. -/
theorem tableRowsDisjoint : Obligations.TableRowsDisjoint := by
  unfold Obligations.TableRowsDisjoint
  decide

end Sys2Proof.Proofs
end

section
/-! PROOFS. The field (O25, O29, O31, O32, O33, O30). A byte is a polynomial of degree below 8 over GF(2). Its residue in
GF(2)[X] / (POLY) determines it, and `gf_mul` is the product there. POLY is irreducible (O24), so the residues are a field of 256
elements, and the laws of `gf_mul`, `gf_inv` and `gf_div` are read off from that field. -/

namespace Sys2Proof.Proofs

open Machine Claims Polynomial

/-! ## The polynomial with given bits -/

/-- The polynomial over GF(2) whose coefficients are the bits of `n` (R8). -/
noncomputable def bitPoly (n : Nat) : (ZMod 2)[X] := ∑ i ∈ Finset.range n, if n.testBit i then X ^ i else 0

theorem coeff_sum_testBit (n k i : Nat) :
    (∑ j ∈ Finset.range k, if n.testBit j then (X : (ZMod 2)[X]) ^ j else 0).coeff i =
      if i < k ∧ n.testBit i then 1 else 0 := by
  have hterm (j : Nat) : (if n.testBit j then (X : (ZMod 2)[X]) ^ j else 0).coeff i =
      if i = j then if n.testBit j then 1 else 0 else 0 := by
    split <;> simp [coeff_X_pow]
  simp only [finsetSum_coeff, hterm, Finset.sum_ite_eq, Finset.mem_range, ite_and]

@[simp] theorem coeff_bitPoly (n i : Nat) : (bitPoly n).coeff i = if n.testBit i then 1 else 0 := by
  have hlt : n.testBit i = true → i < n := fun h => Nat.lt_two_pow_self.trans_le (Nat.ge_two_pow_of_testBit h)
  simp only [bitPoly, coeff_sum_testBit, and_iff_right_of_imp hlt]

/-- The sum may run over any number of bits that holds `n`. -/
theorem bitPoly_eq_sum {n k : Nat} (h : n < 2 ^ k) :
    bitPoly n = ∑ i ∈ Finset.range k, if n.testBit i then X ^ i else 0 := by
  ext i
  have hlt : n.testBit i = true → i < k := fun hi =>
    (Nat.pow_lt_pow_iff_right (by decide)).mp ((Nat.ge_two_pow_of_testBit hi).trans_lt h)
  simp only [coeff_bitPoly, coeff_sum_testBit, and_iff_right_of_imp hlt]

@[simp] theorem bitPoly_zero : bitPoly 0 = 0 := rfl

@[simp] theorem bitPoly_one : bitPoly 1 = 1 := by simp [bitPoly]

theorem bitPoly_injective : Function.Injective bitPoly := by
  intro m n h
  refine Nat.eq_of_testBit_eq fun i => ?_
  have hi : (bitPoly m).coeff i = (bitPoly n).coeff i := by rw [h]
  rw [coeff_bitPoly, coeff_bitPoly] at hi
  cases hm : m.testBit i <;> cases hn : n.testBit i <;> simp [hm, hn] at hi ⊢

@[simp] theorem bitPoly_xor (m n : Nat) : bitPoly (m ^^^ n) = bitPoly m + bitPoly n := by
  ext i
  rw [coeff_add, coeff_bitPoly, coeff_bitPoly, coeff_bitPoly, Nat.testBit_xor]
  cases m.testBit i <;> cases n.testBit i <;> decide

@[simp] theorem bitPoly_shiftLeft (n k : Nat) : bitPoly (n <<< k) = bitPoly n * X ^ k := by
  ext i
  simp only [coeff_mul_X_pow', coeff_bitPoly, Nat.testBit_shiftLeft, Bool.and_eq_true, decide_eq_true_eq, ite_and, ge_iff_le]

theorem degree_bitPoly_lt {n k : Nat} (h : n < 2 ^ k) : (bitPoly n).degree < k := by
  rw [degree_lt_iff_coeff_zero]
  intro i hi
  rw [coeff_bitPoly, Nat.testBit_lt_two_pow (h.trans_le (Nat.pow_le_pow_right (by decide) hi)), if_neg (by decide)]

theorem natDegree_bitPoly_le {n d : Nat} (h : n < 2 ^ (d + 1)) : (bitPoly n).natDegree ≤ d :=
  natDegree_le_iff_coeff_eq_zero.mpr ((degree_lt_iff_coeff_zero _ (d + 1)).mp (degree_bitPoly_lt h))

theorem natDegree_bitPoly {n d : Nat} (h : n < 2 ^ (d + 1)) (hd : n.testBit d = true) : (bitPoly n).natDegree = d :=
  natDegree_eq_of_le_of_coeff_ne_zero (natDegree_bitPoly_le h) (by simp [hd])

theorem monic_bitPoly {n d : Nat} (h : n < 2 ^ (d + 1)) (hd : n.testBit d = true) : (bitPoly n).Monic :=
  monic_of_natDegree_le_of_coeff_eq_one d (natDegree_bitPoly h hd).le (by simp [hd])

theorem exists_bitPoly_eq {f : (ZMod 2)[X]} {k : Nat} (hf : f.degree < k) : ∃ n < 2 ^ k, bitPoly n = f := by
  refine ⟨Nat.ofBits fun i : Fin k => decide (f.coeff i = 1), Nat.ofBits_lt_two_pow _, ?_⟩
  ext i
  rw [coeff_bitPoly, Nat.testBit_ofBits]
  have coeff_cases : ∀ c : ZMod 2, (if decide (c = 1) = true then 1 else 0) = c := by decide
  split
  · exact coeff_cases _
  · exact ((degree_lt_iff_coeff_zero f k).mp hf i (by omega)).symm

/-! ## The modulus -/

/-- `POLY` as a polynomial. -/
noncomputable def modulus (p : Poly) : (ZMod 2)[X] := bitPoly p.val.toNat

theorem mem_legalPolys (p : Poly) : p.val ∈ Config.legalPolys := by simpa using p.legal

theorem poly_bit8 (p : Poly) : p.val.getLsbD 8 = true := legalPolys_degree8 _ (mem_legalPolys p)

theorem poly_testBit8 (p : Poly) : p.val.toNat.testBit 8 = true := poly_bit8 p

theorem natDegree_modulus (p : Poly) : (modulus p).natDegree = 8 := natDegree_bitPoly p.val.isLt (poly_testBit8 p)

theorem monic_modulus (p : Poly) : (modulus p).Monic := monic_bitPoly p.val.isLt (poly_testBit8 p)

theorem degree_modulus (p : Poly) : (modulus p).degree = (8 : Nat) := by
  rw [degree_eq_natDegree (monic_modulus p).ne_zero, natDegree_modulus]

theorem bitPoly_clmulBelow (a b : Byte) {k : Nat} (hk : k ≤ 8) :
    bitPoly (clmulBelow a b k).toNat =
      bitPoly a.toNat * ∑ i ∈ Finset.range k, if b.toNat.testBit i then X ^ i else 0 := by
  induction k with
  | zero => simp [clmulBelow]
  | succ k ih =>
    rw [clmulBelow_succ, Finset.sum_range_succ, mul_add, ← ih (by omega), BitVec.getLsbD]
    split
    · rw [BitVec.toNat_xor, toNat_setWidth_shiftLeft a (by omega), bitPoly_xor, bitPoly_shiftLeft]
    · simp

theorem bitPoly_clmul (a b : Byte) : bitPoly (clmul a b).toNat = bitPoly a.toNat * bitPoly b.toNat := by
  rw [clmul_eq_clmulBelow, bitPoly_clmulBelow a b le_rfl, ← bitPoly_eq_sum b.isLt]

/-- A polynomial of degree 1 to 7 is a byte with a bit set above bit 0. -/
theorem exists_byte_of_natDegree {f : (ZMod 2)[X]} (h1 : 1 ≤ f.natDegree) (h8 : f.natDegree < 8) :
    ∃ a : Byte, 2 ≤ a.toNat ∧ bitPoly a.toNat = f := by
  obtain ⟨n, hn, rfl⟩ := exists_bitPoly_eq (degree_le_natDegree.trans_lt (by exact_mod_cast h8) : f.degree < (8 : Nat))
  refine ⟨BitVec.ofNatLT n hn, ?_, by rw [BitVec.toNat_ofNatLT]⟩
  rw [BitVec.toNat_ofNatLT]
  by_contra hlt
  have := natDegree_bitPoly_le (show n < 2 ^ (0 + 1) by omega)
  omega

/-- A factorization of POLY would be one into two bytes, which O24 excludes. -/
theorem irreducible_modulus (p : Poly) : Irreducible (modulus p) := by
  have hdeg := natDegree_modulus p
  refine (monic_modulus p).irreducible_iff_natDegree.mpr ⟨fun h1 => by simp [h1] at hdeg, fun f g hf hg hfg => ?_⟩
  rw [← hfg, hf.natDegree_mul hg] at hdeg
  by_contra! h
  obtain ⟨a, ha, rfl⟩ := exists_byte_of_natDegree (f := f) (by omega) (by omega)
  obtain ⟨b, hb, rfl⟩ := exists_byte_of_natDegree (f := g) (by omega) (by omega)
  refine ((mem_legalPolys_iff_irreducible p.val).mp (mem_legalPolys p)).2 a b ha hb (BitVec.eq_of_toNat_eq ?_)
  rw [BitVec.toNat_setWidth_of_le (by decide)]
  exact bitPoly_injective ((bitPoly_clmul a b).trans hfg)

/-! ## Residues modulo POLY -/

/-- The residue modulo POLY of the polynomial with bits `v`. -/
noncomputable def residue (p : Poly) {w : Nat} (v : BitVec w) : AdjoinRoot (modulus p) := AdjoinRoot.mk _ (bitPoly v.toNat)

section
variable (p : Poly)

@[simp] theorem residue_zero {w : Nat} : residue p 0#w = 0 := by simp [residue]

@[simp] theorem residue_one : residue p 1#8 = 1 := by simp [residue]

@[simp] theorem residue_xor {w : Nat} (u v : BitVec w) : residue p (u ^^^ v) = residue p u + residue p v := by
  simp [residue]

@[simp] theorem residue_poly : residue p p.val = 0 := AdjoinRoot.mk_self

theorem residue_shiftLeft {w k : Nat} {v : BitVec w} (h : v.toNat <<< k < 2 ^ w) :
    residue p (v <<< k) = residue p v * AdjoinRoot.root _ ^ k := by
  rw [residue, BitVec.toNat_shiftLeft, Nat.mod_eq_of_lt h, bitPoly_shiftLeft, map_mul, map_pow, AdjoinRoot.mk_X, residue]

theorem residue_setWidth {w w' : Nat} {v : BitVec w} (h : v.toNat < 2 ^ w') : residue p (v.setWidth w') = residue p v := by
  rw [residue, BitVec.toNat_setWidth, Nat.mod_eq_of_lt h, residue]

/-- Two bytes with one residue are equal: their difference has degree below 8 and is a multiple of POLY. -/
theorem residue_injective : Function.Injective (residue p (w := 8)) := by
  intro a b h
  have hdeg : (bitPoly a.toNat - bitPoly b.toNat).degree < (modulus p).degree := by
    rw [degree_modulus]
    exact (degree_sub_le _ _).trans_lt (max_lt (degree_bitPoly_lt a.isLt) (degree_bitPoly_lt b.isLt))
  have hzero := eq_zero_of_dvd_of_degree_lt (AdjoinRoot.mk_eq_mk.mp h) hdeg
  exact BitVec.eq_of_toNat_eq (bitPoly_injective (sub_eq_zero.mp hzero))

theorem residue_eq_sum (b : Byte) :
    residue p b = ∑ i ∈ Finset.range 8, if b.getLsbD i then AdjoinRoot.root (modulus p) ^ i else 0 := by
  simp only [residue, bitPoly_eq_sum b.isLt, map_sum, BitVec.getLsbD, apply_ite (AdjoinRoot.mk (modulus p)), map_pow,
    AdjoinRoot.mk_X, map_zero]

/-! ## `gf_mul` on residues -/

theorem and_mask8 (v : Byte) (c : Bool) : v &&& mask8 c = if c then v else 0 := by
  cases c
  · exact BitVec.and_zero
  · exact BitVec.and_allOnes

/-- Doubling shifts left in nine bits and adds POLY when bit 8 is then set (R101). -/
theorem setWidth_gfDouble (a : Byte) :
    (gfDouble p a).setWidth 9 = (a.setWidth 9 <<< 1) ^^^ if a.getLsbD 7 then p.val else 0 := by
  rw [gfDouble, and_mask8]
  ext i hi
  obtain hlow | rfl : i < 8 ∨ i = 8 := by omega
  · have hprev : i - 1 < 8 := by omega
    cases a.getLsbD 7 <;> simp [Poly.low, hlow, hprev, hi, BitVec.getLsbD_eq_getElem]
  · cases ha : a.getLsbD 7 <;> simp [ha, poly_bit8, ← BitVec.getLsbD_eq_getElem]

theorem residue_gfDouble (a : Byte) : residue p (gfDouble p a) = residue p a * AdjoinRoot.root _ := by
  have hpoly : residue p (if a.getLsbD 7 then p.val else 0) = 0 := by
    split
    · exact residue_poly p
    · exact residue_zero p
  have ha := a.isLt
  have hwide : (a.setWidth 9).toNat = a.toNat := BitVec.toNat_setWidth_of_le (by decide)
  rw [← residue_setWidth p (w' := 9) (by omega), setWidth_gfDouble, residue_xor, hpoly, add_zero,
    residue_shiftLeft p (by omega), pow_one, residue_setWidth p (by omega)]

/-- After `k` steps of the loop of R101: the part of the product from the bits of `b` below `k`, and `a` doubled `k` times. -/
theorem residue_foldl_gfMulStep (a b : Byte) (k : Nat) :
    residue p ((List.range k).foldl (gfMulStep p b) (0, a)).1 =
        residue p a * ∑ i ∈ Finset.range k, (if b.getLsbD i then AdjoinRoot.root (modulus p) ^ i else 0) ∧
      residue p ((List.range k).foldl (gfMulStep p b) (0, a)).2 = residue p a * AdjoinRoot.root _ ^ k := by
  induction k with
  | zero => simp
  | succ k ih =>
    obtain ⟨hsum, hdouble⟩ := ih
    rw [List.range_succ, List.foldl_concat]
    constructor
    · rw [gfMulStep, residue_xor, hsum, and_mask8, Finset.sum_range_succ, mul_add]
      split
      · rw [hdouble]
      · simp
    · rw [gfMulStep, residue_gfDouble, hdouble, mul_assoc, pow_succ]

@[simp] theorem residue_gfMul (a b : Byte) : residue p (gfMul p a b) = residue p a * residue p b := by
  rw [gfMul, (residue_foldl_gfMulStep p a b 8).1, residue_eq_sum p b]

@[simp] theorem residue_clmul (a b : Byte) : residue p (clmul a b) = residue p a * residue p b := by
  rw [residue, bitPoly_clmul, map_mul, residue, residue]

/-! ## Reduction modulo POLY -/

/-- One step of `polyRem`: clear bit `i` by adding POLY shifted to it. -/
def polyRemStep (w : BitVec 16) (i : Nat) : BitVec 16 :=
  if w.getLsbD i then w ^^^ (p.val.setWidth 16 <<< (i - 8)) else w

theorem polyRem_eq (v : BitVec 16) : polyRem p v = ((List.range' 8 7).reverse.foldl (polyRemStep p) v).setWidth 8 := rfl

theorem lt_two_pow_of_testBit_eq_false {n k : Nat} (h : n < 2 ^ (k + 1)) (hk : n.testBit k = false) : n < 2 ^ k := by
  refine Nat.lt_pow_two_of_testBit n fun i hi => ?_
  obtain rfl | hki := hi.eq_or_lt
  · exact hk
  · exact Nat.testBit_lt_two_pow (h.trans_le (Nat.pow_le_pow_right (by decide) hki))

theorem poly_shiftLeft_lt (n : Nat) : p.val.toNat <<< n < 2 ^ (8 + n + 1) := by
  calc p.val.toNat <<< n = p.val.toNat * 2 ^ n := Nat.shiftLeft_eq ..
    _ < 2 ^ 9 * 2 ^ n := Nat.mul_lt_mul_of_pos_right p.val.isLt (Nat.two_pow_pos n)
    _ = 2 ^ (8 + n + 1) := by rw [← Nat.pow_add, Nat.add_right_comm]

section
variable {n : Nat} (hn : n < 7)
include hn

/-- No bit of POLY is lost when it is shifted within the product's 16 bits. -/
theorem toNat_poly_shiftLeft : (p.val.setWidth 16 <<< n).toNat = p.val.toNat <<< n := by
  have hfit : p.val.toNat <<< n < 2 ^ 16 :=
    (poly_shiftLeft_lt p n).trans_le (Nat.pow_le_pow_right (by decide) (by omega))
  rw [BitVec.toNat_shiftLeft, BitVec.toNat_setWidth_of_le (by decide), Nat.mod_eq_of_lt hfit]

theorem residue_poly_shiftLeft : residue p (p.val.setWidth 16 <<< n) = 0 := by
  rw [residue, toNat_poly_shiftLeft p hn, bitPoly_shiftLeft, map_mul]
  exact mul_eq_zero_of_left (residue_poly p) _

theorem residue_polyRemStep (w : BitVec 16) : residue p (polyRemStep p w (8 + n)) = residue p w := by
  rw [polyRemStep, Nat.add_sub_cancel_left]
  split
  · rw [residue_xor, residue_poly_shiftLeft p hn, add_zero]
  · rfl

/-- The step clears the top bit: POLY shifted by `n` has its own top bit there. -/
theorem polyRemStep_lt {w : BitVec 16} (hw : w.toNat < 2 ^ (8 + n + 1)) :
    (polyRemStep p w (8 + n)).toNat < 2 ^ (8 + n) := by
  have htop : (p.val.toNat <<< n).testBit (8 + n) = true := by simp [poly_testBit8]
  rw [polyRemStep, Nat.add_sub_cancel_left]
  split
  next hbit =>
    rw [BitVec.toNat_xor, toNat_poly_shiftLeft p hn]
    refine lt_two_pow_of_testBit_eq_false (Nat.xor_lt_two_pow hw (poly_shiftLeft_lt p n)) ?_
    rw [Nat.testBit_xor, htop, show w.toNat.testBit (8 + n) = true from hbit, Bool.xor_self]
  next hbit => exact lt_two_pow_of_testBit_eq_false hw (Bool.eq_false_of_not_eq_true hbit)

end

/-- Clearing the bits from `8 + n - 1` down to 8 leaves a byte with the same residue. -/
theorem foldl_polyRemStep_spec {w : BitVec 16} {n : Nat} (hn : n ≤ 7) (hw : w.toNat < 2 ^ (8 + n)) :
    ((List.range' 8 n).reverse.foldl (polyRemStep p) w).toNat < 2 ^ 8 ∧
      residue p ((List.range' 8 n).reverse.foldl (polyRemStep p) w) = residue p w := by
  induction n generalizing w with
  | zero => exact ⟨hw, rfl⟩
  | succ n ih =>
    rw [List.range'_1_concat, List.reverse_concat, List.foldl_cons, ← residue_polyRemStep p (n := n) (by omega) w]
    exact ih (by omega) (polyRemStep_lt p (by omega) hw)

theorem residue_polyRem {v : BitVec 16} (hv : v.toNat < 2 ^ 15) : residue p (polyRem p v) = residue p v := by
  obtain ⟨hlt, hres⟩ := foldl_polyRemStep_spec p (w := v) le_rfl hv
  rw [polyRem_eq, residue_setWidth p hlt, hres]

theorem clmul_lt (a b : Byte) : (clmul a b).toNat < 2 ^ 15 := by
  have hdeg : polyDegree a ≤ 7 := by
    by_cases ha : a.toNat = 0
    · simp [polyDegree, ha]
    · exact Nat.le_of_lt_succ (polyDegree_lt ha)
  exact (clmulBelow_lt a b le_rfl).trans_le (Nat.pow_le_pow_right (by decide) (Nat.add_le_add_right hdeg 8))

theorem gfMul_eq_polyRem_clmul (a b : Byte) : gfMul p a b = polyRem p (clmul a b) :=
  residue_injective p (by rw [residue_gfMul, residue_polyRem p (clmul_lt a b), residue_clmul])

/-! ## The laws of `gf_mul` -/

theorem gfMul_comm (a b : Byte) : gfMul p a b = gfMul p b a :=
  residue_injective p (by simp [mul_comm])

theorem gfMul_assoc (a b c : Byte) : gfMul p (gfMul p a b) c = gfMul p a (gfMul p b c) :=
  residue_injective p (by simp [mul_assoc])

theorem gfMul_zero (a : Byte) : gfMul p a 0 = 0 := residue_injective p (by simp)

theorem zero_gfMul (a : Byte) : gfMul p 0 a = 0 := residue_injective p (by simp)

theorem gfMul_one (a : Byte) : gfMul p a 1 = a := residue_injective p (by simp)

theorem one_gfMul (a : Byte) : gfMul p 1 a = a := residue_injective p (by simp)

end

/-- Settles O25: the product and the reduced product of R101 have the same residue modulo POLY, and both are bytes. -/
theorem fieldProductIsReducedPolynomialProduct : Obligations.FieldProductIsReducedPolynomialProduct :=
  fun p a b => ⟨gfMul_eq_polyRem_clmul p a b, gfMul_zero p a, zero_gfMul p a, gfMul_one p a, one_gfMul p a⟩

/-! ## Inverses -/

section
variable (p : Poly) {a b c : Byte}

theorem card_residues : Nat.card (AdjoinRoot (modulus p)) = 256 := by
  have hne := (monic_modulus p).ne_zero
  have := (AdjoinRoot.powerBasis hne).finite
  rw [Module.natCard_eq_pow_finrank (K := ZMod 2), (AdjoinRoot.powerBasis hne).finrank, AdjoinRoot.powerBasis_dim hne,
    natDegree_modulus, Nat.card_zmod]
  rfl

/-- The residues are a field of 256 elements, whose non-zero elements have orders that divide 255. -/
theorem residue_pow_255 (ha : a ≠ 0) : residue p a ^ 255 = 1 := by
  have : Fact (Irreducible (modulus p)) := ⟨irreducible_modulus p⟩
  have : Finite (AdjoinRoot (modulus p)) := Nat.finite_of_card_ne_zero (by rw [card_residues]; decide)
  have : Fintype (AdjoinRoot (modulus p)) := Fintype.ofFinite _
  have hne : residue p a ≠ 0 := fun h => ha (residue_injective p (h.trans (residue_zero p).symm))
  simpa [← Nat.card_eq_fintype_card, card_residues] using FiniteField.pow_card_sub_one_eq_one (residue p a) hne

theorem residue_gfPow254 : residue p (gfPow254 p a) = residue p a ^ 254 := by
  simp only [gfPow254, residue_gfMul]
  ring

theorem gfMul_gfPow254 (ha : a ≠ 0) : gfMul p a (gfPow254 p a) = 1 :=
  residue_injective p (by simp [residue_gfPow254, ← pow_succ', residue_pow_255 p ha])

end

section
variable {p : Poly} {a b c : Byte}

theorem gfInv_of_ne_zero (ha : a ≠ 0) : gfInv p a = some (gfPow254 p a) := if_neg ha

theorem gfInv_zero : gfInv p 0 = none := rfl

/-- `gf_inv a` is the one byte whose product with `a` is 1. -/
theorem gfInv_eq_some_iff : gfInv p a = some c ↔ gfMul p a c = 1 := by
  by_cases ha : a = 0
  · subst ha
    rw [gfInv_zero, zero_gfMul]
    exact iff_of_false nofun (by decide)
  rw [gfInv_of_ne_zero ha, Option.some_inj]
  constructor
  · rintro rfl
    exact gfMul_gfPow254 p ha
  · intro hc
    calc gfPow254 p a = gfMul p (gfPow254 p a) (gfMul p a c) := by rw [hc, gfMul_one]
      _ = gfMul p (gfMul p a (gfPow254 p a)) c := by rw [← gfMul_assoc, gfMul_comm p _ a]
      _ = c := by rw [gfMul_gfPow254 p ha, one_gfMul]

theorem exists_gfMul_eq_one (p : Poly) (ha : a ≠ 0) : ∃ c, gfMul p a c = 1 := ⟨_, gfMul_gfPow254 p ha⟩

/-! ## Division -/

theorem gfDiv_zero : gfDiv p a 0 = none := rfl

theorem gfDiv_eq_some (hc : gfMul p b c = 1) : gfDiv p a b = some (gfMul p a c) := by
  rw [gfDiv, gfInv_eq_some_iff.mpr hc]

theorem gfDiv_one : gfDiv p a 1 = some a := by
  rw [gfDiv_eq_some (gfMul_one p 1), gfMul_one]

theorem zero_gfDiv (hb : b ≠ 0) : gfDiv p 0 b = some 0 := by
  obtain ⟨c, hc⟩ := exists_gfMul_eq_one p hb
  rw [gfDiv_eq_some hc, zero_gfMul]

theorem gfDiv_self (hb : b ≠ 0) : gfDiv p b b = some 1 := by
  obtain ⟨c, hc⟩ := exists_gfMul_eq_one p hb
  rw [gfDiv_eq_some hc, hc]

end

/-- Settles O29: the inverse exists for a divisor that is not 0, and the corner cases are the laws of `gf_mul`. -/
theorem fieldDivision : Obligations.FieldDivision := by
  refine fun p a b => ⟨gfDiv_zero, fun hb => ?_, zero_gfDiv, gfDiv_one, gfDiv_self⟩
  obtain ⟨c, hc⟩ := exists_gfMul_eq_one p hb
  exact ⟨c, gfInv_eq_some_iff.mpr hc, gfDiv_eq_some hc⟩

/-! ## The commands -/

section
variable {a b c : Byte} {s : State}

theorem exec_gfadd (a b : Byte) (s : State) : exec (.gfadd a b) s = .next (s.writeR (a ^^^ b)) := rfl

theorem exec_gfmul (a b : Byte) (s : State) : exec (.gfmul a b) s = .next (s.writeR (gfMul s.poly a b)) := rfl

theorem exec_gfinv (h : gfMul s.poly a c = 1) : exec (.gfinv a) s = .next (s.writeR c) := by
  simp only [exec, execGfinv, gfInv_eq_some_iff.mpr h]

theorem exec_gfinv_zero (s : State) : exec (.gfinv 0) s = .fault .inverseOfZero := rfl

theorem exec_gfdiv (h : gfDiv s.poly a b = some c) : exec (.gfdiv a b) s = .next (s.writeR c) := by
  simp only [exec, execGfdiv, h]

theorem exec_gfdiv_zero (a : Byte) (s : State) : exec (.gfdiv a 0) s = .fault .inverseOfZero := rfl

end

/-- Settles O30: the sum is `gf_add`, which is XOR. -/
theorem gfaddResult : Obligations.GfaddResult :=
  fun a b s => ⟨decode_encode (.gfadd a b), exec_gfadd a b s⟩

/-- Settles O31, by the laws of `gf_mul`. -/
theorem gfmulResult : Obligations.GfmulResult := by
  intro a b s
  refine ⟨decode_encode (.gfmul a b), ?_, ?_, ?_, ?_⟩
  · rw [exec_gfmul, gfMul_eq_polyRem_clmul, State.writeR]
  · rw [exec_gfmul, exec_gfmul, gfMul_comm]
  · rw [exec_gfmul, gfMul_zero, State.writeR]
  · rw [exec_gfmul, gfMul_one, State.writeR]

/-- Settles O32: the inverse of `a` has `a` as its inverse, for the product commutes. -/
theorem gfinvResult : Obligations.GfinvResult := by
  intro a s
  refine ⟨decode_encode (.gfinv a), ?_, fun ha => ?_, exec_gfinv (gfMul_one _ 1)⟩
  · rintro rfl
    exact exec_gfinv_zero s
  · obtain ⟨c, hc⟩ := exists_gfMul_eq_one s.poly ha
    exact ⟨c, hc, exec_gfinv hc, exec_gfinv (gfMul_comm s.poly c a ▸ hc)⟩

/-- Settles O33: a divisor that is not 0 has an inverse; the corner cases are those of `gf_div`. -/
theorem gfdivResult : Obligations.GfdivResult := by
  intro a b s
  refine ⟨decode_encode (.gfdiv a b), ?_, fun hb => ?_, exec_gfdiv gfDiv_one⟩
  · rintro rfl
    exact exec_gfdiv_zero a s
  · obtain ⟨c, hc⟩ := exists_gfMul_eq_one s.poly hb
    exact ⟨c, hc, exec_gfdiv (gfDiv_eq_some hc), exec_gfdiv (zero_gfDiv hb), exec_gfdiv (gfDiv_self hb)⟩

end Sys2Proof.Proofs
end

section
/-! PROOFS. The Polynomial Evaluator (O36). Horner's method and the sum of `c[i] * x^i` obey one recursion on the coefficients:
the value for `c :: cs` is the value for `cs` times `x`, plus `c`. -/

namespace Sys2Proof.Proofs

open Machine Claims

/-! ## Sums and powers, modulo POLY -/

section
variable (p : Poly)

theorem residue_gfPow (a : Byte) (n : Nat) : residue p (gfPow p a n) = residue p a ^ n := by
  induction n with
  | zero => simp [gfPow]
  | succ n ih => rw [gfPow, residue_gfMul, ih, pow_succ]

theorem residue_xorSum (l : List Byte) : residue p (xorSum l) = (l.map (residue p)).sum := by
  induction l with
  | nil => exact residue_zero p
  | cons a l ih => rw [xorSum, List.foldr_cons, residue_xor, ← xorSum, ih, List.map_cons, List.sum_cons]

theorem residue_polySum (c : List Byte) (x : Byte) : residue p (polySum p c x) =
    ((List.range c.length).map fun i => residue p (c.getD i 0) * residue p x ^ i).sum := by
  simp [polySum, residue_xorSum, residue_gfPow, Function.comp_def]

/-! ## Horner's method -/

/-- The recursion of R120 for any list: the model's value 0 of no coefficients agrees with the case of one coefficient. -/
theorem horner_cons (x c : Byte) (cs : List Byte) : horner p x (c :: cs) = gfAdd (gfMul p (horner p x cs) x) c := by
  cases cs with
  | nil =>
    rw [horner, horner, zero_gfMul]
    exact BitVec.zero_xor.symm
  | cons d ds => rfl

/-- Past the constant term, each term of the sum is one of the shorter sum times `x`. -/
theorem polySum_cons (x c : Byte) (cs : List Byte) : polySum p (c :: cs) x = gfAdd (gfMul p (polySum p cs x) x) c := by
  refine residue_injective p ?_
  have hterm (i : Nat) : residue p ((c :: cs).getD (i + 1) 0) * residue p x ^ (i + 1) =
      residue p (cs.getD i 0) * residue p x ^ i * residue p x := by
    rw [List.getD_cons_succ, pow_succ, mul_assoc]
  rw [gfAdd, residue_xor, residue_gfMul, residue_polySum, residue_polySum, List.length_cons, List.sum_range_succ',
    List.getD_cons_zero, pow_zero, mul_one, ← List.sum_map_mul_right, add_comm]
  simp only [hterm]

theorem horner_eq_polySum (x : Byte) (cs : List Byte) : horner p x cs = polySum p cs x := by
  induction cs with
  | nil => rfl
  | cons c cs ih => rw [horner_cons, polySum_cons, ih]

end

/-! ## The command -/

section
variable {k : Byte} {s : State}

theorem countOk_of_ne_zero (hk : k ≠ 0) : countOk k = true :=
  countOk_iff.mpr (Nat.pos_of_ne_zero fun h => hk (BitVec.eq_of_toNat_eq h))

theorem exec_peval_unwritten (x : Byte) (hk : k ≠ 0) (h : ∃ j < k.toNat, s.read .coef j = none) :
    exec (.peval k x) s = .fault .unwrittenRead := by
  have hread : s.readAll .coef (List.range k.toNat) = .error .unwrittenRead :=
    State.readAll_error.mpr ⟨rfl, by simpa using h⟩
  exact require_fault.mpr (.inr ⟨countOk_of_ne_zero hk, by rw [hread]⟩)

theorem exec_peval (x : Byte) {c : Nat → Byte} (hk : k ≠ 0) (h : ∀ j < k.toNat, s.read .coef j = some (c j)) :
    exec (.peval k x) s = .next (s.writeR (horner s.poly x ((List.range k.toNat).map c))) := by
  have hread : s.readAll .coef (List.range k.toNat) = .ok ((List.range k.toNat).map c) :=
    State.readAll_of_forall (by simpa using h)
  exact require_next.mpr ⟨countOk_of_ne_zero hk, by rw [hread]⟩

end

/-- Settles O36: the count is checked before `COEF` is read, and Horner's method gives the sum. -/
theorem pevalResult : Obligations.PevalResult := by
  refine fun k x s => ⟨decode_encode (.peval k x), fun hk => ?_, exec_peval_unwritten x, fun c hk hc => ?_⟩
  · exact require_fault.mpr (.inl ⟨countOk_of_zero hk, rfl⟩)
  · rw [exec_peval x hk hc, horner_eq_polySum, State.writeR]

end Sys2Proof.Proofs
end

section
/-! PROOFS. The RNG port and the Share Generator (O17, O37, O38, O39). Which bytes a run of draws gives is said once, as `portBytes`.
`SPLIT` completes exactly when its key bytes are written and its draws succeed; what it then writes is `splitInto_spec`. -/

namespace Sys2Proof.Proofs

open Machine Claims

/-! ## The commands that do not draw -/

theorem OutcomeRel.eq_mapNext {f : State → State} {o o' : Host.Outcome State Fault Refusal}
    (h : OutcomeRel (fun t u => u = f t) o o') : o' = mapNext f o := by
  cases h with
  | next h => rw [h, mapNext]
  | fault e => rfl

theorem write_setRng (s : State) (b : Buf) (a : Nat) (v : Byte) (g : RngPort) :
    (s.write b a v).setRng g = (s.setRng g).write b a v := by
  rw [State.write, State.write, State.setRng_mem, setRng_setMem]

theorem respects_setRng {i : Instr} (hi : isSplit i = false) (g : RngPort) : Respects i (fun s u => u = s.setRng g) where
  poly h := h ▸ rfl
  rng hs := by simp [hi] at hs
  read _ h a := by rw [h, State.setRng_read]
  write v _ _ h := by rw [h, write_setRng]
  setRng _ hs := by simp [hi] at hs

theorem concludes_setRng (i : Instr) (g : RngPort) :
    Concludes i (fun s u => u = s.setRng g) (fun s u => u = s.setRng g) where
  writeR _ _ h := h ▸ rfl
  setStatus _ _ h := h ▸ rfl
  stop _ _ h := h

/-- Settles O17: states that differ in the port only stay so under every command that does not draw. -/
theorem onlySplitUsesTheRng : Obligations.OnlySplitUsesTheRng :=
  fun i _ g hi => (exec_rel (respects_setRng hi g) (concludes_setRng i g) rfl).eq_mapNext

/-! ## The RNG port -/

/-- The next `n` bytes of a port that can supply them: those supplied, and then the free bytes of log entry 3, numbered by how many
bytes were taken before them. -/
def portBytes (n : Nat) (g : RngPort) : List Byte :=
  g.supplied.take n ++ (List.range' (g.drawn + g.supplied.length) (n - g.supplied.length)).map Config.rngByte

@[simp] theorem length_portBytes (n : Nat) (g : RngPort) : (portBytes n g).length = n := by
  simp only [portBytes, List.length_append, List.length_take, List.length_map, List.length_range']
  omega

theorem portBytes_of_le {n : Nat} {g : RngPort} (h : n ≤ g.supplied.length) : portBytes n g = g.supplied.take n := by
  simp [portBytes, Nat.sub_eq_zero_of_le h]

theorem portBytes_succ_nil (n drawn : Nat) (endless : Bool) :
    portBytes (n + 1) ⟨[], endless, drawn⟩ = Config.rngByte drawn :: portBytes n ⟨[], endless, drawn + 1⟩ := by
  simp [portBytes, List.range'_succ]

theorem portBytes_succ_cons (n drawn : Nat) (endless : Bool) (v : Byte) (vs : List Byte) :
    portBytes (n + 1) ⟨v :: vs, endless, drawn⟩ = v :: portBytes n ⟨vs, endless, drawn + 1⟩ := by
  simp only [portBytes, List.length_cons, List.take_succ_cons, List.cons_append, Nat.add_sub_add_right, Nat.add_assoc,
    Nat.add_comm 1]

/-- A port that can supply `n` bytes gives the next `n`, in order, and is then past exactly those. -/
theorem draw_eq {n : Nat} {g : RngPort} (h : g.canSupply n = true) : RngPort.draw n g =
    .ok (portBytes n g, { g with supplied := g.supplied.drop n, drawn := g.drawn + n }) := by
  induction n generalizing g with
  | zero => simp [RngPort.draw, portBytes]
  | succ n ih =>
    obtain ⟨supplied, endless, drawn⟩ := g
    cases supplied with
    | nil =>
      obtain rfl : endless = true := by simpa [RngPort.canSupply] using h
      have hnext : RngPort.next ⟨[], true, drawn⟩ = some (Config.rngByte drawn, ⟨[], true, drawn + 1⟩) := rfl
      rw [RngPort.canSupply_of_next hnext] at h
      simp [RngPort.draw, hnext, ih h, portBytes_succ_nil, Nat.add_assoc, Nat.add_comm 1]
    | cons v vs =>
      have hnext : RngPort.next ⟨v :: vs, endless, drawn⟩ = some (v, ⟨vs, endless, drawn + 1⟩) := rfl
      rw [RngPort.canSupply_of_next hnext] at h
      simp [RngPort.draw, hnext, ih h, portBytes_succ_cons, Nat.add_assoc, Nat.add_comm 1]

/-- Settles O37: in each case the port can supply the bytes, or its draw fails. -/
theorem rngPortGivesEachByteOnce : Obligations.RngPortGivesEachByteOnce := by
  refine fun n g => ⟨fun h => ?_, fun hend h => ?_, fun hend => ?_⟩
  · rw [draw_eq (by simp [RngPort.canSupply, h]), portBytes_of_le h]
  · exact RngPort.draw_error.mpr ⟨rfl, by simp [RngPort.canSupply, hend, h]⟩
  · exact ⟨portBytes n g, length_portBytes n g, draw_eq (by simp [RngPort.canSupply, hend])⟩

/-! ## When `SPLIT` completes -/

theorem forEach_range_succ_ok {f : Nat → State → Except Fault State} {n : Nat} {s t : State} :
    forEach f (List.range (n + 1)) s = .ok t ↔ ∃ u, forEach f (List.range n) s = .ok u ∧ f n u = .ok t := by
  rw [List.range_succ, forEach_append]
  cases forEach f (List.range n) s with
  | error e => simp
  | ok u => cases h : f n u <;> simp [forEach, h]

theorem forEach_range_succ_error {f : Nat → State → Except Fault State} {n : Nat} {s : State} {e : Fault} :
    forEach f (List.range (n + 1)) s = .error e ↔
      forEach f (List.range n) s = .error e ∨ ∃ u, forEach f (List.range n) s = .ok u ∧ f n u = .error e := by
  rw [List.range_succ, forEach_append]
  cases forEach f (List.range n) s with
  | error e => simp
  | ok u => cases h : f n u <;> simp [forEach, h]

section
variable {d : Buf} (hd : d ≠ .key) {n k : Nat} {s t : State} {f : Fault}
include hd

theorem read_key_setMem_setRng (g : RngPort) (m : Memory) (b : Nat) :
    ((s.setRng g).setMem d m).read .key b = s.read .key b := by
  rw [State.read_setMem_other _ _ _ hd.symm, State.setRng_read]

/-- Completed lanes: their key bytes were written, their draws succeeded. -/
theorem splitLanes_ok {B : Nat} (h : forEach (splitLane d n k) (List.range B) s = .ok t) :
    (∀ b < B, ∃ v, s.read .key b = some v) ∧
      ∃ ds g m, RngPort.draw (B * (k - 1)) s.rng = .ok (ds, g) ∧ t = (s.setRng g).setMem d m := by
  induction B generalizing t with
  | zero =>
    cases h
    exact ⟨by simp, [], s.rng, s.mem d, by rw [Nat.zero_mul, RngPort.draw], (State.setMem_mem s d).symm⟩
  | succ B ih =>
    obtain ⟨u, hu, hlane⟩ := forEach_range_succ_ok.mp h
    obtain ⟨hkey, ds, g, m, hdraw, rfl⟩ := ih hu
    obtain ⟨c0, cs, g', m', hc0, hdraw', rfl⟩ := splitLane_ok hlane
    rw [read_key_setMem_setRng hd] at hc0
    rw [State.setMem_rng, State.setRng_rng] at hdraw'
    refine ⟨fun b hb => ?_, ds ++ cs, g', m', ?_, ?_⟩
    · obtain hb | rfl := Nat.lt_succ_iff_lt_or_eq.mp hb
      · exact hkey b hb
      · exact ⟨c0, hc0⟩
    · simp only [Nat.succ_mul, RngPort.draw_add, hdraw, hdraw']
    · rw [← setRng_setMem, State.setMem_setMem]
      rfl

/-- Faulting lanes: a key byte is unwritten, or the draws fail. -/
theorem splitLanes_error {B : Nat} (h : forEach (splitLane d n k) (List.range B) s = .error f) :
    (f = .unwrittenRead ∧ ∃ b < B, s.read .key b = none) ∨
      (f = .rngFailure ∧ RngPort.draw (B * (k - 1)) s.rng = .error .rngFailure) := by
  induction B with
  | zero => cases h
  | succ B ih =>
    rw [Nat.succ_mul, RngPort.draw_add]
    obtain hB | ⟨u, hu, hlane⟩ := forEach_range_succ_error.mp h
    · obtain ⟨rfl, b, hb, hnone⟩ | ⟨rfl, hdraw⟩ := ih hB
      · exact .inl ⟨rfl, b, Nat.lt_succ_of_lt hb, hnone⟩
      · exact .inr ⟨rfl, by rw [hdraw]⟩
    · obtain ⟨-, ds, g, m, hdraw, rfl⟩ := splitLanes_ok hd hu
      obtain ⟨hnone, rfl⟩ | ⟨hshort, rfl⟩ := splitLane_error hlane
      · exact .inl ⟨rfl, B, Nat.lt_succ_self B, read_key_setMem_setRng hd g m B ▸ hnone⟩
      · rw [State.setMem_rng, State.setRng_rng] at hshort
        exact .inr ⟨rfl, by simp only [hdraw, RngPort.draw_error.mpr ⟨rfl, hshort⟩]⟩

/-- Past the lanes `SPLIT` neither reads nor draws. -/
theorem splitInto_ok (h : splitInto d n k s = .ok t) :
    (∀ b < 32, ∃ v, s.read .key b = some v) ∧ ∃ ds g, RngPort.draw (32 * (k - 1)) s.rng = .ok (ds, g) := by
  unfold splitInto at h
  cases hl : forEach (splitLane d n k) (List.range Config.keyBytes) s with
  | error e => simp [hl] at h
  | ok u =>
    obtain ⟨hkey, ds, g, -, hdraw, -⟩ := splitLanes_ok hd hl
    exact ⟨hkey, ds, g, hdraw⟩

theorem splitInto_error_cases (h : splitInto d n k s = .error f) :
    (f = .unwrittenRead ∧ ∃ b < 32, s.read .key b = none) ∨ (f = .rngFailure ∧ s.rng.canSupply (32 * (k - 1)) = false) := by
  unfold splitInto at h
  cases hl : forEach (splitLane d n k) (List.range Config.keyBytes) s with
  | error e =>
    obtain rfl : e = f := by simpa [hl] using h
    exact (splitLanes_error hd hl).imp_right fun ⟨hf, hdraw⟩ => ⟨hf, (RngPort.draw_error.mp hdraw).2⟩
  | ok u =>
    rw [hl] at h
    obtain ⟨_, -, _, hid⟩ := forEach_error h
    cases hid

end

section
variable {bank : Bank} {n k : Byte} {s t : State}

theorem exec_split_next : exec (.split bank n k) s = .next t ↔
    (1 ≤ k.toNat ∧ k.toNat ≤ n.toNat) ∧ splitInto (bankBuf bank) n.toNat k.toNat s = .ok t := by
  rw [← thresholdOk_iff, ← finish_next]
  exact require_next

/-- With counts in range, `SPLIT` faults when it cannot complete, for a reason that applies. -/
theorem exec_split_fault (hk : 1 ≤ k.toNat) (hkn : k.toNat ≤ n.toNat)
    (h : (∃ b < 32, s.read .key b = none) ∨ s.rng.canSupply (32 * (k.toNat - 1)) = false) :
    (exec (.split bank n k) s = .fault .unwrittenRead ∧ ∃ b < 32, s.read .key b = none) ∨
      (exec (.split bank n k) s = .fault .rngFailure ∧ s.rng.canSupply (32 * (k.toNat - 1)) = false) := by
  have hexec {f} (hf : splitInto (bankBuf bank) n.toNat k.toNat s = .error f) : exec (.split bank n k) s = .fault f :=
    require_fault.mpr (.inr ⟨thresholdOk_iff.mpr ⟨hk, hkn⟩, finish_fault.mpr hf⟩)
  cases hsplit : splitInto (bankBuf bank) n.toNat k.toNat s with
  | error f =>
    obtain ⟨rfl, hnone⟩ | ⟨rfl, hshort⟩ := splitInto_error_cases (bankBuf_ne_key bank) hsplit
    · exact .inl ⟨hexec hsplit, hnone⟩
    · exact .inr ⟨hexec hsplit, hshort⟩
  | ok t =>
    obtain ⟨hkey, ds, g, hdraw⟩ := splitInto_ok (bankBuf_ne_key bank) hsplit
    obtain ⟨b, hb, hnone⟩ | hshort := h
    · obtain ⟨v, hv⟩ := hkey b hb
      cases hnone.symm.trans hv
    · cases hdraw.symm.trans (RngPort.draw_error.mpr ⟨rfl, hshort⟩)

end

/-- Settles O38: the faults are those of the check on the counts and of the lanes, the result is that of the loops. -/
theorem splitResult : Obligations.SplitResult := by
  refine fun bank n k s => ⟨decode_encode (.split bank n k), fun hbad => ?_, fun hk hkn => ⟨?_, ?_, ?_⟩, ?_⟩
  · exact require_fault.mpr (.inl ⟨thresholdOk_of_bad hbad, rfl⟩)
  · rintro hnone hcan
    obtain ⟨hf, -⟩ | ⟨-, hshort⟩ := exec_split_fault (bank := bank) hk hkn (.inl hnone)
    · exact hf
    · cases hcan.symm.trans hshort
  · rintro hkey hshort
    obtain ⟨-, b, hb, hnone⟩ | ⟨hf, -⟩ := exec_split_fault (bank := bank) hk hkn (.inr hshort)
    · exact absurd hnone (hkey b hb)
    · exact hf
  · rintro hnone -
    exact (exec_split_fault hk hkn (.inl hnone)).imp And.left And.left
  · rintro key ds g hk hkn hkey hdraw
    obtain ⟨t, hsplit, ⟨m, rfl⟩, hid, hy, hother⟩ := splitInto_spec (bankBuf_ne_key bank) hkey hdraw
    refine ⟨_, exec_split_next.mpr ⟨⟨hk, hkn⟩, hsplit⟩, ?_, hid, fun slot hslot b hb => ?_, hother⟩
    · rw [State.mem_setMem_same, State.setRng]
    · rw [← horner_eq_polySum]
      exact hy slot hslot b hb

/-! ## What `SPLIT` leaves is a sharing -/

theorem toNat_ofNat_succ {n : Byte} {slot : Nat} (h : slot < n.toNat) : (BitVec.ofNat 8 (slot + 1)).toNat = slot + 1 := by
  have := n.isLt
  exact Nat.mod_eq_of_lt (by omega)

theorem legalIds_succ (n : Byte) : LegalIds n.toNat fun slot => BitVec.ofNat 8 (slot + 1) := by
  refine ⟨fun i hi h => ?_, fun i hi j hj hij h => hij ?_⟩
  · have := congrArg BitVec.toNat h
    simp [toNat_ofNat_succ hi] at this
  · have := congrArg BitVec.toNat h
    rw [toNat_ofNat_succ hi, toNat_ofNat_succ hj] at this
    exact Nat.succ.inj this

/-- The draws of one byte position are a whole row of the `B` rows of `c` draws. -/
theorem length_take_drop_row {ds : List Byte} {B c b : Nat} (hds : ds.length = B * c) (hb : b < B) :
    ((ds.drop (c * b)).take c).length = c := by
  have hrow : c * (b + 1) ≤ c * B := Nat.mul_le_mul_left c hb
  rw [List.length_take, List.length_drop, hds, Nat.mul_comm B c]
  rw [Nat.mul_succ] at hrow
  omega

/-- Settles O39: the coefficients at a byte position are its key byte and its draws. -/
theorem splitOutputIsASharing : Obligations.SplitOutputIsASharing := by
  intro bank n k s t h
  obtain ⟨⟨hk, -⟩, hsplit⟩ := exec_split_next.mp h
  obtain ⟨hkey, ds, g, hdraw⟩ := splitInto_ok (bankBuf_ne_key bank) hsplit
  choose! key hkey using hkey
  obtain ⟨t', hsplit', -, hid, hy, -⟩ := splitInto_spec (n := n.toNat) (bankBuf_ne_key bank) hkey hdraw
  obtain rfl : t = t' := Except.ok.inj (hsplit.symm.trans hsplit')
  refine ⟨⟨_, fun slot hslot => ⟨hid slot hslot, toNat_ofNat_succ hslot⟩, legalIds_succ n⟩, fun b hb => ?_⟩
  refine ⟨key b :: (ds.drop ((k.toNat - 1) * b)).take (k.toNat - 1), ?_, (hkey b hb).symm,
    fun slot hslot => hy slot hslot b hb⟩
  obtain ⟨hlen, -, -⟩ := RngPort.draw_ok hdraw
  rw [List.length_cons, length_take_drop_row hlen hb, Nat.sub_add_cancel hk]

end Sys2Proof.Proofs
end

section
/-! PROOFS. The Share Combiner (O40, O43, O44, O45, O46). Each quotient of R142 is pinned by its product with the divisor, so the loop
over the factors is compared with the two products of the one-inversion form without a division. What the identifiers in a state
synthesize to is said once and serves `LBASIS` and `COMBINE`. -/

namespace Sys2Proof.Proofs

open Machine Claims

/-! ## The basis values -/

section
variable {p : Poly} {k i : Nat} {x : Nat → Byte}

theorem gfMul_ne_zero {a b : Byte} (ha : a ≠ 0) (hb : b ≠ 0) : gfMul p a b ≠ 0 := by
  obtain ⟨c, hc⟩ := exists_gfMul_eq_one p ha
  intro h
  refine hb ?_
  calc b = gfMul p (gfMul p a c) b := by rw [hc, one_gfMul]
    _ = gfMul p c (gfMul p a b) := by rw [gfMul_comm p a, gfMul_assoc]
    _ = 0 := by rw [h, gfMul_zero]

/-- The quotient is the one byte whose product with the divisor is the dividend. -/
theorem gfDiv_eq_some_iff {a b q : Byte} (hb : b ≠ 0) : gfDiv p a b = some q ↔ gfMul p b q = a := by
  obtain ⟨c, hc⟩ := exists_gfMul_eq_one p hb
  rw [gfDiv_eq_some hc, Option.some_inj]
  constructor
  · rintro rfl
    rw [gfMul_comm p a, ← gfMul_assoc, hc, one_gfMul]
  · rintro rfl
    rw [gfMul_comm p b, gfMul_assoc, hc, gfMul_one]

theorem exists_gfDiv_eq_some (p : Poly) (a : Byte) {b : Byte} (hb : b ≠ 0) : ∃ q, gfDiv p a b = some q := by
  obtain ⟨c, hc⟩ := exists_gfMul_eq_one p hb
  exact ⟨_, gfDiv_eq_some hc⟩

/-- The product of `f j` over the `j ≠ i` of a list: `prodExcept` for any list of indices. -/
def prodOthers (p : Poly) (i : Nat) (f : Nat → Byte) (js : List Nat) : Byte :=
  (js.filter (fun j => j ≠ i)).foldr (fun j acc => gfMul p (f j) acc) 1

theorem prodExcept_eq_prodOthers (f : Nat → Byte) : prodExcept p k i f = prodOthers p i f (List.range k) := rfl

theorem prodOthers_cons_self (f : Nat → Byte) (js : List Nat) : prodOthers p i f (i :: js) = prodOthers p i f js := by
  simp [prodOthers]

theorem prodOthers_cons_of_ne {j : Nat} (h : j ≠ i) (f : Nat → Byte) (js : List Nat) :
    prodOthers p i f (j :: js) = gfMul p (f j) (prodOthers p i f js) := by
  simp [prodOthers, h]

theorem prodOthers_ne_zero {f : Nat → Byte} {js : List Nat} (h : ∀ j ∈ js, j ≠ i → f j ≠ 0) : prodOthers p i f js ≠ 0 := by
  induction js with
  | nil => exact (by decide : (1 : Byte) ≠ 0)
  | cons j js ih =>
    have hrest := ih fun j' hj' => h j' (List.mem_cons_of_mem j hj')
    by_cases hj : j = i
    · rwa [hj, prodOthers_cons_self]
    · rw [prodOthers_cons_of_ne hj]
      exact gfMul_ne_zero (h j List.mem_cons_self hj) hrest

/-- The inner loop of R142 multiplies `l` by a factor whose product with all the divisors is the product of all the dividends. -/
theorem basisProduct_mul_divisors {js : List Nat} (hx : ∀ j ∈ js, j ≠ i → x j ^^^ x i ≠ 0) (l : Byte) :
    ∃ q, basisProduct p i (x i) l (js.map fun j => (x j, j)) = some q ∧
      gfMul p (prodOthers p i (fun j => x j ^^^ x i) js) q = gfMul p (prodOthers p i x js) l := by
  induction js generalizing l with
  | nil => exact ⟨l, rfl, rfl⟩
  | cons j js ih =>
    replace ih := ih fun j' hj' => hx j' (List.mem_cons_of_mem j hj')
    rw [List.map_cons, basisProduct]
    by_cases hj : j = i
    · rw [if_pos hj, hj, prodOthers_cons_self, prodOthers_cons_self]
      exact ih l
    · have hd : gfAdd (x j) (x i) ≠ 0 := hx j List.mem_cons_self hj
      obtain ⟨c, hc⟩ := exists_gfDiv_eq_some p (x j) hd
      obtain ⟨q, hq, hmul⟩ := ih (gfMul p l c)
      refine ⟨q, by rw [if_neg hj, hc]; exact hq, ?_⟩
      rw [prodOthers_cons_of_ne hj, prodOthers_cons_of_ne hj]
      set D := prodOthers p i (fun j => x j ^^^ x i) js
      set N := prodOthers p i x js
      calc gfMul p (gfMul p (gfAdd (x j) (x i)) D) q
          = gfMul p (gfAdd (x j) (x i)) (gfMul p N (gfMul p l c)) := by rw [gfMul_assoc, hmul]
        _ = gfMul p (gfMul p (gfMul p (gfAdd (x j) (x i)) c) N) l :=
          residue_injective p (by simp only [residue_gfMul]; ring)
        _ = gfMul p (gfMul p (x j) N) l := by rw [(gfDiv_eq_some_iff hd).mp hc]

/-- The inner loop over all shares ends with the one quotient of products. -/
theorem basisProduct_isBasisValue (hx : LegalIds k x) (hi : i < k) :
    ∃ l, basisProduct p i (x i) 1 ((List.range k).map fun j => (x j, j)) = some l ∧ IsBasisValue p k x i l := by
  have hne : ∀ j ∈ List.range k, j ≠ i → x j ^^^ x i ≠ 0 := fun j hj hji h =>
    hx.2 j (List.mem_range.mp hj) i hi hji (BitVec.xor_eq_zero_iff.mp h)
  obtain ⟨l, hl, hmul⟩ := basisProduct_mul_divisors hne 1
  refine ⟨l, hl, (gfDiv_eq_some_iff (prodOthers_ne_zero hne)).mpr ?_⟩
  exact hmul.trans (gfMul_one p _)

theorem basisList_of_forall {xs : List (Byte × Nat)} {l : Nat → Byte} {is : List Nat}
    (h : ∀ i ∈ is, basisProduct p i (x i) 1 xs = some (l i)) :
    basisList p xs (is.map fun i => (x i, i)) = some (is.map l) := by
  induction is with
  | nil => rfl
  | cons i is ih =>
    rw [List.map_cons, basisList, h i List.mem_cons_self, ih fun j hj => h j (List.mem_cons_of_mem i hj), List.map_cons]

theorem zipIdx_map_range (k : Nat) (x : Nat → Byte) :
    ((List.range k).map x).zipIdx = (List.range k).map fun j => (x j, j) := by
  refine List.ext_getElem (by simp) fun j _ _ => ?_
  simp

/-- The basis values of legal identifiers, numbered by share. -/
theorem basis0_of_legalIds (p : Poly) (hx : LegalIds k x) :
    ∃ l, basis0 p ((List.range k).map x) = some ((List.range k).map l) ∧ ∀ i < k, IsBasisValue p k x i (l i) := by
  have hvalue : ∀ i < k, ∃ l, basisProduct p i (x i) 1 ((List.range k).map fun j => (x j, j)) = some l ∧
    IsBasisValue p k x i l := fun i hi => basisProduct_isBasisValue hx hi
  choose! l hl hbasis using hvalue
  refine ⟨l, ?_, hbasis⟩
  rw [basis0, zipIdx_map_range]
  exact basisList_of_forall fun i hi => hl i (List.mem_range.mp hi)

end

/-- Settles O40: the loop of R142 gives each share the quotient of products. -/
theorem basisIsTheLagrangeQuotient : Obligations.BasisIsTheLagrangeQuotient := by
  intro p k x _ hx
  obtain ⟨l, hl, hbasis⟩ := basis0_of_legalIds p hx
  refine ⟨_, hl, by simp, fun i hi => ?_⟩
  rw [List.length_map, List.length_range] at hi
  simpa using hbasis i hi

/-! ## The identifiers in a state -/

theorem distinct_iff_nodup {xs : List Byte} : distinct xs = true ↔ xs.Nodup := by
  induction xs with
  | nil => simp [distinct]
  | cons x xs ih => simp [distinct, ih]

section
variable {k : Nat} {x : Nat → Byte} {s : State}

theorem idsOk_iff_legalIds : idsOk ((List.range k).map x) = true ↔ LegalIds k x := by
  have hzero : ((List.range k).map x).all (fun v => decide (v ≠ 0)) = true ↔ ∀ i < k, x i ≠ 0 := by simp
  have hdistinct : distinct ((List.range k).map x) = true ↔ ∀ i < k, ∀ j < k, i ≠ j → x i ≠ x j := by
    rw [distinct_iff_nodup, List.nodup_map_iff_inj_on List.nodup_range]
    simp only [List.mem_range, ne_eq, not_imp_not]
  rw [idsOk, Bool.and_eq_true, hzero, hdistinct, LegalIds]

theorem readAll_ids (h : IdsAre s k x) : s.readAll .s1 ((List.range k).map idAddr) = .ok ((List.range k).map x) := by
  rw [State.readAll_ok, List.map_map, List.map_map]
  exact List.map_congr_left fun i hi => h i (List.mem_range.mp hi)

theorem synthesize_unwritten (h : ∃ i < k, s.read .s1 (bankAddr i 0) = none) : synthesize k s = .error .unwrittenRead := by
  have hread : s.readAll .s1 ((List.range k).map idAddr) = .error .unwrittenRead :=
    State.readAll_error.mpr ⟨rfl, by simpa [idAddr] using h⟩
  rw [synthesize, hread]

theorem synthesize_badIdentifiers (hids : IdsAre s k x) (hx : ¬ LegalIds k x) : synthesize k s = .error .badIdentifiers := by
  have hbad : idsOk ((List.range k).map x) = false := by rwa [← Bool.not_eq_true, idsOk_iff_legalIds]
  simp only [synthesize, readAll_ids hids, hbad]

/-- Legal identifiers synthesize to their basis values. -/
theorem synthesize_of_legalIds (hids : IdsAre s k x) (hx : LegalIds k x) :
    ∃ l, synthesize k s = .ok ((List.range k).map l) ∧ ∀ i < k, IsBasisValue s.poly k x i (l i) := by
  obtain ⟨l, hl, hbasis⟩ := basis0_of_legalIds s.poly hx
  exact ⟨l, synthesize_ok.mpr ⟨_, readAll_ids hids, idsOk_iff_legalIds.mpr hx, hl⟩, hbasis⟩

theorem synthesize_length {ls : List Byte} (h : synthesize k s = .ok ls) : ls.length = k := by
  obtain ⟨xs, hxs, -, hls⟩ := synthesize_ok.mp h
  simpa [basis0_length hls] using State.readAll_length hxs

end

/-! ## A run of writes from index 0 -/

section
variable (s : State) (b : Buf)

theorem read_writeFrom_map_range (l : Nat → Byte) {k i : Nat} (hi : i < k) :
    (s.writeFrom b 0 ((List.range k).map l)).read b i = some (l i) := by
  have h := State.read_writeFrom_inside s b 0 ((List.range k).map l) (j := i) (by simpa using hi)
  rwa [Nat.zero_add, List.getElem_map, List.getElem_range] at h

theorem read_writeFrom_map_range_above (l : Nat → Byte) {k a : Nat} (ha : k ≤ a) :
    (s.writeFrom b 0 ((List.range k).map l)).read b a = s.read b a :=
  State.read_writeFrom_outside s b _ (.inr (by simpa using ha))

theorem readAll_writeFrom (vs : List Byte) : (s.writeFrom b 0 vs).readAll b (List.range vs.length) = .ok vs := by
  rw [State.readAll_ok]
  refine List.ext_getElem (by simp) fun j _ hj => ?_
  rw [List.length_map] at hj
  simpa using State.read_writeFrom_inside s b 0 vs hj

end

/-! ## Interpolation -/

/-- The sum of R144 does not depend on the end it is taken from. -/
theorem interp0_map_range (p : Poly) (k : Nat) (y l : Nat → Byte) :
    interp0 p ((List.range k).map y) ((List.range k).map l) = xorSum ((List.range k).map fun i => gfMul p (y i) (l i)) := by
  calc interp0 p ((List.range k).map y) ((List.range k).map l)
      = ((List.range k).map fun i => gfMul p (y i) (l i)).foldl (fun a b => a ^^^ b) 0 := by
        rw [interp0, List.zip_map', List.foldl_map, List.foldl_map]; rfl
    _ = xorSum ((List.range k).map fun i => gfMul p (y i) (l i)) := List.foldl_eq_foldr

/-! ## The commands -/

section
variable {k : Byte} {s : State} {ls : List Byte} {f : Fault}

theorem exec_lbasis (hk : k ≠ 0) (h : synthesize k.toNat s = .ok ls) : exec (.lbasis k) s = .next (s.writeFrom .basis 0 ls) :=
  require_next.mpr ⟨countOk_of_ne_zero hk, by rw [h]⟩

theorem exec_lbasis_fault (hk : k ≠ 0) (h : synthesize k.toNat s = .error f) : exec (.lbasis k) s = .fault f :=
  require_fault.mpr (.inr ⟨countOk_of_ne_zero hk, by rw [h]⟩)

theorem exec_interp (hk : k ≠ 0) (h : s.readAll .basis (List.range k.toNat) = .ok ls) :
    exec (.interp k) s = finish (interpolate k.toNat ls s) := by
  simp only [exec, execInterp, countOk_of_ne_zero hk, require, h]

theorem exec_interp_unwritten (hk : k ≠ 0) (h : YMissing s k.toNat ∨ ∃ i < k.toNat, s.read .basis i = none) :
    exec (.interp k) s = .fault .unwrittenRead := by
  cases hread : s.readAll .basis (List.range k.toNat) with
  | error f =>
    obtain ⟨rfl, -⟩ := State.readAll_error.mp hread
    exact require_fault.mpr (.inr ⟨countOk_of_ne_zero hk, by rw [hread]⟩)
  | ok ls =>
    obtain hy | hbasis := h
    · rw [exec_interp hk hread, finish_fault.mpr (interpolate_unwritten hy)]
    · have hnone : s.readAll .basis (List.range k.toNat) = .error .unwrittenRead :=
        State.readAll_error.mpr ⟨rfl, by simpa using hbasis⟩
      cases hread.symm.trans hnone

theorem exec_combine (hk : k ≠ 0) (h : synthesize k.toNat s = .ok ls) :
    exec (.combine k) s = finish (interpolate k.toNat ls (s.writeFrom .basis 0 ls)) := by
  simp only [exec, execCombine, countOk_of_ne_zero hk, require, h]

theorem exec_combine_fault (hk : k ≠ 0) (h : synthesize k.toNat s = .error f) : exec (.combine k) s = .fault f :=
  require_fault.mpr (.inr ⟨countOk_of_ne_zero hk, by rw [h]⟩)

theorem execAll_singleton (i : Instr) (s : State) : execAll [i] s = exec i s := by
  rw [execAll]
  cases exec i s <;> rfl

end

/-- Settles O43: the identifiers synthesize to their basis values, and the run of writes puts them where they belong. -/
theorem lbasisResult : Obligations.LbasisResult := by
  refine fun k s => ⟨decode_encode (.lbasis k), fun hk => ?_, fun hk hnone => ?_, fun x hk hids => ⟨fun hx => ?_, fun hx => ?_⟩⟩
  · exact require_fault.mpr (.inl ⟨countOk_of_zero hk, rfl⟩)
  · exact exec_lbasis_fault hk (synthesize_unwritten hnone)
  · exact exec_lbasis_fault hk (synthesize_badIdentifiers hids hx)
  · obtain ⟨l, hl, hbasis⟩ := synthesize_of_legalIds hids hx
    refine ⟨_, exec_lbasis hk hl, ?_, fun i hi => ?_, fun a ha => read_writeFrom_map_range_above s .basis l ha⟩
    · obtain ⟨m, hm⟩ := State.writeFrom_frame s .basis 0 ((List.range k.toNat).map l)
      rw [hm, State.setMem]
    · exact ⟨l i, read_writeFrom_map_range s .basis l hi, hbasis i hi⟩

/-- Settles O44: the weights are read first, and the lanes write the weighted sums. -/
theorem interpResult : Obligations.InterpResult := by
  refine fun k s => ⟨decode_encode (.interp k), fun hk => ?_, exec_interp_unwritten, fun y l hk hy hl => ?_⟩
  · exact require_fault.mpr (.inl ⟨countOk_of_zero hk, rfl⟩)
  · have hread : s.readAll .basis (List.range k.toNat) = .ok ((List.range k.toNat).map l) :=
      State.readAll_of_forall (by simpa using hl)
    obtain ⟨t, ht, ⟨m, rfl⟩, hkey, hother⟩ := interpolate_spec hy
    refine ⟨_, by rw [exec_interp hk hread, finish_next.mpr ht], by rw [State.setMem], fun b hb => ?_, hother⟩
    rw [hkey b hb, interp0_map_range]

/-- Settles O46: `INTERP` reads back the basis values that `LBASIS` has written. -/
theorem combineIsLbasisThenInterp : Obligations.CombineIsLbasisThenInterp := by
  intro k s
  by_cases hk : k = 0
  · subst hk
    rfl
  cases hls : synthesize k.toNat s with
  | error f => rw [exec_combine_fault hk hls, execAll, exec_lbasis_fault hk hls]
  | ok ls =>
    have hread : (s.writeFrom .basis 0 ls).readAll .basis (List.range k.toNat) = .ok ls := by
      rw [← synthesize_length hls]
      exact readAll_writeFrom s .basis ls
    rw [exec_combine hk hls, execAll, exec_lbasis hk hls]
    exact ((execAll_singleton _ _).trans (exec_interp hk hread)).symm

section
variable {k : Byte} {s u : State}

theorem exec_combine_of_lbasis_fault {f : Fault} (h : exec (.lbasis k) s = .fault f) : exec (.combine k) s = .fault f := by
  rw [combineIsLbasisThenInterp k s, execAll, h]

theorem exec_combine_of_lbasis_next (h : exec (.lbasis k) s = .next u) : exec (.combine k) s = exec (.interp k) u := by
  rw [combineIsLbasisThenInterp k s, execAll, h]
  exact execAll_singleton _ _

end

/-- Settles O45: `LBASIS` faults or leaves a state that differs in `BASIS` only, and from there `INTERP` changes `KEY` only. -/
theorem combineResult : Obligations.CombineResult := by
  intro k s
  obtain ⟨-, hcount, hunwritten, hlbasis⟩ := lbasisResult k s
  refine ⟨decode_encode (.combine k), fun hk => exec_combine_of_lbasis_fault (hcount hk),
    fun hk hnone => exec_combine_of_lbasis_fault (hunwritten hk hnone), fun x hk hids => ?_⟩
  obtain ⟨hbad, hlegal⟩ := hlbasis x hk hids
  refine ⟨fun hx => exec_combine_of_lbasis_fault (hbad hx), fun hx hmissing => ?_, fun y hx hy => ?_⟩
  all_goals
    obtain ⟨u, hu, hframe, hbasis, habove⟩ := hlegal hx
    have hs1 (a : Nat) : u.read .s1 a = s.read .s1 a := by rw [hframe]; rfl
    rw [exec_combine_of_lbasis_next hu]
  · exact exec_interp_unwritten hk (.inl (by simpa only [YMissing, hs1] using hmissing))
  · choose! l hl hvalue using hbasis
    obtain ⟨-, -, -, hinterp⟩ := interpResult k u
    obtain ⟨t, ht, hframe', hkey, hother⟩ := hinterp y l hk (by simpa only [YsAre, hs1] using hy) hl
    have hkept (a : Nat) : t.read .basis a = u.read .basis a := by rw [hframe']; rfl
    refine ⟨t, l, ht, ?_, fun i hi => ⟨(hkept i).trans (hl i hi), hvalue i hi⟩, fun a ha => (hkept a).trans (habove a ha),
      fun b hb => ?_, fun a ha => (hother a ha).trans ?_⟩
    · calc t = { u with key := t.key } := hframe'
        _ = { s with key := t.key, basis := u.basis } := by rw [hframe]
        _ = { s with key := t.key, basis := t.basis } := by rw [hframe']
    · rw [hkey b hb, hframe]
    · rw [hframe]; rfl

end Sys2Proof.Proofs
end

section
/-! PROOFS. The Homomorphic Adder (O50, O52, O53, O54). A pair is unwritten, differs or matches, and what `addPair` answers is said once
for each. The add of one pair leaves the bytes of every other pair alone, so what the pairs were at the start decides where `SADDN` stops. -/

namespace Sys2Proof.Proofs

open Machine Claims

/-! ## One pair -/

section
variable {p q : Nat} {s t : State}

theorem isYByte_bankAddr_iff {slot o : Nat} (ho : o ≤ 32) : IsYByte p (bankAddr slot o) ↔ slot = p ∧ 1 ≤ o := by
  constructor
  · rintro ⟨r, hr1, hr32, h⟩
    obtain ⟨rfl, rfl⟩ := (bankAddr_inj (by omega) (by omega)).mp h
    exact ⟨rfl, hr1⟩
  · rintro ⟨rfl, h1⟩
    exact ⟨o, h1, ho, rfl⟩

theorem addPair_of_equal_ids {x : Byte} (hx : s.read .s1 (bankAddr p 0) = some x) (hy : s.read .s2 (bankAddr q 0) = some x) :
    addPair p q s = match forEach (addByte p q) yOffsets s with
      | .error f => .error f
      | .ok t => .ok (true, t) := by
  rw [addPair, idAddr, idAddr, State.bufRead_ok.mpr hx, State.bufRead_ok.mpr hy]
  exact if_pos rfl

theorem addPair_of_differs (h : PairDiffers s p q) : addPair p q s = .ok (false, s) := by
  obtain ⟨x, y, hx, hy, hne⟩ := h
  rw [addPair, idAddr, idAddr, State.bufRead_ok.mpr hx, State.bufRead_ok.mpr hy]
  exact if_neg hne

theorem addPair_of_unwritten (h : PairUnwritten s p q) : addPair p q s = .error .unwrittenRead := by
  cases hx : s.read .s1 (bankAddr p 0) with
  | none => rw [addPair, idAddr, State.bufRead_error.mpr ⟨hx, rfl⟩]
  | some x =>
    cases hy : s.read .s2 (bankAddr q 0) with
    | none => rw [addPair, idAddr, idAddr, State.bufRead_ok.mpr hx, State.bufRead_error.mpr ⟨hy, rfl⟩]
    | some y =>
      obtain ⟨rfl, hnone⟩ : x = y ∧ _ := by simpa [PairUnwritten, hx, hy] using h
      rw [addPair_of_equal_ids hx hy, addBytes_unwritten hnone]

/-- R160 on a match: the y-bytes are added in place, and nothing else changes. -/
theorem addPair_of_matches (h : PairMatches s p q) :
    ∃ t, addPair p q s = .ok (true, t) ∧ (∃ mem, t = s.setMem .s1 mem) ∧ PairAdded s t p q ∧
      ∀ a, ¬ IsYByte p a → t.read .s1 a = s.read .s1 a := by
  obtain ⟨⟨id, hid1, hid2⟩, hwritten⟩ := h
  choose! x hx using fun o h1 h32 => (hwritten o h1 h32).1
  choose! y hy using fun o h1 h32 => (hwritten o h1 h32).2
  obtain ⟨t, ht, hframe, hsum, hother⟩ := addBytes_spec hx hy
  refine ⟨t, by rw [addPair_of_equal_ids hid1 hid2, ht], hframe, fun o h1 h32 x' y' hx' hy' => ?_,
    fun a ha => hother a fun o h1 h32 hao => ha ⟨o, h1, h32, hao⟩⟩
  obtain rfl : x o = x' := Option.some_injective _ ((hx o h1 h32).symm.trans hx')
  obtain rfl : y o = y' := Option.some_injective _ ((hy o h1 h32).symm.trans hy')
  exact hsum o h1 h32

end

/-! ## SADD2 -/

section
variable {p q : Byte}

theorem exec_sadd2 (hp : p ≠ 255) (hq : q ≠ 255) (s : State) :
    exec (.sadd2 p q) s = finishAdd (addPair p.toNat q.toNat s) := by
  have slotOk_of_ne {r : Byte} (hr : r ≠ 255) : slotOk r = true := slotOk_iff.mpr (by bv_omega)
  show require (slotOk p && slotOk q) _ _ = _
  rw [slotOk_of_ne hp, slotOk_of_ne hq]
  rfl

theorem exec_sadd2_of_matches {s : State} (hp : p ≠ 255) (hq : q ≠ 255) (h : PairMatches s p.toNat q.toNat) :
    ∃ t, exec (.sadd2 p q) s = .next t ∧ t = { s with s1 := t.s1, status := 0 } ∧ PairAdded s t p.toNat q.toNat ∧
      ∀ a, ¬ IsYByte p.toNat a → t.read .s1 a = s.read .s1 a := by
  obtain ⟨t, ht, ⟨mem, rfl⟩, hadded, hother⟩ := addPair_of_matches h
  exact ⟨_, (exec_sadd2 hp hq s).trans (finishAdd_next.mpr ⟨true, _, ht, rfl⟩), rfl, hadded, hother⟩

end

/-- Settles O50: the slots are checked first, and the three cases of a pair give the rest. -/
theorem sadd2Result : Obligations.Sadd2Result := by
  refine fun p q s => ⟨decode_encode (.sadd2 p q), fun h => ?_, fun hp hq => ?_⟩
  · exact require_fault.mpr (.inl ⟨slotsOk_of_bad h, rfl⟩)
  refine ⟨fun h => ?_, fun h => ?_, exec_sadd2_of_matches hp hq⟩
  · rw [exec_sadd2 hp hq, addPair_of_unwritten h, finishAdd]
  · rw [exec_sadd2 hp hq, addPair_of_differs h]
    rfl

/-- The identifiers are no y-bytes, and the y-bytes stay written: a pair that was added matches still. -/
theorem pairMatches_after_add {p q : Nat} {s t : State} (h : PairMatches s p q) (hframe : ∀ a, t.read .s2 a = s.read .s2 a)
    (hadded : PairAdded s t p q) (hother : ∀ a, ¬ IsYByte p a → t.read .s1 a = s.read .s1 a) : PairMatches t p q := by
  obtain ⟨hid, hwritten⟩ := h
  have hid1 : t.read .s1 (bankAddr p 0) = s.read .s1 (bankAddr p 0) :=
    hother _ (by simp [isYByte_bankAddr_iff])
  refine ⟨by rwa [hid1, hframe], fun o h1 h32 => ?_⟩
  obtain ⟨⟨x, hx⟩, ⟨y, hy⟩⟩ := hwritten o h1 h32
  exact ⟨⟨_, hadded o h1 h32 x y hx hy⟩, y, by rwa [hframe]⟩

/-- Settles O52: the pair matches before both adds, and `x ^^^ y ^^^ y = x`. -/
theorem addingTwiceRestores : Obligations.AddingTwiceRestores := by
  intro p q s hp254 hq254 h
  have hp : p ≠ 255 := by bv_omega
  have hq : q ≠ 255 := by bv_omega
  obtain ⟨t, ht, htframe, htadded, htother⟩ := exec_sadd2_of_matches hp hq h
  have hs2 (a : Nat) : t.read .s2 a = s.read .s2 a := by rw [htframe]; rfl
  obtain ⟨u, hu, huframe, huadded, huother⟩ :=
    exec_sadd2_of_matches hp hq (pairMatches_after_add h hs2 htadded htother)
  refine ⟨u, by rw [execAll, ht]; exact (execAll_singleton _ _).trans hu, by rw [huframe], fun b a => ?_⟩
  have hframe : u = { s with s1 := u.s1, status := 0 } := by rw [huframe, htframe]
  cases b with
  | s1 =>
    by_cases ha : IsYByte p.toNat a
    · obtain ⟨o, h1, h32, rfl⟩ := ha
      obtain ⟨-, hwritten⟩ := h
      obtain ⟨⟨x, hx⟩, ⟨y, hy⟩⟩ := hwritten o h1 h32
      rw [huadded o h1 h32 _ y (htadded o h1 h32 x y hx hy) (by rw [hs2, hy]), hx, BitVec.xor_assoc, BitVec.xor_self, BitVec.xor_zero]
    · rw [huother a ha, htother a ha]
  | s2 => rw [hframe]; rfl
  | key => rw [hframe]; rfl
  | coef => rw [hframe]; rfl
  | basis => rw [hframe]; rfl

/-! ## The pairs of SADDN -/

/-- The bytes that the add of the pair `p`, `q` reads are the same in both states. -/
def SamePair (p q : Nat) (s t : State) : Prop :=
  ∀ o ≤ 32, t.read .s1 (bankAddr p o) = s.read .s1 (bankAddr p o) ∧ t.read .s2 (bankAddr q o) = s.read .s2 (bankAddr q o)

namespace SamePair
variable {p q : Nat} {s t : State} (h : SamePair p q s t)
include h

theorem pairMatches (hs : PairMatches s p q) : PairMatches t p q := by
  obtain ⟨hid, hwritten⟩ := hs
  obtain ⟨h1, h2⟩ := h 0 (by omega)
  refine ⟨by rwa [h1, h2], fun o ho ho32 => ?_⟩
  obtain ⟨h1, h2⟩ := h o ho32
  simpa only [h1, h2] using hwritten o ho ho32

theorem pairDiffers (hs : PairDiffers s p q) : PairDiffers t p q := by
  obtain ⟨h1, h2⟩ := h 0 (by omega)
  rwa [PairDiffers, h1, h2]

theorem pairUnwritten (hs : PairUnwritten s p q) : PairUnwritten t p q := by
  obtain ⟨h1, h2⟩ := h 0 (by omega)
  rw [PairUnwritten, h1, h2]
  refine hs.imp_right (Or.imp_right (And.imp_right ?_))
  rintro ⟨o, ho, ho32, hnone⟩
  obtain ⟨h1, h2⟩ := h o ho32
  exact ⟨o, ho, ho32, by rwa [h1, h2]⟩

end SamePair

section
variable {m n : Nat} {s t : State}

theorem addPairs_append (l l' : List Nat) (s : State) :
    addPairs (l ++ l') s = match addPairs l s with
      | .ok (true, t) => addPairs l' t
      | r => r := by
  induction l generalizing s with
  | nil => rfl
  | cons slot rest ih =>
    rw [List.cons_append, addPairs, addPairs]
    cases addPair slot slot s with
    | error f => rfl
    | ok r =>
      obtain ⟨matched, t⟩ := r
      cases matched with
      | true => exact ih t
      | false => rfl

theorem addPairs_singleton (slot : Nat) (s : State) : addPairs [slot] s = addPair slot slot s := by
  rw [addPairs]
  cases addPair slot slot s with
  | error f => rfl
  | ok r =>
    obtain ⟨matched, t⟩ := r
    cases matched <;> rfl

/-- The pairs before `m` having matched, a pair `m` that faults or differs ends the loop. -/
theorem addPairs_range_stops {r : Except Fault (Bool × State)} (hmn : m < n) (h : addPairs (List.range m) s = .ok (true, t))
    (hr : addPair m m t = r) (hstop : ∀ u, r ≠ .ok (true, u)) : addPairs (List.range n) s = r := by
  have hsplit : List.range n = List.range m ++ ([m] ++ (List.range (n - m - 1)).map (m + 1 + ·)) := by
    rw [← List.append_assoc, ← List.range_succ, ← List.range_add]
    congr 1
    omega
  rw [hsplit, addPairs_append, h]
  show addPairs ([m] ++ _) t = r
  rw [addPairs_append, addPairs_singleton, hr]
  obtain f | ⟨matched, u⟩ := r
  · rfl
  · cases matched with
    | true => exact absurd rfl (hstop u)
    | false => rfl

/-- The adds of the pairs before `m` leave pair `m` alone. -/
theorem samePair_of_added (hframe : ∃ mem, t = s.setMem .s1 mem)
    (hother : ∀ a, (∀ i < m, ¬ IsYByte i a) → t.read .s1 a = s.read .s1 a) : SamePair m m s t := by
  obtain ⟨mem, rfl⟩ := hframe
  refine fun o ho => ⟨hother _ fun i hi hy => ?_, State.read_setMem_other s mem _ (by decide)⟩
  have := (isYByte_bankAddr_iff ho).mp hy
  omega

/-- R161 as long as pairs match: their y-bytes are added in place, and nothing else changes. -/
theorem addPairs_range_of_matches (h : ∀ i < m, PairMatches s i i) :
    ∃ t, addPairs (List.range m) s = .ok (true, t) ∧ (∃ mem, t = s.setMem .s1 mem) ∧ (∀ i < m, PairAdded s t i i) ∧
      ∀ a, (∀ i < m, ¬ IsYByte i a) → t.read .s1 a = s.read .s1 a := by
  induction m with
  | zero => exact ⟨s, rfl, ⟨s.mem .s1, by simp⟩, by simp, fun _ _ => rfl⟩
  | succ m ih =>
    obtain ⟨t, ht, htframe, htadded, htother⟩ := ih fun i hi => h i (by omega)
    have hsame : SamePair m m s t := samePair_of_added htframe htother
    obtain ⟨u, hu, ⟨mem, huframe⟩, huadded, huother⟩ := addPair_of_matches (hsame.pairMatches (h m (by omega)))
    refine ⟨u, ?_, ?_, fun i hi o h1 h32 x y hx hy => ?_, fun a ha => ?_⟩
    · rw [List.range_succ, addPairs_append, ht]
      exact (addPairs_singleton m t).trans hu
    · obtain ⟨mem', rfl⟩ := htframe
      exact ⟨mem, by simp [huframe]⟩
    · obtain hi | rfl := Nat.lt_succ_iff_lt_or_eq.mp hi
      · have hy' : ¬ IsYByte m (bankAddr i o) := fun hm => by
          have := (isYByte_bankAddr_iff h32).mp hm
          omega
        rw [huother _ hy']
        exact htadded i hi o h1 h32 x y hx hy
      · obtain ⟨hs1, hs2⟩ := hsame o h32
        exact huadded o h1 h32 x y (by rwa [hs1]) (by rwa [hs2])
    · rw [huother a (ha m (by omega)), htother a fun i hi => ha i (by omega)]

end

/-! ## SADDN -/

theorem exec_saddn {n : Byte} (hn : n ≠ 0) (s : State) :
    exec (.saddn n) s = finishAdd (addPairs (List.range n.toNat) s) := by
  show require (countOk n) _ _ = _
  rw [countOk_of_ne_zero hn]
  rfl

/-- Settles O53: the pairs before `m` are added, and pair `m`, still what it was at the start, ends the loop. -/
theorem saddnResult : Obligations.SaddnResult := by
  refine fun n s => ⟨decode_encode (.saddn n), fun hn => ?_, fun m hm hmatches hunwritten => ?_,
    fun m hm hn hmatches hdiffers => ?_⟩
  · exact require_fault.mpr (.inl ⟨countOk_of_zero hn, rfl⟩)
  all_goals
    obtain ⟨t, ht, hframe, hadded, hother⟩ := addPairs_range_of_matches hmatches
    have hsame : SamePair m m s t := samePair_of_added hframe hother
  · have hstop := addPairs_range_stops hm ht (addPair_of_unwritten (hsame.pairUnwritten hunwritten)) (by simp)
    rw [exec_saddn (by rintro rfl; exact absurd hm (by simp)), hstop, finishAdd]
  · have hpairs : addPairs (List.range n.toNat) s = .ok (decide (m = n.toNat), t) := by
      obtain hlt | rfl := Nat.lt_or_eq_of_le hm
      · rw [decide_eq_false hlt.ne]
        exact addPairs_range_stops hlt ht (addPair_of_differs (hsame.pairDiffers (hdiffers hlt))) (by simp)
      · rw [ht, decide_eq_true rfl]
    have hexec : exec (.saddn n) s = .next (t.setStatus (statusOfMatch (decide (m = n.toNat)))) := by
      rw [exec_saddn hn, hpairs, finishAdd]
    obtain ⟨mem, rfl⟩ := hframe
    exact ⟨_, hexec, by simp [State.setStatus, State.setMem, statusOfMatch, statusOk, statusIdMismatch], hadded, hother⟩

/-- Settles O54: one pair is the whole loop. -/
theorem saddnOneIsSadd2 : Obligations.SaddnOneIsSadd2 := by
  intro s
  show finishAdd (addPairs [0] s) = finishAdd (addPair 0 0 s)
  rw [addPairs_singleton]

end Sys2Proof.Proofs
end

section
/-! PROOFS. Buffer access (O56, O57, O58, O59, O60). What a store in range leaves is said once for every buffer. A list of commands that
each do one turn of a loop is that loop, so a record's 33 stores are a loop of writes to distinct places. -/

namespace Sys2Proof.Proofs

open Machine Claims

/-! ## Ranges of the operands -/

section
variable {slot offset index : Byte}

theorem bankIndexOk_iff : (slotOk slot && offsetOk offset) = true ↔ slot.toNat ≤ 254 ∧ offset.toNat ≤ 32 := by
  rw [Bool.and_eq_true, slotOk_iff, offsetOk_iff, Nat.lt_succ_iff, Nat.lt_succ_iff]

theorem bankIndexOk_eq_false (h : ¬ (slot.toNat ≤ 254 ∧ offset.toNat ≤ 32)) : (slotOk slot && offsetOk offset) = false :=
  Bool.eq_false_iff.mpr (mt bankIndexOk_iff.mp h)

theorem coefIndexOk_eq_false (h : index.toNat = 255) : coefIndexOk index = false :=
  coefIndexOk_of_255 (BitVec.eq_of_toNat_eq h)

theorem basisIndexOk_eq_false (h : index.toNat = 255) : basisIndexOk index = false :=
  basisIndexOk_of_255 (BitVec.eq_of_toNat_eq h)

end

/-! ## One byte stored or loaded -/

section
variable {c : Bool} {b : Buf} {a : Nat} {v : Byte} {s : State}

/-- A store in range puts its byte where it belongs; every other byte of the buffer and every other field are as before. -/
theorem storeByte_inRange (hc : c = true) :
    ∃ t, storeByte c b a v s = .next t ∧ t = s.setMem b (t.mem b) ∧ t.read b a = some v ∧
      ∀ a', a' ≠ a → t.read b a' = s.read b a' :=
  ⟨s.write b a v, storeByte_next.mpr ⟨hc, rfl⟩, by rw [State.mem_write_same, State.write], State.read_write_same s b a v,
    fun _ ha => State.read_write_index s b v ha⟩

theorem storeByte_outOfRange (hc : c = false) : storeByte c b a v s = .fault .indexOutOfRange :=
  storeByte_fault.mpr ⟨hc, rfl⟩

theorem loadByte_outOfRange (hc : c = false) : loadByte c b a s = .fault .indexOutOfRange :=
  loadByte_fault.mpr (.inl ⟨hc, rfl⟩)

theorem loadByte_unwritten (hc : c = true) (h : s.read b a = none) : loadByte c b a s = .fault .unwrittenRead :=
  loadByte_fault.mpr (.inr ⟨hc, h, rfl⟩)

theorem loadByte_written (hc : c = true) (h : s.read b a = some v) : loadByte c b a s = .next (s.writeR v) :=
  loadByte_next.mpr ⟨hc, v, h, rfl⟩

end

/-- Settles O56: both commands are the store of one byte, checked on slot and offset. -/
theorem bankWriteResult : Obligations.BankWriteResult := by
  refine fun slot offset value s => ⟨decode_encode (.wrs1 slot offset value), decode_encode (.wrs2 slot offset value),
    fun hbad => ?_, fun hslot hoffset => ?_⟩
  · have hc := bankIndexOk_eq_false hbad
    exact ⟨storeByte_outOfRange hc, storeByte_outOfRange hc⟩
  · have hc := bankIndexOk_iff.mpr ⟨hslot, hoffset⟩
    exact ⟨storeByte_inRange (b := .s1) hc, storeByte_inRange (b := .s2) hc⟩

/-- Settles O57: the three commands are the store of one byte, each checked on its own buffer's range. -/
theorem bufferWriteResult : Obligations.BufferWriteResult := by
  refine fun index value s => ⟨decode_encode (.wrkey index value), decode_encode (.wrcoef index value),
    decode_encode (.wrbas index value), fun hbad => ?_, fun hle => ?_, fun h255 => ⟨?_, ?_⟩, fun hle => ⟨?_, ?_⟩⟩
  · exact storeByte_outOfRange (keyIndexOk_of_bad hbad)
  · exact storeByte_inRange (b := .key) (keyIndexOk_iff.mpr (Nat.lt_succ_of_le hle))
  · exact storeByte_outOfRange (coefIndexOk_eq_false h255)
  · exact storeByte_outOfRange (basisIndexOk_eq_false h255)
  · exact storeByte_inRange (b := .coef) (coefIndexOk_iff.mpr (Nat.lt_succ_of_le hle))
  · exact storeByte_inRange (b := .basis) (basisIndexOk_iff.mpr (Nat.lt_succ_of_le hle))

/-- Settles O58: both commands are the load of one byte, checked on slot and offset. -/
theorem bankReadResult : Obligations.BankReadResult := by
  refine fun slot offset s => ⟨decode_encode (.rds1 slot offset), decode_encode (.rds2 slot offset),
    fun hbad => ?_, fun hslot hoffset => ?_⟩
  · have hc := bankIndexOk_eq_false hbad
    exact ⟨loadByte_outOfRange hc, loadByte_outOfRange hc⟩
  · have hc := bankIndexOk_iff.mpr ⟨hslot, hoffset⟩
    exact ⟨loadByte_unwritten hc, loadByte_unwritten hc, fun _ => loadByte_written hc, fun _ => loadByte_written hc⟩

/-- Settles O59: the three commands are the load of one byte, each checked on its own buffer's range. -/
theorem bufferReadResult : Obligations.BufferReadResult := by
  refine fun index s => ⟨decode_encode (.rdkey index), decode_encode (.rdcoef index), decode_encode (.rdbas index),
    fun hbad => ?_, fun hle => ?_, fun h255 => ?_, fun hle => ?_⟩
  · exact loadByte_outOfRange (keyIndexOk_of_bad hbad)
  · have hc := keyIndexOk_iff.mpr (Nat.lt_succ_of_le hle)
    exact ⟨loadByte_unwritten hc, fun _ => loadByte_written hc⟩
  · exact ⟨loadByte_outOfRange (coefIndexOk_eq_false h255), loadByte_outOfRange (basisIndexOk_eq_false h255)⟩
  · have hcoef := coefIndexOk_iff.mpr (Nat.lt_succ_of_le hle)
    have hbasis := basisIndexOk_iff.mpr (Nat.lt_succ_of_le hle)
    exact ⟨loadByte_unwritten hcoef, loadByte_unwritten hbasis, fun _ => loadByte_written hcoef,
      fun _ => loadByte_written hbasis⟩

/-! ## A record -/

/-- Commands that each do one turn of a loop do the loop, faults included. -/
theorem execAll_map_eq_forEach {cmd : Nat → Instr} {f : Nat → State → Except Fault State} {l : List Nat}
    (h : ∀ i ∈ l, ∀ s, exec (cmd i) s = finish (f i s)) (s : State) : execAll (l.map cmd) s = finish (forEach f l s) := by
  induction l generalizing s with
  | nil => rfl
  | cons i is ih =>
    rw [List.map_cons, execAll, forEach, h i (by simp)]
    cases f i s with
    | error e => rfl
    | ok t => exact ih (fun j hj => h j (by simp [hj])) t

theorem exec_wrs1 {slot offset : Byte} (hslot : slot.toNat ≤ 254) (hoffset : offset.toNat ≤ 32) (value : Byte) (s : State) :
    exec (.wrs1 slot offset value) s = .next (s.write .s1 (bankAddr slot.toNat offset.toNat) value) :=
  storeByte_next.mpr ⟨bankIndexOk_iff.mpr ⟨hslot, hoffset⟩, rfl⟩

/-- Byte `o` of a record stored at its offset of a slot of `S1`, as a turn of a loop over the offsets. -/
def recordTurn (slot : Nat) (bytes : Nat → Byte) (o : Nat) (s : State) : Except Fault State :=
  .ok (s.write .s1 (bankAddr slot o) (bytes o))

theorem exec_wrs1_eq_recordTurn {slot : Byte} {o : Nat} (hslot : slot.toNat ≤ 254) (ho : o < 33) (bytes : Nat → Byte) (s : State) :
    exec (.wrs1 slot (BitVec.ofNat 8 o) (bytes o)) s = finish (recordTurn slot.toNat bytes o s) := by
  have hoffset : (BitVec.ofNat 8 o).toNat = o := Nat.mod_eq_of_lt (by omega)
  rw [exec_wrs1 hslot (by omega), hoffset, recordTurn, finish]

/-- Settles O60: the offsets of a slot are distinct places, so no store of the record overwrites another, whatever their order. -/
theorem recordWrittenInAnyOrder : Obligations.RecordWrittenInAnyOrder := by
  intro slot bytes os s hslot hperm
  have hmem {o : Nat} : o ∈ os ↔ o < 33 := hperm.mem_iff.trans List.mem_range
  have hexec := execAll_map_eq_forEach (fun o ho => exec_wrs1_eq_recordTurn hslot (hmem.mp ho) bytes) s
  obtain ⟨t, ht, ⟨m, rfl⟩, hrecord, hother⟩ : ∃ t, forEach (recordTurn slot.toNat bytes) os s = .ok t ∧ _ :=
    forEach_writes (hperm.nodup_iff.mpr List.nodup_range)
      (fun o ho r hr h => ((bankAddr_inj (hmem.mp ho) (hmem.mp hr)).mp h).2) (fun _ _ _ _ _ => rfl)
  refine ⟨_, hexec.trans (finish_next.mpr ht), fun o ho => hrecord o (hmem.mpr ho), fun j o hj ho => ?_, by rw [State.setMem]⟩
  exact hother _ fun r hr h => hj ((bankAddr_inj ho (hmem.mp hr)).mp h).1

end Sys2Proof.Proofs
end

section
/-! PROOFS. The laws of the field and of evaluation (O23, O26, O27, O28, O34, O35). Bytes are residues modulo POLY, which are a field, so
each law of `gf_mul` is one of that field; the laws of Horner's method follow by induction on the coefficients from `horner_cons`. -/

namespace Sys2Proof.Proofs

open Machine Claims

/-- Settles O23: the laws of XOR. -/
theorem fieldAdditionLaws : Obligations.FieldAdditionLaws :=
  fun a b c => ⟨rfl, BitVec.xor_comm a b, BitVec.xor_assoc a b c, BitVec.xor_zero, BitVec.xor_self⟩

/-- Settles O26: the laws of `gf_mul`, which are those of the residues modulo POLY. -/
theorem fieldMultiplicationLaws : Obligations.FieldMultiplicationLaws :=
  fun p a b c => ⟨gfMul_comm p a b, gfMul_assoc p a b c, gfMul_one p a, gfMul_zero p a⟩

section
variable (p : Poly)

theorem gfMul_gfAdd (a b c : Byte) : gfMul p a (gfAdd b c) = gfAdd (gfMul p a b) (gfMul p a c) :=
  residue_injective p (by simp only [gfAdd, residue_gfMul, residue_xor, mul_add])

theorem gfAdd_gfMul (a b c : Byte) : gfMul p (gfAdd a b) c = gfAdd (gfMul p a c) (gfMul p b c) := by
  rw [gfMul_comm, gfMul_gfAdd, gfMul_comm p c a, gfMul_comm p c b]

end

theorem gfAdd_gfAdd_gfAdd_comm (a b c d : Byte) : gfAdd (gfAdd a b) (gfAdd c d) = gfAdd (gfAdd a c) (gfAdd b d) := by
  simp only [gfAdd]
  ac_rfl

/-- Settles O27: the residues modulo POLY are a ring. -/
theorem fieldDistributes : Obligations.FieldDistributes := gfMul_gfAdd

/-! ## Powers -/

section
variable {p : Poly} {a : Byte}

theorem gfPow254_eq_gfPow : gfPow254 p a = gfPow p a 254 :=
  residue_injective p (by rw [residue_gfPow254, residue_gfPow])

theorem gfPow_255 (ha : a ≠ 0) : gfPow p a 255 = 1 :=
  residue_injective p (((residue_gfPow p a 255).trans (residue_pow_255 p ha)).trans (residue_one p).symm)

end

/-- Settles O28: `gf_inv a` is the one byte whose product with `a` is 1, and the chain of R102 computes it as `a^254`. -/
theorem fieldInverses : Obligations.FieldInverses := by
  refine fun p => ⟨fun a b h => ?_, fun a ha => ?_, gfInv_eq_some_iff.mpr (gfMul_one p 1), gfInv_zero⟩
  · by_contra! hne
    exact gfMul_ne_zero hne.1 hne.2 h
  · have hinv := gfInv_of_ne_zero (p := p) ha
    have hmul := gfMul_gfPow254 p ha
    refine ⟨gfPow254 p a, hinv, hmul, fun d hd => ?_, ?_, gfPow254_eq_gfPow, gfPow_255 ha⟩
    · exact Option.some_injective _ ((gfInv_eq_some_iff.mpr hd).symm.trans hinv)
    · rw [gfInv_eq_some_iff, gfMul_comm, hmul]

/-! ## Horner's method -/

section
variable (p : Poly)

theorem horner_at_zero (c : Byte) (cs : List Byte) : horner p 0 (c :: cs) = c := by
  rw [horner_cons, gfMul_zero]
  exact BitVec.zero_xor

theorem horner_at_one (cs : List Byte) : horner p 1 cs = xorSum cs := by
  induction cs with
  | nil => rfl
  | cons c cs ih =>
    rw [horner_cons, gfMul_one, ih, gfAdd, BitVec.xor_comm]
    rfl

theorem horner_zipWith_gfAdd (x : Byte) {c d : List Byte} (h : c.length = d.length) :
    horner p x (List.zipWith gfAdd c d) = gfAdd (horner p x c) (horner p x d) := by
  induction c generalizing d with
  | nil =>
    obtain rfl : d = [] := List.length_eq_zero_iff.mp h.symm
    exact BitVec.xor_self.symm
  | cons a c ih =>
    obtain _ | ⟨b, d⟩ := d
    · cases h
    rw [List.zipWith_cons_cons, horner_cons, horner_cons, horner_cons, ih (Nat.succ.inj h), gfAdd_gfMul, gfAdd_gfAdd_gfAdd_comm]

theorem horner_replicate_zero (x : Byte) (n : Nat) : horner p x (List.replicate n 0) = 0 := by
  induction n with
  | zero => rfl
  | succ n ih =>
    rw [List.replicate_succ, horner_cons, ih, zero_gfMul]
    exact BitVec.xor_self

theorem horner_append_zeros (x : Byte) (c : List Byte) (n : Nat) : horner p x (c ++ List.replicate n 0) = horner p x c := by
  induction c with
  | nil => exact horner_replicate_zero p x n
  | cons a c ih => rw [List.cons_append, horner_cons, horner_cons, ih]

end

/-- Settles O34: Horner's method and the sum obey one recursion. -/
theorem hornerIsTheSum : Obligations.HornerIsTheSum :=
  fun p x c cs => ⟨horner_eq_polySum p x (c :: cs), horner_at_zero p c cs, rfl, horner_at_one p (c :: cs)⟩

/-- Settles O35, by induction on the coefficients. -/
theorem evaluationIsLinear : Obligations.EvaluationIsLinear :=
  ⟨fun p x _ _ => horner_zipWith_gfAdd p x, horner_append_zeros⟩

end Sys2Proof.Proofs
end

section
/-! PROOFS. Interpolation at 0 (O41, O42). Modulo POLY, a list of coefficients is a polynomial over a field, and the basis values of R142
are the values at 0 of Mathlib's Lagrange basis: interpolating there is Lagrange's theorem. -/

namespace Sys2Proof.Proofs

open Machine Claims

/-! ## Lagrange interpolation at 0 -/

section
variable {F : Type} [Field F] {k : Nat} {v l : Nat → F}

/-- A weight given by its product with the divisors is the value at 0 of the Lagrange basis. -/
theorem eval_zero_lagrangeBasis {i : Nat} (hv : Set.InjOn v (Finset.range k)) (hi : i < k)
    (hl : (∏ j ∈ (Finset.range k).erase i, (v j - v i)) * l i = ∏ j ∈ (Finset.range k).erase i, v j) :
    (Lagrange.basis (Finset.range k) v i).eval 0 = l i := by
  have hne : ∏ j ∈ (Finset.range k).erase i, (v j - v i) ≠ 0 := by
    refine Finset.prod_ne_zero_iff.mpr fun j hj => sub_ne_zero.mpr fun h => ?_
    obtain ⟨hji, hj⟩ := Finset.mem_erase.mp hj
    exact hji (hv hj (Finset.mem_range.mpr hi) h)
  refine mul_left_cancel₀ hne ?_
  rw [hl, Lagrange.basis, Polynomial.eval_prod, ← Finset.prod_mul_distrib]
  refine Finset.prod_congr rfl fun j hj => ?_
  have hji : v j - v i ≠ 0 := Finset.prod_ne_zero_iff.mp hne j hj
  have hij : v i - v j ≠ 0 := sub_ne_zero.mpr (sub_ne_zero.mp hji).symm
  rw [Lagrange.basisDivisor, Polynomial.eval_mul, Polynomial.eval_C, Polynomial.eval_sub, Polynomial.eval_X, Polynomial.eval_C]
  field_simp
  ring

theorem sum_eval_mul_weights {f : Polynomial F} (hv : Set.InjOn v (Finset.range k)) (hf : f.degree < k)
    (hl : ∀ i < k, (∏ j ∈ (Finset.range k).erase i, (v j - v i)) * l i = ∏ j ∈ (Finset.range k).erase i, v j) :
    ∑ i ∈ Finset.range k, f.eval (v i) * l i = f.eval 0 := by
  have hinterp := Lagrange.eq_interpolate hv (by rwa [Finset.card_range])
  conv_rhs => rw [hinterp, Lagrange.interpolate_apply, Polynomial.eval_finsetSum]
  refine Finset.sum_congr rfl fun i hi => ?_
  have hik := Finset.mem_range.mp hi
  rw [Polynomial.eval_mul, Polynomial.eval_C, eval_zero_lagrangeBasis hv hik (hl i hik)]

end

/-! ## Sums, products and coefficients, modulo POLY -/

section
variable (p : Poly)

/-- In characteristic 2 the sum is the difference. -/
theorem residue_xor_eq_sub {w : Nat} (a b : BitVec w) : residue p (a ^^^ b) = residue p a - residue p b := by
  rw [eq_sub_iff_add_eq, ← residue_xor, BitVec.xor_assoc, BitVec.xor_self, BitVec.xor_zero]

theorem residue_xorSum_map_range (k : Nat) (f : Nat → Byte) :
    residue p (xorSum ((List.range k).map f)) = ∑ i ∈ Finset.range k, residue p (f i) := by
  rw [residue_xorSum, List.map_map]
  rfl

theorem residue_foldr_gfMul (f : Nat → Byte) (js : List Nat) :
    residue p (js.foldr (fun j acc => gfMul p (f j) acc) 1) = (js.map fun j => residue p (f j)).prod := by
  induction js with
  | nil => exact residue_one p
  | cons j js ih => rw [List.foldr_cons, residue_gfMul, ih, List.map_cons, List.prod_cons]

theorem residue_prodExcept (k i : Nat) (f : Nat → Byte) :
    residue p (prodExcept p k i f) = ∏ j ∈ (Finset.range k).erase i, residue p (f j) := by
  rw [prodExcept, residue_foldr_gfMul, ← Finset.filter_ne']
  rfl

/-- The polynomial with the given coefficients, modulo POLY. -/
noncomputable def coefPoly (c : List Byte) : Polynomial (AdjoinRoot (modulus p)) :=
  ∑ i : Fin c.length, Polynomial.C (residue p (c.getD i 0)) * Polynomial.X ^ (i : Nat)

theorem degree_coefPoly_lt (c : List Byte) : (coefPoly p c).degree < c.length :=
  Polynomial.degree_sum_fin_lt fun i : Fin c.length => residue p (c.getD i 0)

/-- Horner's method evaluates that polynomial. -/
theorem eval_coefPoly (c : List Byte) (x : Byte) : (coefPoly p c).eval (residue p x) = residue p (horner p x c) := by
  rw [horner_eq_polySum, residue_polySum, coefPoly, Polynomial.eval_finsetSum]
  simp only [Polynomial.eval_mul, Polynomial.eval_C, Polynomial.eval_pow, Polynomial.eval_X]
  exact Fin.sum_univ_eq_sum_range (fun i => residue p (c.getD i 0) * residue p x ^ i) c.length

end

/-! ## The basis values of legal identifiers -/

section
variable {p : Poly} {k i : Nat} {x l : Nat → Byte}

/-- The quotient of R142 by its product with the divisors, of which none is 0. -/
theorem isBasisValue_iff {b : Byte} (hx : LegalIds k x) (hi : i < k) :
    IsBasisValue p k x i b ↔ gfMul p (prodExcept p k i fun j => x j ^^^ x i) b = prodExcept p k i x := by
  obtain ⟨-, hdistinct⟩ := hx
  refine gfDiv_eq_some_iff ?_
  rw [prodExcept_eq_prodOthers]
  exact prodOthers_ne_zero fun j hj hji h =>
    hdistinct j (List.mem_range.mp hj) i hi hji (BitVec.xor_eq_zero_iff.mp h)

theorem isBasisValue_ne_zero {b : Byte} (hx : LegalIds k x) (hi : i < k) (hb : IsBasisValue p k x i b) : b ≠ 0 := by
  have hmul := (isBasisValue_iff hx hi).mp hb
  obtain ⟨hzero, -⟩ := hx
  rintro rfl
  rw [gfMul_zero, prodExcept_eq_prodOthers] at hmul
  exact prodOthers_ne_zero (fun j hj _ => hzero j (List.mem_range.mp hj)) hmul.symm

/-- Interpolating at 0 the values of a polynomial with at most `k` coefficients at `k` legal identifiers gives its constant term. -/
theorem xorSum_horner_mul_basis (hx : LegalIds k x) (hl : ∀ i < k, IsBasisValue p k x i (l i)) {c : List Byte} (hc : c.length ≤ k) :
    xorSum ((List.range k).map fun i => gfMul p (horner p (x i) c) (l i)) = horner p 0 c := by
  have : Fact (Irreducible (modulus p)) := ⟨irreducible_modulus p⟩
  have hinj : Set.InjOn (fun i => residue p (x i)) (Finset.range k) := by
    obtain ⟨-, hdistinct⟩ := hx
    intro i hi j hj hij
    by_contra hne
    exact hdistinct i (by simpa using hi) j (by simpa using hj) hne (residue_injective p hij)
  have hweight : ∀ i < k, (∏ j ∈ (Finset.range k).erase i, (residue p (x j) - residue p (x i))) * residue p (l i) =
      ∏ j ∈ (Finset.range k).erase i, residue p (x j) := by
    intro i hi
    have hmul := congrArg (residue p) ((isBasisValue_iff hx hi).mp (hl i hi))
    simpa only [residue_gfMul, residue_prodExcept, residue_xor_eq_sub] using hmul
  have hdegree : (coefPoly p c).degree < k := (degree_coefPoly_lt p c).trans_le (by exact_mod_cast hc)
  refine residue_injective p ?_
  calc residue p (xorSum ((List.range k).map fun i => gfMul p (horner p (x i) c) (l i)))
      = ∑ i ∈ Finset.range k, (coefPoly p c).eval (residue p (x i)) * residue p (l i) := by
        simp only [residue_xorSum_map_range, residue_gfMul, eval_coefPoly]
    _ = (coefPoly p c).eval 0 := sum_eval_mul_weights hinj hdegree hweight
    _ = residue p (horner p 0 c) := by rw [← eval_coefPoly, ← residue_zero p (w := 8)]; rfl

end

/-! ## The two theorems -/

theorem map_range_getD (xs : List Byte) : (List.range xs.length).map (xs.getD · 0) = xs := by
  refine List.ext_getElem (by simp) fun i _ hi => ?_
  simp [hi]

/-- The basis values of a list of legal identifiers, numbered by place. -/
theorem basis0_of_idsOk (p : Poly) {xs : List Byte} (h : idsOk xs = true) : LegalIds xs.length (xs.getD · 0) ∧
    ∃ l, basis0 p xs = some ((List.range xs.length).map l) ∧ ∀ i < xs.length, IsBasisValue p xs.length (xs.getD · 0) i (l i) := by
  rw [← map_range_getD xs, idsOk_iff_legalIds] at h
  obtain ⟨l, hl, hbasis⟩ := basis0_of_legalIds p h
  rw [map_range_getD] at hl
  exact ⟨h, l, hl, hbasis⟩

/-- Settles O42: the values and the basis values are those that `xorSum_horner_mul_basis` sums. -/
theorem interpolationTheorem : Obligations.InterpolationTheorem := by
  intro p xs c0 cs hids hlen
  obtain ⟨hx, l, hl, hbasis⟩ := basis0_of_idsOk p hids
  refine ⟨_, hl, ?_⟩
  conv_lhs => rw [← map_range_getD xs, List.map_map]
  rw [List.length_map, List.length_range]
  exact (interp0_map_range p _ _ l).trans ((xorSum_horner_mul_basis hx hbasis hlen).trans (horner_at_zero p c0 cs))

/-- Settles O41: the basis values are the weighted values of the constant polynomial 1. -/
theorem basisXorsToOne : Obligations.BasisXorsToOne := by
  intro p xs hne hids
  obtain ⟨hx, l, hl, hbasis⟩ := basis0_of_idsOk p hids
  refine ⟨_, hl, ?_, ?_⟩
  · have hone := xorSum_horner_mul_basis hx hbasis (c := [1]) (List.length_pos_iff.mpr hne)
    simpa only [horner, one_gfMul] using hone
  · simp only [List.mem_map, List.mem_range]
    rintro _ ⟨i, hi, rfl⟩
    exact isBasisValue_ne_zero hx hi (hbasis i hi)

end Sys2Proof.Proofs
end

section
/-! PROOFS. What the commands do together (O47, O48, O49, O51, O55). `SPLIT` leaves a sharing, `SADDN` adds two sharings to a sharing, and
`COMBINE` on different slots of a sharing interpolates: the round trip and the homomorphism are put together from these. -/

namespace Sys2Proof.Proofs

open Machine Claims

/-! ## Sharings -/

/-- Slots 0..n-1 of bank `d` of `t` are shares: `x` is the slot's number plus 1, and the y-value at byte position `b` is that of the
polynomial with coefficients `c b`. -/
structure IsSharing (p : Poly) (t : State) (d : Buf) (n : Nat) (c : Nat → List Byte) : Prop where
  ids : ∀ slot < n, t.read d (bankAddr slot 0) = some (BitVec.ofNat 8 (slot + 1))
  ys : ∀ b < 32, ∀ slot < n, t.read d (bankAddr slot (1 + b)) = some (horner p (BitVec.ofNat 8 (slot + 1)) (c b))

section
variable {bank : Bank} {n k : Byte} {s t : State}

theorem exists_keyIs_of_split (h : exec (.split bank n k) s = .next t) : ∃ key, KeyIs s key := by
  obtain ⟨-, hsplit⟩ := exec_split_next.mp h
  obtain ⟨hkey, -⟩ := splitInto_ok (bankBuf_ne_key bank) hsplit
  choose! key hkey using hkey
  exact ⟨key, hkey⟩

/-- `SPLIT` leaves a sharing of the key, with `k` coefficients at each byte position. -/
theorem split_isSharing (h : exec (.split bank n k) s = .next t) {key : Nat → Byte} (hkey : KeyIs s key) :
    ∃ c, IsSharing s.poly t (bankBuf bank) n.toNat c ∧ ∀ b < 32, (c b).length = k.toNat ∧ (c b).head? = some (key b) := by
  obtain ⟨⟨x, hx, -⟩, hc⟩ := splitOutputIsASharing bank n k s t h
  choose! c hlen hhead hy using hc
  refine ⟨c, ⟨fun slot hslot => ?_, hy⟩, fun b hb => ⟨hlen b hb, (hhead b hb).trans (hkey b hb)⟩⟩
  obtain ⟨hid, hsucc⟩ := hx slot hslot
  rw [hid, BitVec.eq_of_toNat_eq (hsucc.trans (toNat_ofNat_succ hslot).symm)]

end

/-! ## Combining shares -/

/-- Different ones of legal identifiers are legal identifiers. -/
theorem legalIds_comp {n m : Nat} {x : Nat → Byte} {f : Nat → Nat} (hx : LegalIds n x) (hf : ∀ i < m, f i < n)
    (hinj : ∀ i < m, ∀ j < m, f i = f j → i = j) : LegalIds m fun i => x (f i) := by
  obtain ⟨hzero, hdistinct⟩ := hx
  exact ⟨fun i hi => hzero _ (hf i hi), fun i hi j hj hij =>
    hdistinct _ (hf i hi) _ (hf j hj) fun h => hij (hinj i hi j hj h)⟩

/-- R145 on shares with legal identifiers. -/
theorem exec_combine_of_legalIds {k : Byte} {u : State} {x : Nat → Byte} {y : Nat → Nat → Byte} (hk : k ≠ 0)
    (hids : IdsAre u k.toNat x) (hlegal : LegalIds k.toNat x) (hys : YsAre u k.toNat y) :
    ∃ (v : State) (l : Nat → Byte), exec (.combine k) u = .next v ∧ (∀ i < k.toNat, v.read .basis i = some (l i)) ∧
      (∀ i < k.toNat, IsBasisValue u.poly k.toNat x i (l i)) ∧
      ∀ b < 32, v.read .key b = some (xorSum ((List.range k.toNat).map fun i => gfMul u.poly (y i b) (l i))) := by
  obtain ⟨-, -, -, hcombine⟩ := combineResult k u
  obtain ⟨-, -, hcombine⟩ := hcombine x hk hids
  obtain ⟨v, l, hv, -, hbasis, -, hkey, -⟩ := hcombine y hlegal hys
  exact ⟨v, l, hv, fun i hi => (hbasis i hi).1, fun i hi => (hbasis i hi).2, hkey⟩

/-- Combining shares that are presented from different slots of a sharing completes; where the polynomial has no more coefficients
than there are shares, the key byte is its constant term. -/
theorem exec_combine_of_presents {t u : State} {d : Buf} {n m : Byte} {c : Nat → List Byte} {T : List Nat}
    (hshare : IsSharing u.poly t d n.toNat c) (hne : T ≠ []) (hnodup : T.Nodup) (hT : ∀ slot ∈ T, slot < n.toNat)
    (hm : m.toNat = T.length) (hpres : Presents u t d T) :
    ∃ v, exec (.combine m) u = .next v ∧ (∀ b < 32, v.read .key b ≠ none) ∧
      ∀ b < 32, ∀ c0, (c b).head? = some c0 → (c b).length ≤ T.length → v.read .key b = some c0 := by
  have hm0 : m ≠ 0 := by
    rintro rfl
    exact hne (List.length_eq_zero_iff.mp hm.symm)
  have hslot {j : Nat} (hj : j < T.length) : T.getD j 0 = T[j] := List.getD_eq_getElem T 0 hj
  have hlt {j : Nat} (hj : j < T.length) : T.getD j 0 < n.toNat := hslot hj ▸ hT _ (List.getElem_mem hj)
  have hids : IdsAre u T.length fun j => BitVec.ofNat 8 (T.getD j 0 + 1) := fun j hj => by
    rw [hpres j hj 0 (by decide), ← hslot hj, hshare.ids _ (hlt hj)]
  have hys : YsAre u T.length fun j b => horner u.poly (BitVec.ofNat 8 (T.getD j 0 + 1)) (c b) := fun j hj b hb => by
    rw [hpres j hj (1 + b) (by omega), ← hslot hj, hshare.ys b hb _ (hlt hj)]
  have hlegal : LegalIds T.length fun j => BitVec.ofNat 8 (T.getD j 0 + 1) := by
    refine legalIds_comp (f := fun j => T.getD j 0) (legalIds_succ n) (fun j hj => hlt hj) fun i hi j hj hij => ?_
    rw [hslot hi, hslot hj] at hij
    exact (hnodup.getElem_inj_iff).mp hij
  rw [← hm] at hids hys hlegal
  obtain ⟨v, l, hv, -, hvalue, hkey⟩ := exec_combine_of_legalIds hm0 hids hlegal hys
  refine ⟨v, hv, fun b hb => by simp [hkey b hb], fun b hb c0 hc0 hlen => ?_⟩
  obtain ⟨cs, hcs⟩ := List.head?_eq_some_iff.mp hc0
  rw [hkey b hb, xorSum_horner_mul_basis hlegal hvalue (hm ▸ hlen), hcs, horner_at_zero]

/-- Settles O47: `SPLIT` leaves a sharing whose polynomials have `k` coefficients each. -/
theorem sharesRecoverTheKey : Obligations.SharesRecoverTheKey := by
  intro bank n k m s t u T hsplit hne hnodup hT hm hpoly hpres
  obtain ⟨key, hkey⟩ := exists_keyIs_of_split hsplit
  obtain ⟨c, hshare, hc⟩ := split_isSharing hsplit hkey
  rw [← hpoly] at hshare
  obtain ⟨v, hv, hwritten, hrecovered⟩ := exec_combine_of_presents hshare hne hnodup hT hm hpres
  refine ⟨v, hv, hwritten, fun hk b hb => ?_⟩
  obtain ⟨hlen, hhead⟩ := hc b hb
  rw [hrecovered b hb _ hhead (hlen ▸ hk), hkey b hb]

/-! ## The order of the shares -/

/-- What a completed `COMBINE` has read. -/
theorem exec_combine_next {k : Byte} {s t : State} (h : exec (.combine k) s = .next t) :
    k ≠ 0 ∧ ∃ x y, IdsAre s k.toNat x ∧ LegalIds k.toNat x ∧ YsAre s k.toNat y := by
  obtain ⟨-, hcount, hunwritten, hids⟩ := combineResult k s
  have not_fault {f : Fault} (hf : exec (.combine k) s = .fault f) : False := by
    cases hf.symm.trans h
  have hk : k ≠ 0 := fun hk => not_fault (hcount hk)
  have hx : ∀ i < k.toNat, ∃ v, s.read .s1 (bankAddr i 0) = some v := fun i hi =>
    Option.ne_none_iff_exists'.mp fun hnone => not_fault (hunwritten hk ⟨i, hi, hnone⟩)
  choose! x hx using hx
  obtain ⟨hbad, hmissing, -⟩ := hids x hk hx
  have hlegal : LegalIds k.toNat x := by
    by_contra hx
    exact not_fault (hbad hx)
  have hy : ∀ i < k.toNat, ∀ b < 32, ∃ v, s.read .s1 (bankAddr i (1 + b)) = some v := fun i hi b hb =>
    Option.ne_none_iff_exists'.mp fun hnone => not_fault (hmissing hlegal ⟨i, hi, b, hb, hnone⟩)
  choose! y hy using hy
  exact ⟨hk, x, y, hx, hlegal, hy⟩

theorem bijOn_range {k : Nat} {f : Nat → Nat} (hmaps : ∀ i < k, f i < k) (hinj : ∀ i < k, ∀ j < k, f i = f j → i = j) :
    Set.BijOn f (Finset.range k) (Finset.range k) := by
  have hmapsTo : Set.MapsTo f (Finset.range k) (Finset.range k) := fun i hi => by simpa using hmaps i (by simpa using hi)
  have hinjOn : Set.InjOn f (Finset.range k) := fun i hi j hj => hinj i (by simpa using hi) j (by simpa using hj)
  exact ⟨hmapsTo, hinjOn, Finset.surjOn_of_injOn_of_card_le f hmapsTo hinjOn le_rfl⟩

section
variable {p : Poly} {k : Nat} {f : Nat → Nat} (hf : Set.BijOn f (Finset.range k) (Finset.range k))
include hf

theorem xorSum_permuted (g : Nat → Byte) : xorSum ((List.range k).map fun i => g (f i)) = xorSum ((List.range k).map g) := by
  refine residue_injective Config.defaultPoly ?_
  rw [residue_xorSum_map_range, residue_xorSum_map_range]
  exact Finset.sum_nbij f hf.mapsTo hf.injOn hf.surjOn fun _ _ => rfl

theorem prodExcept_permuted {i : Nat} (hi : i < k) (g : Nat → Byte) :
    prodExcept p k i (fun j => g (f j)) = prodExcept p k (f i) g := by
  have herase : Set.BijOn f ((Finset.range k).erase i) ((Finset.range k).erase (f i)) := by
    simpa only [Finset.coe_erase] using hf.sdiff_singleton (Finset.mem_coe.mpr (Finset.mem_range.mpr hi))
  refine residue_injective p ?_
  rw [residue_prodExcept, residue_prodExcept]
  exact Finset.prod_nbij f herase.mapsTo herase.injOn herase.surjOn fun _ _ => rfl

theorem isBasisValue_permuted {x : Nat → Byte} {i : Nat} {l : Byte} (hi : i < k) :
    IsBasisValue p k (fun j => x (f j)) i l ↔ IsBasisValue p k x (f i) l := by
  rw [IsBasisValue, IsBasisValue, prodExcept_permuted hf hi x, prodExcept_permuted hf hi fun j => x j ^^^ x (f i)]

end

/-- Settles O48: the quotients and sums are those of the same shares, permuted. -/
theorem combineIgnoresTheOrder : Obligations.CombineIgnoresTheOrder := by
  intro k s t u f ht hfk hinj hpoly hread
  have hf : Set.BijOn f (Finset.range k.toNat) (Finset.range k.toNat) := bijOn_range hfk hinj
  obtain ⟨hk, x, y, hids, hlegal, hys⟩ := exec_combine_next ht
  have hids' : IdsAre u k.toNat fun i => x (f i) := fun i hi => (hread i hi 0 (by decide)).trans (hids _ (hfk i hi))
  have hys' : YsAre u k.toNat fun i => y (f i) := fun i hi b hb =>
    (hread i hi (1 + b) (by omega)).trans (hys _ (hfk i hi) b hb)
  have hlegal' : LegalIds k.toNat fun i => x (f i) := legalIds_comp hlegal hfk hinj
  obtain ⟨t', l, ht', hbasis, hvalue, hkey⟩ := exec_combine_of_legalIds hk hids hlegal hys
  obtain rfl : t = t' := by simpa using ht.symm.trans ht'
  obtain ⟨v, l', hv, hbasis', hvalue', hkey'⟩ := exec_combine_of_legalIds hk hids' hlegal' hys'
  have hl : ∀ i < k.toNat, l' i = l (f i) := fun i hi => by
    have hpermuted := (isBasisValue_permuted hf hi).mp (hvalue' i hi)
    rw [hpoly] at hpermuted
    exact Option.some_injective _ (hpermuted.symm.trans (hvalue _ (hfk i hi)))
  refine ⟨v, hv, fun b hb => ?_, fun i hi => ?_⟩
  · rw [hkey b hb, hkey' b hb, hpoly, ← xorSum_permuted hf fun i => gfMul s.poly (y i b) (l i)]
    congr 2
    exact List.map_congr_left fun i hi => by rw [hl i (by simpa using hi)]
  · rw [hbasis' i hi, hbasis _ (hfk i hi), hl i hi]

/-! ## One share -/

/-- The basis value of a single share is the empty product. -/
theorem isBasisValue_single {p : Poly} {x : Nat → Byte} {l : Byte} : IsBasisValue p 1 x 0 l ↔ l = 1 := by
  rw [IsBasisValue, show prodExcept p 1 0 x = 1 from rfl, show prodExcept p 1 0 (fun j => x j ^^^ x 0) = 1 from rfl, gfDiv_one,
    Option.some_inj, eq_comm]

/-- Settles O49: with `k = 1` nothing is drawn and the polynomials are constant. -/
theorem oneShareIsTheKey : Obligations.OneShareIsTheKey := by
  intro bank s key hkey
  obtain ⟨-, -, -, hsplit⟩ := splitResult bank 1 1 s
  obtain ⟨t, ht, hframe, hid, hy, -⟩ := hsplit key [] s.rng le_rfl le_rfl hkey rfl
  replace hid := hid 0 (by decide)
  replace hy : ∀ b < 32, t.read (bankBuf bank) (bankAddr 0 (1 + b)) = some (key b) := fun b hb => by
    rw [hy 0 (by decide) b hb, ← horner_eq_polySum]
    rfl
  refine ⟨t, ht, by rw [hframe, State.setMem_rng], hid, hy, ?_⟩
  rintro rfl
  have hone {i : Nat} (hi : i < (1 : Byte).toNat) : i = 0 := Nat.lt_one_iff.mp hi
  have hids : IdsAre t (1 : Byte).toNat fun _ => 1 := fun i hi => by rwa [hone hi]
  have hys : YsAre t (1 : Byte).toNat fun _ => key := fun i hi b hb => by
    rw [hone hi]
    exact hy b hb
  have hlegal : LegalIds (1 : Byte).toNat fun _ => 1 :=
    ⟨fun _ _ => (by decide : (1 : Byte) ≠ 0), fun i hi j hj hij => absurd ((hone hi).trans (hone hj).symm) hij⟩
  obtain ⟨u, l, hu, hbasis, hvalue, hkey'⟩ := exec_combine_of_legalIds (by decide) hids hlegal hys
  have hl : l 0 = 1 := isBasisValue_single.mp (hvalue 0 (by decide))
  refine ⟨u, hu, by rw [hbasis 0 (by decide), hl], fun b hb => (hkey' b hb).trans ?_⟩
  show some (gfMul t.poly (key b) (l 0) ^^^ 0) = some (key b)
  rw [hl, gfMul_one]
  exact congrArg some BitVec.xor_zero

/-! ## Addition -/

/-- Settles O51: the one field that `SADD2` then writes is `STATUS`. -/
theorem mismatchIsRejected : Obligations.MismatchIsRejected := by
  intro p q x y s hp hq hx hy hne
  obtain ⟨-, -, hsadd2⟩ := sadd2Result p q s
  obtain ⟨-, hdiffers, -⟩ := hsadd2 (by bv_omega) (by bv_omega)
  have hexec : exec (.sadd2 p q) s = .next (s.setStatus 1) := hdiffers ⟨x, y, hx, hy, hne⟩
  exact ⟨_, hexec, rfl, rfl, fun _ _ => State.setStatus_read .., rfl, rfl⟩

theorem IsSharing.congr {p : Poly} {t u : State} {d : Buf} {n : Nat} {c : Nat → List Byte} (h : IsSharing p t d n c)
    (hread : ∀ slot < n, ∀ o < 33, u.read d (bankAddr slot o) = t.read d (bankAddr slot o)) : IsSharing p u d n c where
  ids slot hslot := (hread slot hslot 0 (by decide)).trans (h.ids slot hslot)
  ys b hb slot hslot := (hread slot hslot (1 + b) (by omega)).trans (h.ys b hb slot hslot)

section
variable {n : Byte} {u : State} {c d : Nat → List Byte}

/-- Shares in the same slot of two sharings match. -/
theorem IsSharing.pairMatches {p : Poly} {n : Nat} (h1 : IsSharing p u .s1 n c) (h2 : IsSharing p u .s2 n d) {i : Nat} (hi : i < n) :
    PairMatches u i i := by
  refine ⟨⟨_, h1.ids i hi, h2.ids i hi⟩, fun o ho ho32 => ?_⟩
  obtain ⟨b, rfl⟩ := Nat.exists_eq_add_of_le ho
  exact ⟨⟨_, h1.ys b (by omega) i hi⟩, _, h2.ys b (by omega) i hi⟩

/-- `SADDN` adds two sharings to a sharing, byte position by byte position. -/
theorem saddn_isSharing (hn : n ≠ 0) (h1 : IsSharing u.poly u .s1 n.toNat c) (h2 : IsSharing u.poly u .s2 n.toNat d)
    (hlen : ∀ b < 32, (c b).length = (d b).length) :
    ∃ v, exec (.saddn n) u = .next v ∧ v.status = 0 ∧
      IsSharing u.poly v .s1 n.toNat fun b => List.zipWith gfAdd (c b) (d b) := by
  obtain ⟨-, -, -, hsaddn⟩ := saddnResult n u
  obtain ⟨v, hv, hframe, hadded, hother⟩ :=
    hsaddn n.toNat le_rfl hn (fun _ hi => h1.pairMatches h2 hi) fun h => absurd h (lt_irrefl _)
  refine ⟨v, hv, by rw [hframe, if_pos rfl], fun slot hslot => ?_, fun b hb slot hslot => ?_⟩
  · rw [hother _ fun i _ => by simp [isYByte_bankAddr_iff], h1.ids slot hslot]
  · rw [hadded slot hslot (1 + b) (by omega) (by omega) _ _ (h1.ys b hb slot hslot) (h2.ys b hb slot hslot),
      horner_zipWith_gfAdd _ _ (hlen b hb), gfAdd]

end

/-- The constant term of the sum of two polynomials. -/
theorem head?_zipWith_gfAdd {c d : List Byte} {a b : Byte} (hc : c.head? = some a) (hd : d.head? = some b) :
    (List.zipWith gfAdd c d).head? = some (a ^^^ b) := by
  rw [List.head?_zipWith, hc, hd]
  rfl

/-- Settles O55: the sum of the two sharings is a sharing, of which `k` or more shares combine to its constant terms. -/
theorem additionIsHomomorphic : Obligations.AdditionIsHomomorphic := by
  intro n k s1 t1 s2 t2 u key1 key2 hsplit1 hsplit2 hkey1 hkey2 hpoly2 hpolyu hread1 hread2
  obtain ⟨⟨hk, hkn⟩, -⟩ := exec_split_next.mp hsplit1
  obtain ⟨c, hshare1, hc⟩ := split_isSharing hsplit1 hkey1
  obtain ⟨d, hshare2, hd⟩ := split_isSharing hsplit2 hkey2
  rw [← hpolyu] at hshare1
  rw [hpoly2, ← hpolyu] at hshare2
  have hlen : ∀ b < 32, (c b).length = (d b).length := fun b hb => (hc b hb).1.trans (hd b hb).1.symm
  have hn : n ≠ 0 := by
    rintro rfl
    exact absurd (hk.trans hkn) (by decide)
  obtain ⟨v, hv, hstatus, hshare⟩ := saddn_isSharing hn (hshare1.congr hread1) (hshare2.congr hread2) hlen
  have hcoefs : ∀ b < 32, (List.zipWith gfAdd (c b) (d b)).length = k.toNat := fun b hb => by
    rw [List.length_zipWith, hlen b hb, (hd b hb).1, min_self]
  have hsum : ∀ b < 32, (List.zipWith gfAdd (c b) (d b)).head? = some (key1 b ^^^ key2 b) := fun b hb =>
    head?_zipWith_gfAdd (hc b hb).2 (hd b hb).2
  refine ⟨v, hv, hstatus, fun b hb => ⟨_, hcoefs b hb, hsum b hb, hshare.ys b hb⟩, ?_⟩
  intro T m w hnodup hT hkT hm hpolyw hpres
  have hne : T ≠ [] := List.length_pos_iff.mp (hk.trans hkT)
  obtain ⟨z, hz, -, hrecovered⟩ := exec_combine_of_presents (hpolyw ▸ hshare) hne hnodup hT hm hpres
  exact ⟨z, hz, fun b hb => hrecovered b hb _ (hsum b hb) ((hcoefs b hb).trans_le hkT)⟩

end Sys2Proof.Proofs
end

section
/-! PROOFS. Faults and completion (O22, O20, O21, O13). With operands in range a command is made of operations that each succeed
exactly when the state has what they need, and else give a reason that lies in the state; `exec_nextIff` says so of every command. -/

namespace Sys2Proof.Proofs

open Machine Claims

/-! ## Operands in range -/

section
variable {c : Bool} {P : Prop} [Decidable P] {e : Fault}

/-- A check that holds whenever `P` does not. -/
theorem check_of_no_fault (hc : ¬ P → c = true) (h : (if P then some e else none) = none) : c = true :=
  hc fun hP => by simp [hP] at h

end

section
variable {n k p q slot offset index : Byte}

theorem toNat_lt_255 (h : p ≠ 255) : p.toNat < 255 := by bv_omega

theorem thresholdOk_of_not_bad (h : ¬ (n = 0 ∨ k = 0 ∨ n.toNat < k.toNat)) : thresholdOk n k = true := by
  obtain ⟨-, hk, hkn⟩ : n ≠ 0 ∧ k ≠ 0 ∧ k.toNat ≤ n.toNat := by simpa only [not_or, Nat.not_lt] using h
  exact thresholdOk_iff.mpr ⟨countOk_iff.mp (countOk_of_ne_zero hk), hkn⟩

theorem slotsOk_of_not_bad (h : ¬ (p = 255 ∨ q = 255)) : (slotOk p && slotOk q) = true := by
  obtain ⟨hp, hq⟩ := not_or.mp h
  exact Bool.and_eq_true_iff.mpr ⟨slotOk_iff.mpr (toNat_lt_255 hp), slotOk_iff.mpr (toNat_lt_255 hq)⟩

theorem bankIndexOk_of_not_bad (h : ¬ (slot = 255 ∨ 33 ≤ offset.toNat)) : (slotOk slot && offsetOk offset) = true := by
  obtain ⟨hslot, hoffset⟩ := not_or.mp h
  exact Bool.and_eq_true_iff.mpr ⟨slotOk_iff.mpr (toNat_lt_255 hslot), offsetOk_iff.mpr (Nat.not_le.mp hoffset)⟩

theorem keyIndexOk_of_not_bad (h : ¬ 32 ≤ index.toNat) : keyIndexOk index = true := keyIndexOk_iff.mpr (Nat.not_le.mp h)

theorem coefIndexOk_of_ne (h : index ≠ 255) : coefIndexOk index = true := coefIndexOk_iff.mpr (toNat_lt_255 h)

theorem basisIndexOk_of_ne (h : index ≠ 255) : basisIndexOk index = true := basisIndexOk_iff.mpr (toNat_lt_255 h)

end

/-- Operands that break no precondition are well-formed: the converse of `faults_of_operandFault`. -/
theorem wf_of_operandFault_none {i : Instr} (h : operandFault i = none) : i.wf = true := by
  cases i with
  | gfadd a b => rfl
  | gfmul a b => rfl
  | gfinv a => exact check_of_no_fault decide_eq_true h
  | gfdiv a b => exact check_of_no_fault decide_eq_true h
  | peval k x => exact check_of_no_fault countOk_of_ne_zero h
  | split bank n k => exact check_of_no_fault thresholdOk_of_not_bad h
  | lbasis k => exact check_of_no_fault countOk_of_ne_zero h
  | interp k => exact check_of_no_fault countOk_of_ne_zero h
  | combine k => exact check_of_no_fault countOk_of_ne_zero h
  | sadd2 p q => exact check_of_no_fault slotsOk_of_not_bad h
  | saddn n => exact check_of_no_fault countOk_of_ne_zero h
  | wrs1 slot offset value => exact check_of_no_fault bankIndexOk_of_not_bad h
  | wrs2 slot offset value => exact check_of_no_fault bankIndexOk_of_not_bad h
  | wrkey index value => exact check_of_no_fault keyIndexOk_of_not_bad h
  | wrcoef index value => exact check_of_no_fault coefIndexOk_of_ne h
  | wrbas index value => exact check_of_no_fault basisIndexOk_of_ne h
  | rds1 slot offset => exact check_of_no_fault bankIndexOk_of_not_bad h
  | rds2 slot offset => exact check_of_no_fault bankIndexOk_of_not_bad h
  | rdkey index => exact check_of_no_fault keyIndexOk_of_not_bad h
  | rdcoef index => exact check_of_no_fault coefIndexOk_of_ne h
  | rdbas index => exact check_of_no_fault basisIndexOk_of_ne h

/-- An ill-formed command faults in every state. -/
theorem exec_fault_of_not_wf {i : Instr} (h : i.wf = false) (s : State) : ∃ f, exec i s = .fault f := by
  cases hop : operandFault i with
  | none => exact absurd (wf_of_operandFault_none hop) (Bool.eq_false_iff.mp h)
  | some f => exact ⟨f, (faults_of_operandFault hop).2 s⟩

/-! ## Succeeding exactly when ready -/

/-- The reasons of R222 that no `require` line gives: they lie in the state, not in the operands. -/
def stateFaults : List Fault := [.unwrittenRead, .badIdentifiers, .rngFailure]

/-- An operation succeeds exactly when `ready`, and else faults for a reason in the state. -/
inductive OkIff {α : Type} (ready : Bool) (e : Except Fault α) : Prop where
  | ok (x : α) (hready : ready = true) (h : e = .ok x)
  | error (f : Fault) (hf : f ∈ stateFaults) (hready : ready = false) (h : e = .error f)

/-- A command completes exactly when `ready`, and else faults for a reason in the state. -/
inductive NextIff (ready : Bool) (o : Host.Outcome State Fault Refusal) : Prop where
  | next (t : State) (hready : ready = true) (h : o = .next t)
  | fault (f : Fault) (hf : f ∈ stateFaults) (hready : ready = false) (h : o = .fault f)

section
variable {ready : Bool}

theorem OkIff.intro {α : Type} {e : Except Fault α} (hok : (∃ x, e = .ok x) ↔ ready = true)
    (herror : ∀ f, e = .error f → f ∈ stateFaults) : OkIff ready e := by
  cases e with
  | ok x => exact .ok x (hok.mp ⟨x, rfl⟩) rfl
  | error f => exact .error f (herror f rfl) (by simpa using hok) rfl

theorem NextIff.require {c : Bool} {f : Fault} {o : Host.Outcome State Fault Refusal} (hc : c = true) (h : NextIff ready o) :
    NextIff (c && ready) (require c f o) := by
  subst hc
  exact h

/-- A command that ends after one operation. -/
theorem NextIff.of_okIff {α : Type} {e : Except Fault α} {o : Host.Outcome State Fault Refusal} (h : OkIff ready e)
    (hok : ∀ x, e = .ok x → ∃ t, o = .next t) (herror : ∀ f, e = .error f → o = .fault f) : NextIff ready o := by
  obtain ⟨x, hready, hx⟩ | ⟨f, hf, hready, he⟩ := h
  · obtain ⟨t, ht⟩ := hok x hx
    exact .next t hready ht
  · exact .fault f hf hready (herror f he)

theorem NextIff.finish {e : Except Fault State} (h : OkIff ready e) : NextIff ready (finish e) := by
  obtain ⟨t, hready, rfl⟩ | ⟨f, hf, hready, rfl⟩ := h
  · exact .next t hready rfl
  · exact .fault f hf hready rfl

theorem NextIff.finishAdd {e : Except Fault (Bool × State)} (h : OkIff ready e) : NextIff ready (finishAdd e) := by
  obtain ⟨⟨matched, t⟩, hready, rfl⟩ | ⟨f, hf, hready, rfl⟩ := h
  · exact .next _ hready rfl
  · exact .fault f hf hready rfl

end

/-! ## The reads and the share combiner -/

theorem unwrittenRead_mem_stateFaults {f : Fault} (h : f = .unwrittenRead) : f ∈ stateFaults := by
  subst h
  decide

section
variable (s : State) (k : Nat)

theorem bufRead_okIff (b : Buf) (a : Nat) : OkIff (written s b [a]) (s.bufRead b a) :=
  .intro (by simp [State.bufRead_ok, written_iff]) fun _ h => unwrittenRead_mem_stateFaults (State.bufRead_error.mp h).2

theorem readAll_okIff (b : Buf) (as : List Nat) : OkIff (written s b as) (s.readAll b as) :=
  .intro readAll_ok_iff_written fun _ h => unwrittenRead_mem_stateFaults (State.readAll_error.mp h).1

theorem idsReady_iff : idsReady s k = true ↔
    ∃ xs, s.readAll .s1 ((List.range k).map idAddr) = .ok xs ∧ idsOk xs = true := by
  rw [idsReady, slotsAt]
  cases s.readAll .s1 ((List.range k).map idAddr) <;> simp

/-- Identifiers that pass the check have basis values, so they are all that the synthesizer needs. -/
theorem synthesize_okIff : OkIff (idsReady s k) (synthesize k s) := by
  refine .intro ⟨?_, fun h => ?_⟩ fun f h => ?_
  · rintro ⟨ls, h⟩
    obtain ⟨xs, hxs, hids, -⟩ := synthesize_ok.mp h
    exact (idsReady_iff s k).mpr ⟨xs, hxs, hids⟩
  · obtain ⟨xs, hxs, hids⟩ := (idsReady_iff s k).mp h
    obtain ⟨-, l, hl, -⟩ := basis0_of_idsOk s.poly hids
    exact ⟨_, synthesize_ok.mpr ⟨xs, hxs, hids, hl⟩⟩
  · obtain rfl | rfl := synthesize_error h <;> decide

theorem sharesReady_iff : sharesReady s k = true ↔ ∀ slot < k, ∀ b < 32, ∃ v, s.read .s1 (yAddr slot b) = some v := by
  simp [sharesReady, written_iff, yAddrs, Config.keyBytes]

theorem sharesReady_writeFrom_basis (ls : List Byte) : sharesReady (s.writeFrom .basis 0 ls) k = sharesReady s k := by
  obtain ⟨m, hm⟩ := State.writeFrom_frame s .basis 0 ls
  rw [hm, Bool.eq_iff_iff, sharesReady_iff, sharesReady_iff]
  simp only [State.read_setMem_other s m _ (show Buf.s1 ≠ .basis by decide)]

theorem interpolate_okIff (ls : List Byte) : OkIff (sharesReady s k) (interpolate k ls s) := by
  refine .intro ?_ fun f h => unwrittenRead_mem_stateFaults (interpolate_error h)
  rw [sharesReady_iff]
  constructor
  · rintro ⟨t, h⟩ slot hslot b hb
    refine Option.ne_none_iff_exists'.mp fun hnone => ?_
    cases h.symm.trans (interpolate_unwritten ⟨slot, hslot, b, hb, hnone⟩)
  · intro hy
    choose! y hy using hy
    obtain ⟨t, ht, -⟩ := interpolate_spec (ls := ls) hy
    exact ⟨t, ht⟩

end

/-! ## The share generator -/

theorem splitInto_okIff {d : Buf} (hd : d ≠ .key) (n k : Nat) (s : State) :
    OkIff (written s .key (List.range Config.keyBytes) && s.rng.canSupply (Config.keyBytes * (k - 1))) (splitInto d n k s) := by
  have hkey : written s .key (List.range Config.keyBytes) = true ↔ ∀ b < 32, ∃ v, s.read .key b = some v := by
    simp [written_iff, Config.keyBytes]
  refine .intro ?_ fun f h => ?_
  · rw [Bool.and_eq_true, hkey]
    constructor
    · rintro ⟨t, h⟩
      obtain ⟨hwritten, ds, g, hdraw⟩ := splitInto_ok hd h
      obtain ⟨-, -, hcan⟩ := RngPort.draw_ok hdraw
      exact ⟨hwritten, hcan⟩
    · rintro ⟨hwritten, hcan⟩
      choose! key hwritten using hwritten
      obtain ⟨t, ht, -⟩ := splitInto_spec hd (n := n) hwritten (draw_eq hcan)
      exact ⟨t, ht⟩
  · obtain rfl | rfl := splitInto_error h <;> decide

/-! ## The homomorphic adder -/

section
variable {s : State} {p q : Nat}

theorem written_yAddrs {b : Buf} :
    written s b (yAddrs p) = true ↔ ∀ o, 1 ≤ o → o ≤ 32 → ∃ v, s.read b (bankAddr p o) = some v := by
  have hyAddrs : yAddrs p = yOffsets.map (bankAddr p) := by
    rw [yOffsets, List.map_map]
    rfl
  simp only [hyAddrs, written_iff, List.forall_mem_map, mem_yOffsets, and_imp]

theorem pair_trichotomy (s : State) (p q : Nat) : PairUnwritten s p q ∨ PairDiffers s p q ∨ PairMatches s p q := by
  cases hx : s.read .s1 (bankAddr p 0) with
  | none => exact .inl (.inl hx)
  | some x =>
    cases hy : s.read .s2 (bankAddr q 0) with
    | none => exact .inl (.inr (.inl hy))
    | some y =>
      by_cases hxy : x = y
      · subst hxy
        by_cases hnone : ∃ o, 1 ≤ o ∧ o ≤ 32 ∧ (s.read .s1 (bankAddr p o) = none ∨ s.read .s2 (bankAddr q o) = none)
        · exact .inl (.inr (.inr ⟨hx.trans hy.symm, hnone⟩))
        · refine .inr (.inr ⟨⟨x, hx, hy⟩, fun o h1 h32 => ?_⟩)
          constructor
          · exact Option.ne_none_iff_exists'.mp fun h => hnone ⟨o, h1, h32, .inl h⟩
          · exact Option.ne_none_iff_exists'.mp fun h => hnone ⟨o, h1, h32, .inr h⟩
      · exact .inr (.inl ⟨x, y, hx, hy, hxy⟩)

theorem pairReady_of_unwritten (h : PairUnwritten s p q) : pairReady s p q = false := by
  obtain hx | hy | ⟨hid, o, h1, h32, hnone⟩ := h
  · simp [pairReady, written, idAddr, hx]
  · simp [pairReady, written, idAddr, hy]
  · have hys : (written s .s1 (yAddrs p) && written s .s2 (yAddrs q)) = false := by
      rw [Bool.eq_false_iff, ne_eq, Bool.and_eq_true, written_yAddrs, written_yAddrs]
      rintro ⟨hwritten1, hwritten2⟩
      obtain ⟨v, hv⟩ := hwritten1 o h1 h32
      obtain ⟨w, hw⟩ := hwritten2 o h1 h32
      simp [hv, hw] at hnone
    simp [pairReady, hys, idAddr, hid]

theorem pairReady_of_differs (h : PairDiffers s p q) : pairReady s p q = true := by
  obtain ⟨x, y, hx, hy, hxy⟩ := h
  simp [pairReady, written, idAddr, hx, hy, hxy]

theorem pairReady_of_matches (h : PairMatches s p q) : pairReady s p q = true := by
  obtain ⟨⟨x, hx, hy⟩, hwritten⟩ := h
  have h1 : written s .s1 (yAddrs p) = true := written_yAddrs.mpr fun o h1 h32 => (hwritten o h1 h32).1
  have h2 : written s .s2 (yAddrs q) = true := written_yAddrs.mpr fun o h1 h32 => (hwritten o h1 h32).2
  simp [pairReady, h1, h2, written_iff, idAddr, hx, hy]

theorem addPair_okIff (s : State) (p q : Nat) : OkIff (pairReady s p q) (addPair p q s) := by
  obtain h | h | h := pair_trichotomy s p q
  · exact .error .unwrittenRead (by decide) (pairReady_of_unwritten h) (addPair_of_unwritten h)
  · exact .ok _ (pairReady_of_differs h) (addPair_of_differs h)
  · obtain ⟨t, ht, -⟩ := addPair_of_matches h
    exact .ok _ (pairReady_of_matches h) ht

end

section
variable {s t : State} {m : Nat}

theorem pairsReady_of_unwritten (h : PairUnwritten s m m) (l : List Nat) : pairsReady s (m :: l) = false := by
  rw [pairsReady, pairReady_of_unwritten h, Bool.false_and]

theorem pairsReady_of_differs (h : PairDiffers s m m) (l : List Nat) : pairsReady s (m :: l) = true := by
  rw [pairsReady, pairReady_of_differs h]
  obtain ⟨x, y, hx, hy, hxy⟩ := h
  simp [idAddr, hx, hy, hxy]

theorem pairsReady_of_matches (h : PairMatches s m m) (l : List Nat) : pairsReady s (m :: l) = pairsReady s l := by
  rw [pairsReady, pairReady_of_matches h]
  obtain ⟨⟨x, hx, hy⟩, -⟩ := h
  simp [idAddr, hx, hy]

theorem pairsReady_congr {l : List Nat} (h : ∀ m ∈ l, SamePair m m s t) : pairsReady t l = pairsReady s l := by
  induction l with
  | nil => rfl
  | cons m l ih =>
    obtain ⟨hm, hl⟩ := List.forall_mem_cons.mp h
    obtain h | h | h := pair_trichotomy s m m
    · rw [pairsReady_of_unwritten h, pairsReady_of_unwritten (hm.pairUnwritten h)]
    · rw [pairsReady_of_differs h, pairsReady_of_differs (hm.pairDiffers h)]
    · rw [pairsReady_of_matches h, pairsReady_of_matches (hm.pairMatches h), ih hl]

/-- The add of pair `m` leaves every other pair alone. -/
theorem samePair_of_ne {m' : Nat} (hne : m' ≠ m) (hframe : ∃ mem, t = s.setMem .s1 mem)
    (hother : ∀ a, ¬ IsYByte m a → t.read .s1 a = s.read .s1 a) : SamePair m' m' s t := by
  obtain ⟨mem, rfl⟩ := hframe
  exact fun o ho => ⟨hother _ fun hy => hne ((isYByte_bankAddr_iff ho).mp hy).1, State.read_setMem_other s mem _ (by decide)⟩

/-- The first pair that does not match decides; when the loop comes to it, it is what it was at the start. -/
theorem addPairs_okIff {l : List Nat} (hl : l.Nodup) (s : State) : OkIff (pairsReady s l) (addPairs l s) := by
  induction l generalizing s with
  | nil => exact .ok _ rfl rfl
  | cons m l ih =>
    obtain ⟨hm, hl⟩ := List.nodup_cons.mp hl
    obtain h | h | h := pair_trichotomy s m m
    · exact .error .unwrittenRead (by decide) (pairsReady_of_unwritten h l) (by rw [addPairs, addPair_of_unwritten h])
    · exact .ok _ (pairsReady_of_differs h l) (by rw [addPairs, addPair_of_differs h])
    · obtain ⟨t, ht, hframe, -, hother⟩ := addPair_of_matches h
      have hsame : ∀ m' ∈ l, SamePair m' m' s t := fun m' hm' =>
        samePair_of_ne (ne_of_mem_of_not_mem hm' hm) hframe hother
      rw [addPairs, ht, pairsReady_of_matches h, ← pairsReady_congr hsame]
      exact ih hl t

end

/-! ## The commands -/

section
variable {a b k x : Byte} {s : State}

theorem storeByte_nextIff {c : Bool} (hc : c = true) (b : Buf) (a : Nat) (v : Byte) :
    NextIff (c && true) (storeByte c b a v s) :=
  .require hc (.next _ rfl rfl)

theorem loadByte_nextIff {c : Bool} (hc : c = true) (b : Buf) (a : Nat) :
    NextIff (c && written s b [a]) (loadByte c b a s) :=
  .require hc (.of_okIff (bufRead_okIff s b a) (fun _ h => ⟨_, by rw [h]⟩) fun _ h => by rw [h])

theorem execGfinv_nextIff (ha : invertible a = true) : NextIff (invertible a && true) (execGfinv a s) := by
  obtain ⟨c, hc⟩ := exists_gfMul_eq_one s.poly (of_decide_eq_true ha)
  exact .next _ (by rw [ha, Bool.and_self]) (exec_gfinv hc)

theorem execGfdiv_nextIff (hb : invertible b = true) : NextIff (invertible b && true) (execGfdiv a b s) := by
  obtain ⟨c, hc⟩ := exists_gfDiv_eq_some s.poly a (of_decide_eq_true hb)
  exact .next _ (by rw [hb, Bool.and_self]) (exec_gfdiv hc)

theorem execPeval_nextIff (hk : countOk k = true) :
    NextIff (countOk k && written s .coef (List.range k.toNat)) (execPeval k x s) :=
  .require hk (.of_okIff (readAll_okIff s .coef (List.range k.toNat)) (fun _ h => ⟨_, by rw [h]⟩) fun _ h => by rw [h])

theorem execLbasis_nextIff (hk : countOk k = true) : NextIff (countOk k && idsReady s k.toNat) (execLbasis k s) :=
  .require hk (.of_okIff (synthesize_okIff s k.toNat) (fun _ h => ⟨_, by rw [h]⟩) fun _ h => by rw [h])

theorem execInterp_nextIff (hk : countOk k = true) :
    NextIff (countOk k && (sharesReady s k.toNat && written s .basis (List.range k.toNat))) (execInterp k s) := by
  refine .require hk ?_
  obtain ⟨ls, hready, h⟩ | ⟨f, hf, hready, h⟩ := readAll_okIff s .basis (List.range k.toNat)
  · rw [h, hready, Bool.and_true]
    exact .finish (interpolate_okIff s k.toNat ls)
  · exact .fault f hf (by rw [hready, Bool.and_false]) (by rw [h])

theorem execCombine_nextIff (hk : countOk k = true) :
    NextIff (countOk k && (idsReady s k.toNat && sharesReady s k.toNat)) (execCombine k s) := by
  refine .require hk ?_
  obtain ⟨ls, hready, h⟩ | ⟨f, hf, hready, h⟩ := synthesize_okIff s k.toNat
  · rw [h, hready, Bool.true_and, ← sharesReady_writeFrom_basis s k.toNat ls]
    exact .finish (interpolate_okIff _ k.toNat ls)
  · exact .fault f hf (by rw [hready, Bool.false_and]) (by rw [h])

end

/-- A well-formed command completes exactly when it is ready, and else faults for a reason in the state. -/
theorem exec_nextIff {i : Instr} (h : i.wf = true) (s : State) : NextIff (Ready i s) (exec i s) := by
  cases i with
  | gfadd a b => exact .next _ rfl rfl
  | gfmul a b => exact .next _ rfl rfl
  | gfinv a => exact execGfinv_nextIff h
  | gfdiv a b => exact execGfdiv_nextIff h
  | peval k x => exact execPeval_nextIff h
  | split bank n k => exact .require h (.finish (splitInto_okIff (bankBuf_ne_key bank) n.toNat k.toNat s))
  | lbasis k => exact execLbasis_nextIff h
  | interp k => exact execInterp_nextIff h
  | combine k => exact execCombine_nextIff h
  | sadd2 p q => exact .require h (.finishAdd (addPair_okIff s p.toNat q.toNat))
  | saddn n => exact .require h (.finishAdd (addPairs_okIff List.nodup_range s))
  | wrs1 slot offset value => exact storeByte_nextIff h _ _ _
  | wrs2 slot offset value => exact storeByte_nextIff h _ _ _
  | wrkey index value => exact storeByte_nextIff h _ _ _
  | wrcoef index value => exact storeByte_nextIff h _ _ _
  | wrbas index value => exact storeByte_nextIff h _ _ _
  | rds1 slot offset => exact loadByte_nextIff h _ _
  | rds2 slot offset => exact loadByte_nextIff h _ _
  | rdkey index => exact loadByte_nextIff h _ _
  | rdcoef index => exact loadByte_nextIff h _ _
  | rdbas index => exact loadByte_nextIff h _ _

/-- Settles O22: an ill-formed command is not ready and faults; for a well-formed one it is `exec_nextIff`. -/
theorem completesExactlyWhenReady : Obligations.CompletesExactlyWhenReady := by
  intro i s
  cases hwf : i.wf with
  | false =>
    obtain ⟨f, hf⟩ := exec_fault_of_not_wf hwf s
    simp [Ready, hwf, hf]
  | true =>
    obtain ⟨t, hready, ht⟩ | ⟨f, -, hready, hf⟩ := exec_nextIff hwf s
    · simp [hready, ht]
    · simp [hready, hf]

/-- Settles O20: a well-formed command faults only for reasons in the state, and those of the `require` lines are none of them. -/
theorem operandFaultsDependOnTheWordAlone : Obligations.OperandFaultsDependOnTheWordAlone := by
  intro i s h
  have hwf := wf_of_operandFault_none h
  have hne {f : Fault} (hf : f ∉ stateFaults) : exec i s ≠ .fault f := fun he => by
    obtain ⟨t, -, ht⟩ | ⟨g, hg, -, hgf⟩ := exec_nextIff hwf s
    · cases he.symm.trans ht
    · cases he.symm.trans hgf
      exact hf hg
  exact ⟨hwf, hne (by decide), hne (by decide), hne (by decide)⟩

/-! ## Refusals -/

theorem exec_not_refused (i : Instr) (s : State) (r : Refusal) : exec i s ≠ .refused r := by
  intro h
  cases hwf : i.wf with
  | false =>
    obtain ⟨f, hf⟩ := exec_fault_of_not_wf hwf s
    cases h.symm.trans hf
  | true =>
    obtain ⟨t, -, ht⟩ | ⟨f, -, -, hf⟩ := exec_nextIff hwf s
    · cases h.symm.trans ht
    · cases h.symm.trans hf

theorem complete_refused {o : Host.Outcome State Fault Refusal} {r : Refusal} : complete o = .refused r ↔ o = .refused r := by
  cases o <;> simp [complete]

theorem step_not_refused (s : State) (r : Refusal) : step s ≠ .refused r := by
  cases hw : s.fetch with
  | none => simp [step, hw, idle]
  | some w =>
    cases hd : decode w with
    | error e => simp [step, hw, hd]
    | ok i => simp [step_eq_complete hw hd, complete_refused, exec_not_refused]

/-- Settles O21: every `require` and every operation of a command has its reason in the list, and every arm of `exec` completes or
faults. -/
theorem onlyListedFaults : Obligations.OnlyListedFaults :=
  ⟨exec_faultsAmong_mayRaise, exec_not_refused, step_not_refused⟩

/-! ## STATUS -/

theorem exec_status {i : Instr} {s t : State} (h : exec i s = .next t) :
    (isAdd i = false → t.status = s.status) ∧ (isAdd i = true → t.status = statusOk ∨ t.status = statusIdMismatch) := by
  have hK : Keeps i fun u => u.status = s.status := ⟨fun v _ _ hu => by simpa using hu, fun g _ hu => hu⟩
  refine exec_keeps (Q := fun t => (isAdd i = false → t.status = s.status) ∧
      (isAdd i = true → t.status = statusOk ∨ t.status = statusIdMismatch))
    hK (fun hR u v hu => ?_) (fun hA u c _ => ?_) (fun _ hN u hu => ?_) rfl h
  · exact ⟨fun _ => hu, fun hA => by simp [not_isAdd_of_writesR hR] at hA⟩
  · exact ⟨fun hN => by simp [hA] at hN, fun _ => statusOfMatch_cases c⟩
  · exact ⟨fun _ => hu, fun hA => by simp [hN] at hA⟩

/-- Settles O13: the writes of a command leave `STATUS` alone, and only the ending of an add sets it. -/
theorem statusWrittenOnlyByAdds : Obligations.StatusWrittenOnlyByAdds :=
  fun _ _ _ => exec_status

end Sys2Proof.Proofs
end

section
/-! PROOFS. Reset as an event (O12). A reset leaves the state after reset but for `POLY` and the port, and the port after it is the one
that a run of draws leaves. -/

namespace Sys2Proof.Proofs

open Machine Claims

/-- A port that can supply `n` bytes is past exactly those once they are taken. -/
theorem skip_eq {n : Nat} {g : RngPort} (h : g.canSupply n = true) :
    RngPort.skip n g = { g with supplied := g.supplied.drop n, drawn := g.drawn + n } :=
  (RngPort.draw_ok (draw_eq h)).2.1.symm

@[simp] theorem applyReset_mem (s : State) (n : Nat) (b : Buf) : (s.applyReset n).mem b = [] := by cases b <;> rfl

@[simp] theorem applyReset_read (s : State) (n : Nat) (b : Buf) (a : Nat) : (s.applyReset n).read b a = none := by
  rw [State.read, applyReset_mem, Memory.read_nil]

theorem applyReset_rng {s : State} {n : Nat} (h : s.rng.canSupply n = true) :
    (s.applyReset n).rng = { s.rng with supplied := s.rng.supplied.drop n, drawn := s.rng.drawn + n } :=
  skip_eq h

/-- Settles O12: every buffer is empty after a reset, and the bytes taken are those that a run of draws takes. -/
theorem resetAbandonsCommand : Obligations.ResetAbandonsCommand :=
  fun s n => ⟨⟨rfl, rfl, applyReset_read s n, rfl, rfl, rfl⟩, fun h => applyReset_rng (by simp [RngPort.canSupply, h])⟩

end Sys2Proof.Proofs
end
